-- ==== Sys2Proof/Word.lean ====
section
/-!
DEFINITION. The words the engine handles: bytes, command words, symbols.
-/

namespace Sys2Proof

/-- A byte is 8 bits, bit 7 the most significant (00_scope R6). -/
abbrev Byte := BitVec 8

/-- A command word is CMD_W = 48 bits, bit 47 the most significant (30_encoding R60). -/
abbrev CmdWord := BitVec 48

/-- A Symbol is an integer in [0, 256] (10_state R10): the values 257 to 511 that 9 bits could also
hold are never stored anywhere in the engine, so the type does not have them. -/
abbrev Sym := Fin 257

end Sys2Proof
end

