-- ==== Sys2Proof/Config.lean ====
section
/-!
DEFINITION. The parameters of the engine (00_scope R5). All but WEIGHT_W are constants; WEIGHT_W is OPEN
and is a value the machine's state carries unchanged, so that a statement about every state is a
statement about every WEIGHT_W.
-/

namespace Sys2Proof

/-- SENTINEL, the end-of-stream symbol 256 (R5, R10). -/
abbrev sentinel : Sym := 256

/-- NSYM, the number of symbols (R5). -/
abbrev nsym : Nat := 257

/-- MAX_CODE_LEN, the longest code in bits (R5, 42_tree_build R134). -/
abbrev maxCodeLen : Nat := 256

/-- NODE_CAP, the most nodes a tree can have (R5, R134). -/
abbrev nodeCap : Nat := 513

/-- MAXN, the largest N of RDBITS and WRBITS (R5). -/
abbrev maxN : Nat := 32

/-- SYM_W, the width of a symbol field (R5). -/
abbrev symW : Nat := 9

/-- What one engine fixes: WEIGHT_W, the width in bits of a counter and of a node weight, or `none` for
the unbounded engine (R5: "OPEN, default 64; a model may take it unbounded"). -/
structure Config where
  weightW : Option Nat
  deriving DecidableEq, Repr

/-- The default of R5: WEIGHT_W = 64. -/
def Config.default : Config := ⟨some 64⟩

end Sys2Proof
end

