-- ==== Sys2Proof/Syntax.lean ====
section
/-!
DEFINITION. The instructions: one constructor per row of spec/opcode_table.json, that is the 14 commands
(30_encoding R62) and the two header tokens of the wire format (R65, R66).
-/

namespace Sys2Proof

/-- A row of the opcode table with its operands. -/
inductive Instr where
  /-- CLR (46_control R187). -/
  | clr
  /-- REWIND (40_bitstream R99). -/
  | rewind
  /-- RDBIT (40_bitstream R94). -/
  | rdbit
  /-- RDBITS N (40_bitstream R95): N is the 6-bit field 37:32. -/
  | rdbits (n : BitVec 6)
  /-- WRBIT b (40_bitstream R96): b is V[0]. -/
  | wrbit (b : Bool)
  /-- WRBITS N, V (40_bitstream R97). -/
  | wrbits (n : BitVec 6) (v : BitVec 32)
  /-- FLUSH (40_bitstream R98). -/
  | flush
  /-- FREQ (41_frequency R110). -/
  | freq
  /-- BUILD (42_tree_build R120). -/
  | build
  /-- MKTAB (42_tree_build R131). -/
  | mktab
  /-- WRHDR (43_header R140). -/
  | wrhdr
  /-- ENCODE (44_encode R160). -/
  | encode
  /-- RDHDR (43_header R142). -/
  | rdhdr
  /-- DECODE (45_decode R171). -/
  | decode
  /-- HDR.LEAF (30_encoding R65): the leaf token with its 9-bit symbol field. -/
  | hdrLeaf (s : BitVec 9)
  /-- HDR.NODE (30_encoding R66): the internal-node token. -/
  | hdrNode
  deriving DecidableEq, Repr

/-- A header token as the wire format defines it (30_encoding R65, R66). -/
inductive Token where
  | leaf (s : BitVec 9)
  | node
  deriving DecidableEq, Repr

/-- A token as a row of the opcode table. -/
def Token.instr : Token → Instr
  | .leaf s => .hdrLeaf s
  | .node => .hdrNode

/-- Whether a row is a command of the command port (and not a header token). -/
def Instr.isCommand : Instr → Bool
  | .clr | .rewind | .rdbit | .rdbits _ | .wrbit _ | .wrbits _ _ | .flush => true
  | .freq | .build | .mktab | .wrhdr | .encode | .rdhdr | .decode => true
  | .hdrLeaf _ | .hdrNode => false

/-- The pseudo-command COMPRESS (30_encoding R74, 46_control R188). -/
def compress : List Instr := [.clr, .freq, .rewind, .build, .mktab, .wrhdr, .encode, .flush]

/-- The pseudo-command DECOMPRESS (30_encoding R74, 46_control R189). -/
def decompress : List Instr := [.clr, .rdhdr, .decode, .flush]

end Sys2Proof
end

