-- ==== Sys2Proof/WellFormed.lean ====
section
/-!
DEFINITION. Which instructions are well formed: the operand ranges the spec gives.
-/

namespace Sys2Proof

/-- N of RDBITS and WRBITS is 1 to MAXN (30_encoding R63); a symbol field is 0 to 256 (R67). Every other
operand value is legal. -/
def Instr.wf : Instr → Bool
  | .rdbits n => decide (1 ≤ n.toNat ∧ n.toNat ≤ maxN)
  | .wrbits n _ => decide (1 ≤ n.toNat ∧ n.toNat ≤ maxN)
  | .hdrLeaf s => decide (s.toNat ≤ 256)
  | .clr | .rewind | .rdbit | .wrbit _ | .flush | .freq | .build | .mktab => true
  | .wrhdr | .encode | .rdhdr | .decode | .hdrNode => true

end Sys2Proof
end

