-- ==== Sys2Proof/Decode.lean ====
section
/-!
DEFINITION. Decoding, total on every command word and every bit sequence, rejecting by name; and after it
the encoder.
-/

namespace Sys2Proof

/-- Why a command word or a header token is rejected. -/
inductive DecodeError where
  /-- OP is not one of the 14 values of 30_encoding R62 (R64). -/
  | unassignedOp
  /-- Z, bits 39:38, is not 00 (R61, R64). -/
  | reservedZ
  /-- A field the command's format does not use is not zero (R61, R64). -/
  | unusedField
  /-- N of RDBITS or WRBITS is 0 or greater than 32 (R64). -/
  | countOutOfRange
  /-- The symbol field of a leaf token is 257 to 511 (R67). -/
  | reservedSymbol
  /-- The bits end inside a token. -/
  | endOfBits
  /-- Bits are left over after the one token asked for. -/
  | trailingBits
  deriving DecidableEq, Repr

/-! ### The command word (30_encoding R60 to R64) -/

/-- OP, bits 47:40. -/
def opField (w : CmdWord) : BitVec 8 := w.extractLsb' 40 8

/-- Z, bits 39:38. -/
def zField (w : CmdWord) : BitVec 2 := w.extractLsb' 38 2

/-- N, bits 37:32. -/
def nField (w : CmdWord) : BitVec 6 := w.extractLsb' 32 6

/-- V, bits 31:0. -/
def vField (w : CmdWord) : BitVec 32 := w.extractLsb' 0 32

/-- The legal values of N for RDBITS and WRBITS (R63, R64). -/
def countLegal (n : BitVec 6) : Bool := decide (1 ≤ n.toNat ∧ n.toNat ≤ maxN)

/-- Format C0: N = 0 and V = 0 (R61). -/
def formatC0 (w : CmdWord) (i : Instr) : Except DecodeError Instr :=
  if nField w = 0 ∧ vField w = 0 then .ok i else .error .unusedField

/-- Format CN: V = 0, N a legal count (R61, R64). -/
def formatCN (w : CmdWord) (i : BitVec 6 → Instr) : Except DecodeError Instr :=
  if vField w = 0 then
    if countLegal (nField w) then .ok (i (nField w)) else .error .countOutOfRange
  else .error .unusedField

/-- Format CB: N = 0 and V[31:1] = 0 (R61); the operand is V[0] (R63). -/
def formatCB (w : CmdWord) (i : Bool → Instr) : Except DecodeError Instr :=
  if nField w = 0 ∧ (vField w).extractLsb' 1 31 = 0 then .ok (i ((vField w).getLsbD 0))
  else .error .unusedField

/-- Format CNV: every V is legal, N a legal count (R61, R64). -/
def formatCNV (w : CmdWord) (i : BitVec 6 → BitVec 32 → Instr) : Except DecodeError Instr :=
  if countLegal (nField w) then .ok (i (nField w) (vField w)) else .error .countOutOfRange

/-- The operation codes of 30_encoding R62. -/
def decodeOp (w : CmdWord) : Except DecodeError Instr :=
  match (opField w).toNat with
  | 0x01 => formatC0 w .clr
  | 0x02 => formatC0 w .rewind
  | 0x10 => formatC0 w .rdbit
  | 0x11 => formatCN w .rdbits
  | 0x12 => formatCB w .wrbit
  | 0x13 => formatCNV w .wrbits
  | 0x14 => formatC0 w .flush
  | 0x20 => formatC0 w .freq
  | 0x21 => formatC0 w .build
  | 0x22 => formatC0 w .mktab
  | 0x23 => formatC0 w .wrhdr
  | 0x24 => formatC0 w .encode
  | 0x28 => formatC0 w .rdhdr
  | 0x29 => formatC0 w .decode
  | _ => .error .unassignedOp

/-- The instruction a command word stands for, or why it is illegal (30_encoding R64). -/
def decode (w : CmdWord) : Except DecodeError Instr :=
  if zField w = 0 then decodeOp w else .error .reservedZ

/-! ### The header tokens (30_encoding R65 to R68, R72) -/

/-- The token a tag bit and, after tag 0, a 9-bit field stand for (R65, R66); the field values 257 to
511 are reserved (R67). -/
def decodeToken (tag : Bool) (field : BitVec 9) : Except DecodeError Token :=
  if tag then .ok .node
  else if field.toNat ≤ 256 then .ok (.leaf field) else .error .reservedSymbol

/-- The unsigned integer a bit sequence is, its first bit the most significant (20_memory R43). -/
def bitsToNat (l : List Bool) : Nat := l.foldl (fun v b => 2 * v + b.toNat) 0

/-- The `n` low bits of `v`, the most significant first (20_memory R43). -/
def natToBits : Nat → Nat → List Bool
  | 0, _ => []
  | n + 1, v => v.testBit n :: natToBits n v

/-- The first token of a bit sequence and the bits after it: its first bit tells its length (R72). -/
def decodeBits : List Bool → Except DecodeError (Instr × List Bool)
  | [] => .error .endOfBits
  | true :: rest => .ok (.hdrNode, rest)
  | false :: rest =>
    if rest.length < symW then .error .endOfBits
    else match decodeToken false (BitVec.ofNat 9 (bitsToNat (rest.take symW))) with
      | .ok t => .ok (t.instr, rest.drop symW)
      | .error e => .error e

/-! ### The encoder -/

/-- How an instruction travels: a command as a word of the command port, a token as bits of the stream. -/
inductive Wire where
  | word (w : CmdWord)
  | token (bits : List Bool)
  deriving DecidableEq, Repr

/-- word = OP x 2^40 + N x 2^32 + V (30_encoding R75). -/
def packWord (op n v : Nat) : CmdWord := BitVec.ofNat 48 (op * 2 ^ 40 + n * 2 ^ 32 + v)

/-- The encoding of an instruction (R62, R65, R66, R75). -/
def encode : Instr → Wire
  | .clr => .word (packWord 0x01 0 0)
  | .rewind => .word (packWord 0x02 0 0)
  | .rdbit => .word (packWord 0x10 0 0)
  | .rdbits n => .word (packWord 0x11 n.toNat 0)
  | .wrbit b => .word (packWord 0x12 0 b.toNat)
  | .wrbits n v => .word (packWord 0x13 n.toNat v.toNat)
  | .flush => .word (packWord 0x14 0 0)
  | .freq => .word (packWord 0x20 0 0)
  | .build => .word (packWord 0x21 0 0)
  | .mktab => .word (packWord 0x22 0 0)
  | .wrhdr => .word (packWord 0x23 0 0)
  | .encode => .word (packWord 0x24 0 0)
  | .rdhdr => .word (packWord 0x28 0 0)
  | .decode => .word (packWord 0x29 0 0)
  | .hdrLeaf s => .token (false :: natToBits symW s.toNat)
  | .hdrNode => .token [true]

/-- Decoding what `encode` gives: the whole word, or exactly one token. -/
def decodeWire : Wire → Except DecodeError Instr
  | .word w => decode w
  | .token bits =>
    match decodeBits bits with
    | .ok (i, []) => .ok i
    | .ok (_, _ :: _) => .error .trailingBits
    | .error e => .error e

/-! ### Words as spec/opcode_table.json numbers them -/

/-- The bits of a row's word in stream order. A header token is written first bit leftmost (R65), so bit
9 of a 10-bit leaf word and bit 0 of the 1-bit node word are the tag; a width given in whole bytes (16 for
10, 8 for 1) must have zeros above. A 1-bit word with tag 0 is a leaf token whose field the table gives no
bits: zeros follow. A 10-bit word with tag 1 is the node token, and what follows it is another token's. -/
def tableToken (nbits w : Nat) : Option Instr :=
  let bits :=
    if nbits ≤ 8 then
      if w ≤ 1 then natToBits 1 w ++ List.replicate symW false else []
    else
      if w < 2 ^ 10 then natToBits 10 w else []
  match decodeBits bits with
  | .ok (i, _) => some i
  | .error _ => none

/-- The instruction this decoder reads from a word numbered as the opcode table numbers it: rows wider
than 16 bits are command words, the others header tokens. -/
def decodeTableWord (nbits w : Nat) : Option Instr :=
  if nbits ≤ 16 then tableToken nbits w
  else if w < 2 ^ 48 then (decode (BitVec.ofNat 48 w)).toOption
  else none

end Sys2Proof
end

