-- ==== Sys2Proof/Machine/State.lean ====
section
/-!
DEFINITION. The state of the machine: the engine's registers and tables (10_state.md), and, as plain data,
the parameters and inputs of a run (R25): WEIGHT_W, IN, the environment's draws, the host's commands.
-/

namespace Sys2Proof.Machine

/-- The error kinds of 60_exceptions R200; their codes are `errCode`. -/
inductive ErrKind where
  | ioFailure
  | malformedHeader
  | truncatedPayload
  | unencodableSymbol
  | illegalCommand
  | counterOverflow
  deriving DecidableEq, Repr

/-- The decoder's states (10_state R17). -/
inductive DState where
  | readingTree
  | walking
  | done
  deriving DecidableEq, Repr

/-- A tree value (10_state R12): `leaf sym w` or `node first second w`. -/
inductive Tree where
  | leaf (sym : Sym) (w : Nat)
  | node (first second : Tree) (w : Nat)
  deriving DecidableEq, Repr

/-- RES (10_state R19). -/
structure Res where
  eof : Bool
  val : BitVec 32
  deriving DecidableEq, Repr

/-- One frame of RDHDR's traversal stack (10_state R24 (b)): an internal node whose first child is being
read, or one whose first child is complete and whose second child is being read. -/
inductive Frame where
  | needFirst
  | needSecond (first : Tree)
  deriving DecidableEq, Repr

/-- A header read in progress (10_state R24 (b)): the traversal stack, innermost frame first, and SEEN.
Hidden state of RDHDR. -/
structure HdrRead where
  stack : List Frame
  seen : List Sym
  deriving DecidableEq, Repr

/-- What the host does next: issue a command word (46_control R185, R186), or reset the engine
(70_reset_and_hazards R230). -/
inductive HostAction where
  | issue (w : CmdWord)
  | reset
  deriving DecidableEq, Repr

/-- The machine. -/
structure State where
  /-- HIST (R11) as the Frequency Map: (byte value, count ≥ 1) pairs, byte values strictly rising. -/
  hist : List (Nat × Nat)
  /-- TREE and T_VALID (R13): T_VALID = 1 exactly when there is a tree. -/
  tree : Option Tree
  /-- CODE (R14): (symbol, code) pairs, symbols strictly rising; an unlisted symbol's entry is `none`. -/
  code : List (Nat × List Bool)
  /-- C_VALID (R14). -/
  cValid : Bool
  /-- IN_POS (R15): the number of bits of IN consumed so far. -/
  inPos : Nat
  /-- OUT (R16): the bytes the environment has accepted, in order. -/
  out : List Byte
  /-- WBUF (R16): the bits pending, in its WCNT most significant bits. -/
  wbuf : Byte
  /-- WCNT (R16): how many bits are pending, 0 to 7. -/
  wcnt : Fin 8
  /-- W_OPEN (R16). -/
  wOpen : Bool
  /-- DSTATE (R17). -/
  dstate : DState
  /-- CUR (R17): the node of TREE the decoder stands on, as the sub-tree it is the root of. -/
  cur : Tree
  /-- ERR (R18): `none` is code 0. -/
  err : Option ErrKind
  /-- RES (R19). -/
  res : Res
  /-- Hidden state of RDHDR in the middle of a header (R24 (b)); `none` between commands. -/
  hdr : Option HdrRead
  /-- WEIGHT_W (00_scope R5): a constant of the run. -/
  cfg : Config
  /-- IN, the input byte sequence of the current operation (R15). -/
  input : List Byte
  /-- The INs the host will attach with the next CLRs and reset events, in order (46_control R187). -/
  nextIns : List (List Byte)
  /-- The environment's draws for the InFetch calls to come (20_memory R41): `true` is FAIL; the calls
  after the last draw do not fail. -/
  fetchFails : List Bool
  /-- The environment's draws for the OutPut calls to come (R41), in the same form. -/
  putFails : List Bool
  /-- What the host has still to do, in order (46_control R186): c[cp], c[cp + 1], ... -/
  host : List HostAction
  /-- cp, the number of commands the host has had completed (46_control R186). -/
  cp : Nat
  deriving DecidableEq, Repr

/-- What stops the machine. -/
inductive Fault where
  /-- A command would run for ever. Raised by the loops of FREQ, ENCODE, RDHDR, DECODE and BUILD when
  they have used more turns than the bits of IN (or the trees of Q) allow. By 70_reset_and_hazards R245
  every command ends, so no reachable state raises it: only DECODE in a state no run reaches, on a tree
  whose root is the leaf of a byte (the hang of R238). Safe: the machine stops where it would not end. -/
  | hang
  deriving DecidableEq, Repr

/-- Why a step has no meaning. -/
inductive Refusal where
  /-- Raised by `exec` for an instruction that has no meaning yet. Safe. -/
  | notModelled (mnemonic : String)
  /-- Raised by `step` when the host has nothing left to issue: the program has ended (46_control R186).
  Safe. -/
  | noCommand
  /-- Raised by every command issued while a header read is in progress: the host protocol forbids it
  (46_control R185, 93_implementation_defined U20 "refuse"). Safe. -/
  | commandWhileBusy
  /-- Raised by a header token outside a header read: it is then data of the stream, and the spec gives
  it no effect. Safe. -/
  | tokenOutsideHeader
  deriving DecidableEq, Repr

/-- The machine after reset (10_state R26). CUR is unspecified there: the model names the sentinel's leaf
(log 5). The fields that are not engine state (R25) hold the empty input, no failures, no command and the
default WEIGHT_W (log 1 to 4). -/
def State.reset : State where
  hist := []
  tree := none
  code := []
  cValid := false
  inPos := 0
  out := []
  wbuf := 0
  wcnt := 0
  wOpen := true
  dstate := .readingTree
  cur := .leaf sentinel 0
  err := none
  res := ⟨false, 0⟩
  hdr := none
  cfg := .default
  input := []
  nextIns := []
  fetchFails := []
  putFails := []
  host := []
  cp := 0

end Sys2Proof.Machine
end

