-- ==== Sys2Proof/Machine/Tables.lean ====
section
/-!
DEFINITION. The indexed tables HIST and CODE: finite maps from an index to a value, held as lists of
(index, value) pairs with strictly rising indexes and no pair for an entry that is 0 (HIST) or `none` (CODE).
-/

namespace Sys2Proof.Machine

/-- The value listed for index `x`, if any. -/
def tableGet {α : Type} : List (Nat × α) → Nat → Option α
  | [], _ => none
  | (k, v) :: t, x => if k = x then some v else tableGet t x

/-- List `v` for index `x`. -/
def tablePut {α : Type} (x : Nat) (v : α) : List (Nat × α) → List (Nat × α)
  | [] => [(x, v)]
  | (k, w) :: t =>
    if x < k then (x, v) :: (k, w) :: t
    else if x = k then (x, v) :: t
    else (k, w) :: tablePut x v t

/-- List nothing for index `x`. -/
def tableErase {α : Type} (x : Nat) : List (Nat × α) → List (Nat × α)
  | [] => []
  | (k, w) :: t => if x = k then t else (k, w) :: tableErase x t

/-- The canonical form: indexes strictly rising, all below `bound`, the first above `low`. -/
def tableWfFrom {α : Type} (bound : Nat) : Nat → List (Nat × α) → Bool
  | _, [] => true
  | low, (k, _) :: t => decide (low ≤ k) && decide (k < bound) && tableWfFrom bound (k + 1) t

/-- HIST[b] (10_state R11): an unlisted counter is 0. -/
def histRead (h : List (Nat × Nat)) (b : Nat) : Nat := (tableGet h b).getD 0

/-- HIST[b] <- c. -/
def histWrite (h : List (Nat × Nat)) (b c : Nat) : List (Nat × Nat) :=
  if c = 0 then tableErase b h else tablePut b c h

/-- The Frequency Map's form: byte values strictly rising, every count at least 1 (R11). -/
def histWf (h : List (Nat × Nat)) : Bool :=
  tableWfFrom 256 0 h && h.all (fun e => decide (1 ≤ e.2))

/-- CODE[s] (R14): an unlisted entry is `none`. -/
def codeRead (c : List (Nat × List Bool)) (s : Nat) : Option (List Bool) := tableGet c s

/-- CODE[s] <- p. -/
def codeWrite (c : List (Nat × List Bool)) (s : Nat) (p : List Bool) : List (Nat × List Bool) :=
  tablePut s p c

/-- The table's form: symbols strictly rising, all at most 256 (R14). -/
def codeWf (c : List (Nat × List Bool)) : Bool := tableWfFrom 257 0 c

/-- The canonical form of the machine's indexed memory. -/
def Memory.wf (s : State) : Bool := histWf s.hist && codeWf s.code

end Sys2Proof.Machine
end

