-- ==== Sys2Proof/Machine/Ops.lean ====
section
/-!
DEFINITION. The named operations over the machine: raising an error, clearing, the environment's two
primitives, the bit reader and writer, and taking the host's next action.
-/

namespace Sys2Proof.Machine

/-! ### How a piece of a command ends -/

/-- A piece of a command ends with a value, or at a `raise` (60_exceptions R207), or never (log 14). -/
inductive Run (α : Type) where
  | ok (a : α) (s : State)
  | raised (k : ErrKind) (s : State)
  | hang
  deriving Repr

/-- Do `f` after `r`; nothing after a `raise` in the same command executes (00_scope R7). -/
def Run.andThen {α β : Type} (r : Run α) (f : α → State → Run β) : Run β :=
  match r with
  | .ok a s => f a s
  | .raised k s => .raised k s
  | .hang => .hang

/-! ### Errors and the way back -/

/-- `raise k` (60_exceptions R207): ERR is set and the command ends, so that no hidden state of it is left
(10_state R24). Nothing else changes. -/
def raise (k : ErrKind) (s : State) : State := { s with err := some k, hdr := none }

/-- The end of a command: its last state, or the entry of the error it raised. -/
def finish (r : Run Unit) : Host.Outcome State Fault Refusal :=
  match r with
  | .ok _ s => .next s
  | .raised k s => .next (raise k s)
  | .hang => .fault .hang

/-- The next operation's IN: the first the host has still to attach, else the one attached (46_control
R187; log 16). -/
def attachInput (s : State) : State :=
  match s.nextIns with
  | [] => s
  | i :: rest => { s with input := i, nextIns := rest }

/-- Reset values for all engine state (10_state R26, 46_control R187, 70_reset_and_hazards R230), the only
way back from an error (60_exceptions R210, R211); the host attaches the new IN. -/
def clear (s : State) : State :=
  attachInput
    { State.reset with
      cfg := s.cfg, input := s.input, nextIns := s.nextIns, fetchFails := s.fetchFails,
      putFails := s.putFails, host := s.host, cp := s.cp }

/-! ### The environment (20_memory R41) -/

/-- The answers to InFetch. -/
inductive Fetch where
  | byte (b : Byte)
  | atEnd
  | fail
  deriving DecidableEq, Repr

/-- InFetch(i): FAIL if the environment draws it, else byte i of IN, else END. -/
def inFetch (i : Nat) (s : State) : Fetch × State :=
  let s' := { s with fetchFails := s.fetchFails.tail }
  if s.fetchFails.head? = some true then (.fail, s')
  else match s.input[i]? with
    | some b => (.byte b, s')
    | none => (.atEnd, s')

/-- OutPut(b): FAIL if the environment draws it, and then OUT is unchanged, else b is appended to OUT. -/
def outPut (b : Byte) (s : State) : Bool × State :=
  let s' := { s with putFails := s.putFails.tail }
  if s.putFails.head? = some true then (false, s')
  else (true, { s' with out := s.out ++ [b] })

/-! ### The bit reader (40_bitstream R90, R91) -/

/-- Bit p of a byte in stream order: p = 0 is bit 7 (20_memory R42). -/
def streamBit (b : Byte) (p : Nat) : Bool := b.getLsbD (7 - p)

/-- Take the bit: IN_POS advances by 1 (R90). -/
def takeBit (b : Byte) (s : State) : Run (Option Bool) :=
  .ok (some (streamBit b (s.inPos % 8))) { s with inPos := s.inPos + 1 }

/-- ReadBit (P-R90); `none` is EOF. A byte is fetched exactly on a byte boundary. Off a boundary the byte
fetched is IN[IN_POS div 8]; that it is there is an invariant of the reader (log 12). -/
def readBit (s : State) : Run (Option Bool) :=
  if s.inPos % 8 = 0 then
    match inFetch (s.inPos / 8) s with
    | (.byte b, s') => takeBit b s'
    | (.atEnd, s') => .ok none s'
    | (.fail, s') => .raised .ioFailure s'
  else match s.input[s.inPos / 8]? with
    | some b => takeBit b s
    | none => .ok none s

/-- The loop of P-R91: `n` more bits after the value `v`. -/
def readBitsFrom : Nat → Nat → State → Run (Option Nat)
  | 0, v, s => .ok (some v) s
  | n + 1, v, s => (readBit s).andThen fun r s =>
    match r with
    | none => .ok none s
    | some b => readBitsFrom n (2 * v + b.toNat) s

/-- ReadBits(n) (P-R91): the first bit read is the most significant; EOF at any bit is EOF. -/
def readBits (n : Nat) (s : State) : Run (Option Nat) := readBitsFrom n 0 s

/-- The bits of IN not yet consumed: what bounds every reading loop (70_reset_and_hazards R245). -/
def bitsLeft (s : State) : Nat := 8 * s.input.length - s.inPos

/-! ### The bit writer (40_bitstream R92, R93, R98) -/

/-- WriteBit(b) (P-R92). -/
def writeBit (b : Bool) (s : State) : Run Unit :=
  let s := { s with wbuf := s.wbuf + BitVec.ofNat 8 (b.toNat * 2 ^ (7 - s.wcnt.val)) }
  if s.wcnt = 7 then
    match outPut s.wbuf s with
    | (false, s') => .raised .ioFailure s'
    | (true, s') => .ok () { s' with wbuf := 0, wcnt := 0 }
  else .ok () { s with wcnt := s.wcnt + 1 }

/-- Write a bit sequence, first bit first. -/
def writeAll : List Bool → State → Run Unit
  | [], s => .ok () s
  | b :: l, s => (writeBit b s).andThen fun _ s => writeAll l s

/-- WriteBits(n, v) (P-R93): bits n - 1 down to 0 of v. -/
def writeBits (n v : Nat) (s : State) : Run Unit := writeAll (natToBits n v) s

/-- The effect of FLUSH (P-R98): the pending bits are put out as one byte, whose other bits are 0, and the
writer closes. -/
def flushWriter (s : State) : Run Unit :=
  if s.wcnt = 0 then .ok () { s with wOpen := false }
  else match outPut s.wbuf s with
    | (false, s') => .raised .ioFailure s'
    | (true, s') => .ok () { s' with wbuf := 0, wcnt := 0, wOpen := false }

/-! ### The host's next action (46_control R185, R186) -/

/-- The host takes its next action: cp counts the commands (R186), a reset event is none. -/
def takeAction (s : State) : Option (HostAction × State) :=
  match s.host with
  | [] => none
  | .issue w :: rest => some (.issue w, { s with host := rest, cp := s.cp + 1 })
  | .reset :: rest => some (.reset, { s with host := rest })

/-- The bits of a byte in stream order (20_memory R42). -/
def byteBits (b : Byte) : List Bool := natToBits 8 b.toNat

/-- The bits of a byte sequence in stream order (R42). -/
def bytesBits (l : List Byte) : List Bool := l.flatMap byteBits

/-- Bits packed into bytes in stream order, the last byte filled with zeros (R42, R47). The number bounds
the bytes made. -/
def packBits : Nat → List Bool → List Byte
  | 0, _ => []
  | _, [] => []
  | n + 1, l => BitVec.ofNat 8 (bitsToNat ((l ++ List.replicate 8 false).take 8)) :: packBits n (l.drop 8)

/-- IN with `bits` standing at stream position `p` (zeros up to `p` where IN is shorter). -/
def placeBits (p : Nat) (bits : List Bool) (input : List Byte) : List Byte :=
  let old := bytesBits input
  let all := (old ++ List.replicate p false).take p ++ bits ++ old.drop (p + bits.length)
  packBits all.length all

/-- The state in which the next step reads this header token: a header read is in progress, the token's
bits stand at IN_POS, and the environment does not fail its fetches (log 15). -/
def withToken (s : State) (bits : List Bool) : State :=
  { s with
    hdr := some (s.hdr.getD ⟨[], []⟩)
    input := placeBits s.inPos bits s.input
    fetchFails := [] }

/-- The state in which the next step issues this command word: it is the host's next action, and no
command is running. -/
def withCommand (s : State) (w : CmdWord) : State :=
  { s with hdr := none, host := .issue w :: s.host.tail }

end Sys2Proof.Machine
end

