-- ==== Sys2Proof/Machine/Operands.lean ====
section
/-!
DEFINITION. The operand forms of 30_encoding R63: the count N, the bit V[0], and the N low bits of V.
-/

namespace Sys2Proof.Machine

/-- N as a number, with no scaling (R63). -/
def countOperand (n : BitVec 6) : Nat := n.toNat

/-- V as an unsigned integer, used as it stands (R63). -/
def valueOperand (v : BitVec 32) : Nat := v.toNat

/-- The symbol a 9-bit field names (R67), for field values 0 to 256. -/
def symOperand (f : BitVec 9) : Sym := Fin.ofNat 257 f.toNat

/-- The symbol of a byte value. -/
def byteSym (b : Nat) : Sym := Fin.ofNat 257 b

/-- The result of a read (10_state R19): EOF is (1, 0), a value is zero extended into RES.val. -/
def readResult (r : Option Nat) : Res :=
  match r with
  | none => ⟨true, 0⟩
  | some v => ⟨false, BitVec.ofNat 32 v⟩

end Sys2Proof.Machine
end

