-- ==== Sys2Proof/Machine/Flags.lean ====
section
/-!
DEFINITION. The flags (10_state R21), the STATUS view (R20), the completion record (46_control R193), and
what every command is passed through: the error gate (R191), the legality check and the precondition
(R185, R190).
-/

namespace Sys2Proof.Machine

/-- T_VALID (10_state R13). -/
def tValid (s : State) : Bool := s.tree.isSome

/-- The values ERR takes (60_exceptions R200). -/
def errCode : Option ErrKind → Nat
  | none => 0
  | some .ioFailure => 1
  | some .malformedHeader => 2
  | some .truncatedPayload => 3
  | some .unencodableSymbol => 4
  | some .illegalCommand => 5
  | some .counterOverflow => 6

/-- The field DSTATE of STATUS (10_state R20). -/
def dstateCode : DState → Nat
  | .readingTree => 0
  | .walking => 1
  | .done => 2

/-- STATUS (10_state R20), from bit 15 down: zero, WCNT, DSTATE, W_OPEN, C_VALID, T_VALID, ERR. -/
def status (s : State) : BitVec 16 :=
  BitVec.ofNat 4 0 ++ BitVec.ofNat 3 s.wcnt.val ++ BitVec.ofNat 2 (dstateCode s.dstate) ++
    BitVec.ofBool s.wOpen ++ BitVec.ofBool s.cValid ++ BitVec.ofBool (tValid s) ++
    BitVec.ofNat 4 (errCode s.err)

/-- The completion record (STATUS, RES), read after a command's last step (46_control R193). -/
def completion (s : State) : BitVec 16 × Res := (status s, s.res)

/-- No command is issued while another runs (46_control R185, 93_implementation_defined U20). -/
def whenIdle (s : State) (k : State → Host.Outcome State Fault Refusal) :
    Host.Outcome State Fault Refusal :=
  if s.hdr.isSome then .refused .commandWhileBusy else k s

/-- The error gate (46_control R191): while ERR is not 0 the command does nothing. -/
def gate (s : State) (k : State → Host.Outcome State Fault Refusal) : Host.Outcome State Fault Refusal :=
  whenIdle s fun s => if s.err.isSome then .next s else k s

/-- A command other than CLR (46_control R185): the gate, then IllegalCommand where it is not legal or its
precondition does not hold, then its body. -/
def command (ready : Bool) (s : State) (body : State → Run Unit) : Host.Outcome State Fault Refusal :=
  gate s fun s => if ready then finish (body s) else .next (raise .illegalCommand s)

/-- What an illegal command word does (30_encoding R64): through the gate, then IllegalCommand. -/
def illegalWord (s : State) : Host.Outcome State Fault Refusal :=
  command false s fun s => .ok () s

/-- A counter holding `c` is at its maximum 2^WEIGHT_W - 1 (41_frequency R114). -/
def counterFull (cfg : Config) (c : Nat) : Bool :=
  match cfg.weightW with
  | none => false
  | some w => decide (c = 2 ^ w - 1)

/-- A total weight does not fit in WEIGHT_W bits (42_tree_build R130). -/
def weightOverflows (cfg : Config) (total : Nat) : Bool :=
  match cfg.weightW with
  | none => false
  | some w => decide (2 ^ w - 1 < total)

end Sys2Proof.Machine
end

