-- ==== Sys2Proof/Machine/BitStream.lean ====
section
/-!
DEFINITION. REWIND, RDBIT, RDBITS, WRBIT, WRBITS, FLUSH (40_bitstream.md).
-/

namespace Sys2Proof.Machine

/-- REWIND (R99). -/
def execRewind (s : State) : Host.Outcome State Fault Refusal :=
  command true s fun s => .ok () { s with inPos := 0 }

/-- RDBIT (R94). -/
def execRdbit (s : State) : Host.Outcome State Fault Refusal :=
  command true s fun s => (readBit s).andThen fun r s =>
    .ok () { s with res := readResult (r.map Bool.toNat) }

/-- RDBITS N (R95). -/
def execRdbits (n : BitVec 6) (s : State) : Host.Outcome State Fault Refusal :=
  command (countLegal n) s fun s => (readBits (countOperand n) s).andThen fun r s =>
    .ok () { s with res := readResult r }

/-- WRBIT b (R96). -/
def execWrbit (b : Bool) (s : State) : Host.Outcome State Fault Refusal :=
  command s.wOpen s fun s => writeBit b s

/-- WRBITS N, V (R97). -/
def execWrbits (n : BitVec 6) (v : BitVec 32) (s : State) : Host.Outcome State Fault Refusal :=
  command (countLegal n && s.wOpen) s fun s => writeBits (countOperand n) (valueOperand v) s

/-- FLUSH (R98). -/
def execFlush (s : State) : Host.Outcome State Fault Refusal :=
  command s.wOpen s fun s => flushWriter s

end Sys2Proof.Machine
end

