-- ==== Sys2Proof/Machine/Control.lean ====
section
/-!
DEFINITION. CLR (46_control.md).
-/

namespace Sys2Proof.Machine

/-- CLR (R187): the one command the error gate lets through. -/
def execClr (s : State) : Host.Outcome State Fault Refusal :=
  whenIdle s fun s => .next (clear s)

end Sys2Proof.Machine
end

