-- ==== Sys2Proof/Machine/Decoder.lean ====
section
/-!
DEFINITION. DECODE (45_decode.md).
-/

namespace Sys2Proof.Machine

/-- The loop of P-R171: at a leaf, rule R173; at an internal node, rule R172. -/
def decodeLoop (root : Tree) : Nat → State → Run Unit
  | 0, _ => .hang
  | n + 1, s =>
    match s.cur with
    | .leaf sym _ =>
      if sym = sentinel then .ok () { s with dstate := .done }
      else (writeBits 8 sym.val s).andThen fun _ s => decodeLoop root n { s with cur := root }
    | .node a b _ => (readBit s).andThen fun r s =>
      match r with
      | none => .raised .truncatedPayload s
      | some false => decodeLoop root n { s with cur := a }
      | some true => decodeLoop root n { s with cur := b }

/-- DECODE (R171). Between two bits the walk visits at most one leaf, since the root is an internal node
unless it is the sentinel's leaf (70_reset_and_hazards R245): that bounds the turns. Walking implies
T_VALID = 1 (R171); where no tree is there, which no run reaches, it is refused like any failed
precondition (log 13). -/
def execDecode (s : State) : Host.Outcome State Fault Refusal :=
  command (decide (s.dstate = .walking) && s.wOpen) s fun s =>
    match s.tree with
    | some t => decodeLoop t (2 * bitsLeft s + 3) s
    | none => .raised .illegalCommand s

end Sys2Proof.Machine
end

