-- ==== Sys2Proof/Machine/Encoder.lean ====
section
/-!
DEFINITION. ENCODE (44_encode.md).
-/

namespace Sys2Proof.Machine

/-- Write the code of a symbol, first path bit first; no code is UnencodableSymbol (R161, R162). -/
def writeCode (sym : Nat) (s : State) : Run Unit :=
  match codeRead s.code sym with
  | none => .raised .unencodableSymbol s
  | some p => writeAll p s

/-- The loop of P-R160, ended by EOF, and then the sentinel's code. -/
def encodeLoop : Nat → State → Run Unit
  | 0, _ => .hang
  | n + 1, s => (readBits 8 s).andThen fun r s =>
    match r with
    | none => writeCode sentinel.val s
    | some b => (writeCode b s).andThen fun _ s => encodeLoop n s

/-- ENCODE (R160). -/
def execEncode (s : State) : Host.Outcome State Fault Refusal :=
  command (s.cValid && s.wOpen) s fun s => encodeLoop (bitsLeft s + 1) s

end Sys2Proof.Machine
end

