-- ==== Sys2Proof/Machine/Frequency.lean ====
section
/-!
DEFINITION. FREQ (41_frequency.md).
-/

namespace Sys2Proof.Machine

/-- Count one byte (P-R110, R114). -/
def countByte (b : Nat) (s : State) : Run Unit :=
  if counterFull s.cfg (histRead s.hist b) then .raised .counterOverflow s
  else .ok () { s with hist := histWrite s.hist b (histRead s.hist b + 1) }

/-- The loop of P-R110, ended by EOF and by nothing else (R111). -/
def freqLoop : Nat → State → Run Unit
  | 0, _ => .hang
  | n + 1, s => (readBits 8 s).andThen fun r s =>
    match r with
    | none => .ok () s
    | some b => (countByte b s).andThen fun _ s => freqLoop n s

/-- FREQ (R110). -/
def execFreq (s : State) : Host.Outcome State Fault Refusal :=
  command true s fun s => freqLoop (bitsLeft s + 1) s

end Sys2Proof.Machine
end

