-- ==== Sys2Proof/Machine/Header.lean ====
section
/-!
DEFINITION. WRHDR, RDHDR and the header tokens HDR.LEAF and HDR.NODE (43_header.md, 30_encoding R65 to R68).
-/

namespace Sys2Proof.Machine

/-- Serialize of P-R140: pre-order, tag 0 and 9 symbol bits for a leaf, tag 1 for an internal node. -/
def writeTree : Tree → State → Run Unit
  | .leaf sym _, s => (writeBit false s).andThen fun _ s => writeBits symW sym.val s
  | .node a b _, s => (writeBit true s).andThen fun _ s =>
    (writeTree a s).andThen fun _ s => writeTree b s

/-- WRHDR (R140). -/
def execWrhdr (s : State) : Host.Outcome State Fault Refusal :=
  command (tValid s && s.wOpen) s fun s =>
    match s.tree with
    | some t => writeTree t s
    | none => .raised .illegalCommand s

/-- A tree is a lone leaf of a symbol other than 256 (R144 (d)). -/
def loneByteLeaf : Tree → Bool
  | .leaf sym _ => decide (sym ≠ sentinel)
  | .node _ _ _ => false

/-- What becomes of a complete sub-tree on the traversal stack (P-R142): it is the first child of the
innermost node, or its second child and then the node, of weight 0 (R145), is complete in turn; on the empty
stack it is the whole tree. -/
def plug : Tree → List Frame → Sum (List Frame) Tree
  | t, [] => .inr t
  | t, .needFirst :: st => .inl (.needSecond t :: st)
  | t, .needSecond a :: st => plug (.node a t 0) st

/-- The end of RDHDR with the whole tree read (P-R142): check (d), then TREE, T_VALID, CUR and DSTATE. -/
def finishHeader (t : Tree) (s : State) : Run (Option HdrRead) :=
  if loneByteLeaf t then .raised .malformedHeader s
  else .ok none { s with tree := some t, cur := t, dstate := .walking }

/-- A leaf token's effect on the header read `h` (P-R142): checks (b) and (c) of R144, then the leaf, of
weight 0 (R145). The answer `none` says the header is complete. -/
def leafToken (f : BitVec 9) (h : HdrRead) (s : State) : Run (Option HdrRead) :=
  if 256 < f.toNat then .raised .malformedHeader s
  else if h.seen.contains (symOperand f) then .raised .malformedHeader s
  else match plug (.leaf (symOperand f) 0) h.stack with
    | .inl st => .ok (some ⟨st, symOperand f :: h.seen⟩) s
    | .inr t => finishHeader t s

/-- An internal-node token's effect (P-R142): its two children are read next. -/
def nodeToken (h : HdrRead) (s : State) : Run (Option HdrRead) :=
  .ok (some ⟨.needFirst :: h.stack, h.seen⟩) s

/-- A token's effect on the header read `h`. -/
def applyToken (t : Token) (h : HdrRead) (s : State) : Run (Option HdrRead) :=
  match t with
  | .leaf f => leafToken f h s
  | .node => nodeToken h s

/-- Read one token at IN_POS (P-R142): end of input is case (a) of R144, a reserved symbol case (b). -/
def fetchToken (s : State) : Run Token :=
  (readBit s).andThen fun tag s =>
    match tag with
    | none => .raised .malformedHeader s
    | some true => .ok .node s
    | some false => (readBits symW s).andThen fun r s =>
      match r with
      | none => .raised .malformedHeader s
      | some v =>
        match decodeToken false (BitVec.ofNat 9 v) with
        | .ok t => .ok t s
        | .error _ => .raised .malformedHeader s

/-- Deserialize of P-R142, one token a turn with an explicit stack (R148 allows it). -/
def readHeader : Nat → HdrRead → State → Run Unit
  | 0, _, _ => .hang
  | n + 1, h, s => (fetchToken s).andThen fun t s =>
    (applyToken t h s).andThen fun r s =>
      match r with
      | none => .ok () s
      | some h' => readHeader n h' s

/-- RDHDR (R142). -/
def execRdhdr (s : State) : Host.Outcome State Fault Refusal :=
  command (!tValid s && decide (s.dstate = .readingTree)) s fun s =>
    readHeader (bitsLeft s + 1) ⟨[], []⟩ s

/-- A token run as a step of its own, in the middle of a header (log 7). DESIGN CHOICE (log 21): a token is no
command, so the error gate (46_control R191) is not before it; with ERR nonzero in the middle of a header, which
no run reaches, the token runs as with ERR = 0, and an error it raises replaces the one ERR held. DESIGN CHOICE
(log 22): nor does it test T_VALID, DSTATE or whether SEEN fits the stack; in the middle of a header with a tree in
TREE or DSTATE not Reading-Tree, which no run reaches, the token runs as RDHDR's would, and one that completes the
header writes TREE, CUR and DSTATE, whatever they held, and leaves CODE and C_VALID. -/
def tokenStep (t : Token) (s : State) : Host.Outcome State Fault Refusal :=
  match s.hdr with
  | none => .refused .tokenOutsideHeader
  | some h => finish ((applyToken t h s).andThen fun r s => .ok () { s with hdr := r })

/-- HDR.LEAF (30_encoding R65, 43_header R142). -/
def execHdrLeaf (f : BitVec 9) (s : State) : Host.Outcome State Fault Refusal :=
  tokenStep (.leaf f) s

/-- HDR.NODE (30_encoding R66, 43_header R142). -/
def execHdrNode (s : State) : Host.Outcome State Fault Refusal :=
  tokenStep .node s

end Sys2Proof.Machine
end

