-- ==== Sys2Proof/Machine/TreeBuild.lean ====
section
/-!
DEFINITION. BUILD and MKTAB (42_tree_build.md).
-/

namespace Sys2Proof.Machine

/-- t.w (00_scope R7). -/
def treeWeight : Tree → Nat
  | .leaf _ w => w
  | .node _ _ w => w

/-- An element of Q with its key (w, kind, t) (R122): w is the tree's weight; kind is 0 for a leaf, 1 for
an internal node; t is the symbol, or SEQ when the node was formed. -/
structure Entry where
  kind : Nat
  order : Nat
  tree : Tree
  deriving DecidableEq, Repr

/-- The lexicographic order of keys (R122). -/
def keyLess (a b : Entry) : Bool :=
  decide (treeWeight a.tree < treeWeight b.tree) ||
    (decide (treeWeight a.tree = treeWeight b.tree) &&
      (decide (a.kind < b.kind) || (decide (a.kind = b.kind) && decide (a.order < b.order))))

/-- The element of Q with the least key, and Q without it: `e` is the least so far. -/
def extractFrom (e : Entry) : List Entry → Entry × List Entry
  | [] => (e, [])
  | x :: q =>
    if keyLess x e then ((extractFrom x q).1, e :: (extractFrom x q).2)
    else ((extractFrom e q).1, x :: (extractFrom e q).2)

/-- The entry of a leaf (R121, R122). -/
def leafEntry (sym : Sym) (w : Nat) : Entry := ⟨0, sym.val, .leaf sym w⟩

/-- Q as it starts (R121): one leaf per byte value counted, and the sentinel with weight 1, always. -/
def initialQ (h : List (Nat × Nat)) : List Entry :=
  ((List.range 256).filter fun b => decide (1 ≤ histRead h b)).map
      (fun b => leafEntry (byteSym b) (histRead h b)) ++ [leafEntry sentinel 1]

/-- The entry of Node(a, b, a.w + b.w), formed as number `seq` (R123). -/
def mergeEntry (seq : Nat) (a b : Entry) : Entry :=
  ⟨1, seq, .node a.tree b.tree (treeWeight a.tree + treeWeight b.tree)⟩

/-- The loop of P-R120 on Q = `e` and `q`: while Q holds more than one tree, the two least are taken out,
the first becoming the first child, and their node is put in. The first number bounds the turns: each makes
Q one smaller. -/
def mergeAll : Nat → Nat → Entry → List Entry → Option Tree
  | _, _, e, [] => some e.tree
  | 0, _, _, _ :: _ => none
  | n + 1, seq, e, x :: q =>
    match extractFrom e (x :: q) with
    | (a, []) => some a.tree
    | (a, y :: r) => mergeAll n (seq + 1) (mergeEntry seq a (extractFrom y r).1) (extractFrom y r).2

/-- The tree of a histogram (R120, R124). -/
def huffman (h : List (Nat × Nat)) : Option Tree :=
  match initialQ h with
  | [] => none
  | e :: q => mergeAll q.length 0 e q

/-- 1 + HIST[0] + ... + HIST[255], without wrap (P-R120, R130). -/
def totalWeight (h : List (Nat × Nat)) : Nat := 1 + ((List.range 256).map (histRead h)).sum

/-- BUILD (R120). -/
def execBuild (s : State) : Host.Outcome State Fault Refusal :=
  command (!tValid s) s fun s =>
    if weightOverflows s.cfg (totalWeight s.hist) then .raised .counterOverflow s
    else match huffman s.hist with
      | some t => .ok () { s with tree := some t }
      | none => .hang

/-- Walk of P-R131: the path to every leaf is written as its symbol's code (R132). -/
def walkTree : Tree → List Bool → List (Nat × List Bool) → List (Nat × List Bool)
  | .leaf sym _, path, c => codeWrite c sym.val path
  | .node a b _, path, c => walkTree b (path ++ [true]) (walkTree a (path ++ [false]) c)

/-- The code table of a tree: all entries cleared, then the walk (R131). -/
def codeTable (t : Tree) : List (Nat × List Bool) := walkTree t [] []

/-- MKTAB (R131). -/
def execMktab (s : State) : Host.Outcome State Fault Refusal :=
  command (tValid s) s fun s =>
    match s.tree with
    | some t => .ok () { s with code := codeTable t, cValid := true }
    | none => .raised .illegalCommand s

end Sys2Proof.Machine
end

