-- ==== Sys2Proof/Machine/Dispatch.lean ====
section
/-!
DEFINITION. One arm per row of the opcode table.
-/

namespace Sys2Proof.Machine

def exec (i : Instr) (s : State) : Host.Outcome State Fault Refusal :=
  match i with
  | .clr => Sys2Proof.Machine.execClr s
  | .rewind => Sys2Proof.Machine.execRewind s
  | .rdbit => Sys2Proof.Machine.execRdbit s
  | .rdbits n => Sys2Proof.Machine.execRdbits n s
  | .wrbit b => Sys2Proof.Machine.execWrbit b s
  | .wrbits n v => Sys2Proof.Machine.execWrbits n v s
  | .flush => Sys2Proof.Machine.execFlush s
  | .freq => Sys2Proof.Machine.execFreq s
  | .build => Sys2Proof.Machine.execBuild s
  | .mktab => Sys2Proof.Machine.execMktab s
  | .wrhdr => Sys2Proof.Machine.execWrhdr s
  | .encode => Sys2Proof.Machine.execEncode s
  | .rdhdr => Sys2Proof.Machine.execRdhdr s
  | .decode => Sys2Proof.Machine.execDecode s
  | .hdrLeaf f => Sys2Proof.Machine.execHdrLeaf f s
  | .hdrNode => Sys2Proof.Machine.execHdrNode s

end Sys2Proof.Machine
end

