-- ==== Sys2Proof/Machine/Step.lean ====
section
/-!
DEFINITION. One step of the machine: one whole command (00_scope R4, 46_control R185), a reset event
(70_reset_and_hazards R230), or, in the middle of a header read, one header token (log 7).
-/

namespace Sys2Proof.Machine

/-- Run what the host does next on the state it leaves: a command word is decoded, and an illegal word
raises IllegalCommand (46_control R185). -/
def stepAction (a : HostAction) (s : State) : Host.Outcome State Fault Refusal :=
  match a with
  | .reset => .next (clear s)
  | .issue w =>
    match decode w with
    | .ok i => exec i s
    | .error _ => illegalWord s

/-- One step. -/
def step (s : State) : Host.Outcome State Fault Refusal :=
  match s.hdr with
  | some _ =>
    match fetchToken s with
    | .ok t s' => exec t.instr s'
    | .raised k s' => .next (raise k s')
    | .hang => .fault .hang
  | none =>
    match takeAction s with
    | none => .refused .noCommand
    | some (a, s') => stepAction a s'

/-- `s` with the instruction of this opcode-table word where the next step takes its instruction from: a
command word as the host's next action, a header token in IN at IN_POS with a header read in progress
(log 15). A word the decoder reads as no token places the illegal command word 0. -/
def State.withFetchWord (s : State) (nbits w : Nat) : State :=
  match decodeTableWord nbits w with
  | some i =>
    match encode i with
    | .word _ => withCommand s (BitVec.ofNat 48 w)
    | .token bits => withToken s bits
  | none => withCommand s (BitVec.ofNat 48 w)

end Sys2Proof.Machine
end

