-- ==== Sys2Proof/Safety.lean ====
section
/-!
DEFINITION. The terms claims use: what the streams hold as bit sequences, what a tree says (its
serialization, its codes, its leaves), when the environment does not fail, and the invariant of a run.
-/

namespace Sys2Proof.Machine

/-! ### The streams as bit sequences -/

/-- All bits of IN, in stream order (20_memory R42). -/
def inBits (s : State) : List Bool := bytesBits s.input

/-- The bits of IN not yet consumed (10_state R15). -/
def inRest (s : State) : List Bool := (inBits s).drop s.inPos

/-- The bits pending in WBUF (10_state R16): its WCNT most significant ones. -/
def pending (s : State) : List Bool := (byteBits s.wbuf).take s.wcnt.val

/-- The bits written so far (R16): those of OUT, then the pending ones. -/
def outBits (s : State) : List Bool := bytesBits s.out ++ pending s

/-- The whole 8-bit groups of a bit sequence, as numbers; the last 1 to 7 bits make none (41_frequency
R110, 92_eei_decisions D30). -/
def byteGroups : List Bool → List Nat
  | a :: b :: c :: d :: e :: f :: g :: h :: rest => bitsToNat [a, b, c, d, e, f, g, h] :: byteGroups rest
  | _ => []

/-- The environment answers no InFetch with FAIL (20_memory R41). -/
abbrev fetchesNeverFail (s : State) : Prop := s.fetchFails.all (fun d => !d) = true

/-- The environment answers no OutPut with FAIL (R41). -/
abbrev putsNeverFail (s : State) : Prop := s.putFails.all (fun d => !d) = true

/-- The reader's next FAIL (R41, 40_bitstream R90: one fetch per byte boundary) meets it at position `p`: the
fetches at the boundaries before `p` do not fail, the one at `p` does, and the draws `ds` are left after it. -/
def fetchFailsAt (s : State) (p : Nat) (ds : List Bool) : Prop :=
  ∃ k, s.fetchFails = List.replicate k false ++ true :: ds ∧ p = 8 * ((s.inPos + 7) / 8 + k) ∧
    p ≤ 8 * s.input.length

/-- The writer's next FAIL (R41, 40_bitstream R92: one put per completed byte) meets it when OUT holds `m`
bytes: the puts before it do not fail, and the draws `ds` are left after it. -/
def putFailsAt (s : State) (m : Nat) (ds : List Bool) : Prop :=
  ∃ k, s.putFails = List.replicate k false ++ true :: ds ∧ m = s.out.length + k

/-- A command finds the engine between commands and free of error. -/
abbrev idle (s : State) : Prop := s.hdr = none ∧ s.err = none

/-! ### Trees (10_state R12, 30_encoding R68, R69) -/

/-- Ser(t) (R68). -/
def treeBits : Tree → List Bool
  | .leaf sym _ => false :: natToBits symW sym.val
  | .node a b _ => true :: (treeBits a ++ treeBits b)

/-- The node a path leads to from the root: `0` to the first child, `1` to the second (R69). -/
def follow : Tree → List Bool → Option Tree
  | t, [] => some t
  | .leaf _ _, _ :: _ => none
  | .node a b _, c :: p => follow (if c then b else a) p

/-- The leaves, first child's first: symbol and weight. -/
def leaves : Tree → List (Sym × Nat)
  | .leaf sym w => [(sym, w)]
  | .node a b _ => leaves a ++ leaves b

/-- The symbols of the leaves. -/
def treeSyms (t : Tree) : List Sym := (leaves t).map Prod.fst

/-- Every node of a tree. -/
def subtrees : Tree → List Tree
  | .leaf sym w => [.leaf sym w]
  | .node a b w => .node a b w :: (subtrees a ++ subtrees b)

/-- The tree with every weight 0 (43_header R145). -/
def unweighted : Tree → Tree
  | .leaf sym _ => .leaf sym 0
  | .node a b _ => .node (unweighted a) (unweighted b) 0

/-- Every internal node's weight is the sum of its children's (R12). -/
def weightsAdd : Tree → Prop
  | .leaf _ _ => True
  | .node a b w => w = treeWeight a + treeWeight b ∧ weightsAdd a ∧ weightsAdd b

/-- The weighted sum of leaf depths (42_tree_build R127), for a tree whose root has depth `d`. -/
def depthCost : Nat → Tree → Nat
  | d, .leaf _ w => w * d
  | d, .node a b _ => depthCost (d + 1) a + depthCost (d + 1) b

/-- The sum of the weights of the internal nodes (R127). -/
def internalWeight : Tree → Nat
  | .leaf _ _ => 0
  | .node a b w => w + internalWeight a + internalWeight b

/-- A tree TREE can hold: no two leaves carry the same symbol (10_state R13), and a lone leaf is the
sentinel's (42_tree_build R126, 43_header R144 (d)). -/
def treeOk (t : Tree) : Bool := decide (treeSyms t).Nodup && !loneByteLeaf t

/-! ### Payloads (30_encoding R70) -/

/-- The codes of a sequence of symbols, one after the other; `none` if one has no code. -/
def codesOf (c : List (Nat × List Bool)) : List Nat → Option (List Bool)
  | [] => some []
  | x :: l =>
    match codeRead c x, codesOf c l with
    | some p, some q => some (p ++ q)
    | _, _ => none

/-- The payload P (R70): one code per byte, then the sentinel's. -/
def payload (c : List (Nat × List Bool)) (l : List Nat) : Option (List Bool) :=
  codesOf c (l ++ [sentinel.val])

/-- What ENCODE writes for these byte values where no fetch and no put fails (44_encode P-R160): their codes, up
to the first value that has none; and, where all have one, the sentinel's if it has one. -/
def encodeBits (c : List (Nat × List Bool)) : List Nat → List Bool
  | [] => (codeRead c sentinel.val).getD []
  | x :: l =>
    match codeRead c x with
    | none => []
    | some p => p ++ encodeBits c l

/-! ### Whole operations (46_control R186) -/

/-- The commands of a straight line, one after the other. -/
def runAll : List Instr → State → Host.Outcome State Fault Refusal
  | [], s => .next s
  | i :: l, s =>
    match exec i s with
    | .next t => runAll l t
    | .fault f => .fault f
    | .refused r => .refused r

/-! ### The invariant of a run -/

/-- The reader stands in IN or at its end (10_state R15). -/
abbrev readerOk (s : State) : Prop := s.inPos ≤ 8 * s.input.length

/-- The writer (R16): the bits of WBUF below the pending ones are 0, except after an OutPut that failed
(40_bitstream R92); a closed writer holds no bits. -/
abbrev writerOk (s : State) : Prop :=
  (s.err ≠ some .ioFailure → s.wbuf <<< s.wcnt.val = 0) ∧ (s.wOpen = false → s.wcnt = 0)

/-- The tables HIST and CODE have their canonical form, and every counter fits in WEIGHT_W bits (R11). -/
abbrev tablesOk (s : State) : Prop :=
  Memory.wf s = true ∧ s.hist.all (fun e => !weightOverflows s.cfg e.2) = true

/-- TREE, CODE, DSTATE and CUR agree (R13, R14, R17; 70_reset_and_hazards R237). -/
abbrev treeStateOk (s : State) : Prop :=
  s.tree.all treeOk = true ∧
    (s.cValid = true → s.tree.map codeTable = some s.code) ∧
    (s.cValid = false → s.code = []) ∧
    (s.dstate ≠ .readingTree → s.tree.isSome = true) ∧
    (s.dstate = .walking → s.err = none → s.tree = some s.cur) ∧
    (s.dstate ≠ .readingTree → s.tree.all (fun t => (subtrees t).contains s.cur) = true)

/-- The symbols of the complete sub-trees on a traversal stack, innermost first. -/
def stackSyms : List Frame → List Sym
  | [] => []
  | .needFirst :: st => stackSyms st
  | .needSecond a :: st => treeSyms a ++ stackSyms st

/-- A header read in progress (R24 (b)): no error and no tree yet; SEEN holds the symbols of the leaves
read so far, each once. -/
abbrev headerOk (s : State) : Prop :=
  match s.hdr with
  | none => True
  | some h => s.err = none ∧ s.tree = none ∧ s.dstate = .readingTree ∧ h.seen.Nodup ∧
      (stackSyms h.stack).Perm h.seen

/-- RES.val is 0 where RES.eof is 1 (R19). -/
abbrev resOk (s : State) : Prop := s.res.eof = true → s.res.val = 0

/-- What holds at reset and is kept by every step. -/
abbrev Inv (s : State) : Prop :=
  readerOk s ∧ writerOk s ∧ tablesOk s ∧ treeStateOk s ∧ headerOk s ∧ resOk s

end Sys2Proof.Machine
end

