-- ==== Sys2Proof/Certificates/Slice0/Obligations.lean ====
section
/-!
DEFINITION. The statements for the provers. Each docstring names the rule of spec/ it formalises. The fields
`fetchFails`, `putFails`, `host`, `cp`, `nextIns`, `input`, `cfg` and `hdr` of a state are the model's own
(log 1 to 4, 7): a clause about one of them says how the model carries the inputs of a run.
-/

namespace Sys2Proof.Claims

open Sys2Proof.Machine

/-- Every piece of engine state has its value of the table of 10_state R26 (CUR has none there). -/
def AtReset (t : State) : Prop :=
  (∀ b, b < 256 → histRead t.hist b = 0) ∧ t.tree = none ∧
    (∀ x, x ≤ 256 → codeRead t.code x = none) ∧ t.cValid = false ∧ t.inPos = 0 ∧ t.out = [] ∧
    t.wbuf = 0 ∧ t.wcnt = 0 ∧ t.wOpen = true ∧ t.dstate = .readingTree ∧ t.err = none ∧
    t.res = ⟨false, 0⟩ ∧ status t = 0x0040

/-- The illegal values of the fields OP, Z, N, V, as numbers (30_encoding R64 with R61). -/
abbrev IllegalFields (op z n v : Nat) : Prop :=
  op ∉ [0x01, 0x02, 0x10, 0x11, 0x12, 0x13, 0x14, 0x20, 0x21, 0x22, 0x23, 0x24, 0x28, 0x29] ∨
    z ≠ 0 ∨
    (op ∈ [0x01, 0x02, 0x10, 0x14, 0x20, 0x21, 0x22, 0x23, 0x24, 0x28, 0x29] ∧ (n ≠ 0 ∨ v ≠ 0)) ∨
    (op = 0x11 ∧ v ≠ 0) ∨
    (op = 0x12 ∧ (n ≠ 0 ∨ v / 2 ≠ 0)) ∨
    ((op = 0x11 ∨ op = 0x13) ∧ (n = 0 ∨ 32 < n))

/-- The illegal command words: OP is bits 47:40, Z 39:38, N 37:32, V 31:0 (R60, R64). -/
abbrev IllegalWord (w : CmdWord) : Prop :=
  IllegalFields (w.toNat / 2 ^ 40) (w.toNat / 2 ^ 38 % 4) (w.toNat / 2 ^ 32 % 64) (w.toNat % 2 ^ 32)

/-- 40_bitstream R92, 60_exceptions R208: where the put of byte `m` of OUT fails, `i` stops there if it writes the
bits `l` up to that byte's last one: IoFailure, with the first `m` bytes in OUT, and in WBUF the byte refused (WCNT
= 7). If that put lies beyond the bits `l`, they are all written, and it is still to come. -/
def StopsAtThePut (i : Instr) (s : State) (l : List Bool) : Prop :=
  ∀ (m : Nat) (ds : List Bool), putFailsAt s m ds →
    (8 * (m + 1) ≤ (outBits s ++ l).length →
      ∃ t, exec i s = .next t ∧ bytesBits t.out = (outBits s ++ l).take (8 * m) ∧
        byteBits t.wbuf = ((outBits s ++ l).drop (8 * m)).take 8 ∧
        t = { s with out := t.out, wbuf := t.wbuf, wcnt := 7, putFails := ds,
                     err := some .ioFailure }) ∧
    ((outBits s ++ l).length < 8 * (m + 1) →
      ∃ t, exec i s = .next t ∧ t.err = none ∧ outBits t = outBits s ++ l ∧
        t = { s with out := t.out, wbuf := t.wbuf, wcnt := t.wcnt, putFails := t.putFails } ∧
        putFailsAt t m ds)

/-- The table of 46_control R190. -/
def Precondition : Instr → State → Prop
  | .clr, _ | .rewind, _ | .rdbit, _ | .rdbits _, _ | .freq, _ => True
  | .wrbit _, s | .wrbits _ _, s | .flush, s => s.wOpen = true
  | .build, s => s.tree = none
  | .mktab, s => s.tree ≠ none
  | .wrhdr, s => s.tree ≠ none ∧ s.wOpen = true
  | .encode, s => s.cValid = true ∧ s.wOpen = true
  | .rdhdr, s => s.tree = none ∧ s.dstate = .readingTree
  | .decode, s => s.dstate = .walking ∧ s.wOpen = true
  | .hdrLeaf _, _ | .hdrNode, _ => True

/-- The key order of 42_tree_build R122, on (w, kind, t). -/
def KeyBefore (a b : Entry) : Prop :=
  treeWeight a.tree < treeWeight b.tree ∨
    (treeWeight a.tree = treeWeight b.tree ∧
      (a.kind < b.kind ∨ (a.kind = b.kind ∧ a.order < b.order)))

/-- The loop of P-R120 on Q as an unordered collection: `Merges seq q t last` says that from Q = `q` and
SEQ = `seq` the merge steps of R123 end with the one tree `t` and SEQ = `last`. -/
inductive Merges : Nat → List Entry → Tree → Nat → Prop
  | root (seq : Nat) (e : Entry) : Merges seq [e] e.tree seq
  | merge (seq : Nat) (q : List Entry) (a b : Entry) (rest : List Entry) (t : Tree) (last : Nat) :
      q.Perm (a :: b :: rest) → (∀ x ∈ b :: rest, KeyBefore a x) → (∀ x ∈ rest, KeyBefore b x) →
      Merges (seq + 1)
        (⟨1, seq, .node a.tree b.tree (treeWeight a.tree + treeWeight b.tree)⟩ :: rest) t last →
      Merges seq q t last

/-- Q as BUILD starts with it (R121), in any order: the sentinel's leaf with weight 1 and one leaf per byte
value counted. -/
def StartsAs (h : List (Nat × Nat)) (q : List Entry) : Prop :=
  q.Nodup ∧ ∀ e, e ∈ q ↔ e = ⟨0, 256, .leaf 256 1⟩ ∨
    ∃ x : Sym, x.val < 256 ∧ 1 ≤ histRead h x.val ∧ e = ⟨0, x.val, .leaf x (histRead h x.val)⟩

/-- The counters are within WEIGHT_W for `n` more bytes of each value. -/
def CountsFit (s : State) (groups : List Nat) : Prop :=
  ∀ b, b < 256 → weightOverflows s.cfg (histRead s.hist b + groups.count b) = false

/-- `S` is the IN that the next CLR attaches: the first of the INs to come (46_control R187); or, where the
host has none to attach, the IN attached before, which stays (the model's choice, log 16). -/
def AttachedByClr (s : State) (S : List Byte) : Prop :=
  (∃ rest, s.nextIns = S :: rest) ∨ (s.nextIns = [] ∧ s.input = S)

end Sys2Proof.Claims

open Sys2Proof Sys2Proof.Machine Sys2Proof.Claims

/-! ### Reset, CLR, the gate, errors -/

/-- 10_state R26: the machine's reset state, the state after a reset event and the state after CLR (accepted
with or without an error) have every piece of state at the value of the table. -/
def Obligations.ResetAndClrLeaveTheTable : Prop :=
  AtReset State.reset ∧
    (∀ s : State, s.hdr = none → ∃ t, exec .clr s = .next t ∧ AtReset t) ∧
    (∀ (s : State) (rest : List HostAction), s.hdr = none → s.host = .reset :: rest →
      ∃ t, step s = .next t ∧ AtReset t)

/-- 46_control section 2 (R187): with CLR the host attaches the next operation's IN. Model's choice (log 2,
3, 16): the INs to come are a list in State, the last IN stays attached when the list is empty, and the
environment's draws, the host's commands and WEIGHT_W are carried on. -/
def Obligations.ClrAttachesTheNextInput : Prop :=
  ∀ s : State, s.hdr = none → ∃ t, exec .clr s = .next t ∧
    (s.nextIns = [] → t.input = s.input ∧ t.nextIns = []) ∧
    (∀ i rest, s.nextIns = i :: rest → t.input = i ∧ t.nextIns = rest) ∧
    t.hdr = none ∧ t.cfg = s.cfg ∧ t.fetchFails = s.fetchFails ∧ t.putFails = s.putFails ∧
    t.host = s.host ∧ t.cp = s.cp

/-- 46_control R191: while ERR is not 0 every command except CLR does nothing. -/
def Obligations.ErrorGateStopsEveryCommand : Prop :=
  (∀ (i : Instr) (s : State), i.isCommand = true → i ≠ .clr → s.hdr = none → s.err ≠ none →
    exec i s = .next s) ∧
  (∀ (w : CmdWord) (e : DecodeError) (s : State) (rest : List HostAction), decode w = .error e →
    s.hdr = none → s.err ≠ none → s.host = .issue w :: rest →
    step s = .next { s with host := rest, cp := s.cp + 1 })

/-- 60_exceptions R211: once nonzero, ERR is changed only by a reset event and by CLR. -/
def Obligations.FirstErrorIsKept : Prop :=
  ∀ (s t : State) (k : ErrKind), s.hdr = none → s.err = some k → step s = .next t →
    t.err = some k ∨ s.host.head? = some .reset ∨
      ∃ w, s.host.head? = some (.issue w) ∧ decode w = .ok .clr

/-- 30_encoding R64: exactly the illegal words are rejected, and from a state free of error such a word
raises IllegalCommand and changes nothing else (the host's list moves on, log 1). -/
def Obligations.IllegalWordsRaiseIllegalCommand : Prop :=
  ∀ w : CmdWord, ((∃ e, decode w = .error e) ↔ IllegalWord w) ∧
    (IllegalWord w → ∀ (s : State) (rest : List HostAction), idle s → s.host = .issue w :: rest →
      step s = .next { s with host := rest, cp := s.cp + 1, err := some .illegalCommand })

/-- 46_control R190: a legal command is refused with IllegalCommand, changing nothing else, when its
precondition does not hold; when it holds, the command does not raise IllegalCommand; CLR is accepted even
when ERR is not 0. -/
def Obligations.PreconditionsRefuse : Prop :=
  (∀ (i : Instr) (s : State), i.isCommand = true → i.wf = true → idle s → ¬ Precondition i s →
    exec i s = .next { s with err := some .illegalCommand }) ∧
  (∀ (i : Instr) (s t : State), i.isCommand = true → i.wf = true → Inv s → idle s →
    Precondition i s → exec i s = .next t → t.err ≠ some .illegalCommand) ∧
  (∀ s : State, s.hdr = none → ∃ t, exec .clr s = .next t ∧ t.err = none)

/-- 60_exceptions R207: `raise K` sets ERR to K and ends the command; nothing else changes. (That the
command's end leaves no header read in progress is 10_state R24, log 7.) -/
def Obligations.RaiseSetsErrAndEnds : Prop :=
  ∀ (k : ErrKind) (s : State),
    finish (.raised k s) = .next { s with err := some k, hdr := none } ∧
      ((status (raise k s)).extractLsb' 0 4).toNat = errCode (some k)

/-- 10_state R20: the fields of STATUS, which every completion record carries. -/
def Obligations.StatusLayout : Prop :=
  (∀ s : State,
    (status s).extractLsb' 0 4 = BitVec.ofNat 4 (match s.err with
      | none => 0 | some .ioFailure => 1 | some .malformedHeader => 2 | some .truncatedPayload => 3
      | some .unencodableSymbol => 4 | some .illegalCommand => 5 | some .counterOverflow => 6) ∧
    (status s).getLsbD 4 = s.tree.isSome ∧
    (status s).getLsbD 5 = s.cValid ∧
    (status s).getLsbD 6 = s.wOpen ∧
    (status s).extractLsb' 7 2 = (match s.dstate with | .readingTree => 0 | .walking => 1 | .done => 2) ∧
    ((status s).extractLsb' 9 3).toNat = s.wcnt.val ∧
    (status s).extractLsb' 12 4 = 0 ∧
    completion s = (status s, s.res)) ∧
  status State.reset = 0x0040

/-- A step runs the decoded instruction (46_control R185, R186; log 1, 6, 7, 10): a legal command word is
run by `exec` on the state whose host has moved on by one command, whatever comes of it; an illegal word
goes through the gate; a reset event clears; with nothing to issue the step is refused; in the middle of a
header the token at IN_POS is run on the state whose reader has moved past its bits, whatever ERR, TREE and
DSTATE hold there (log 21, 22). -/
def Obligations.StepRunsTheDecodedInstruction : Prop :=
  (∀ (s : State) (w : CmdWord) (i : Instr) (rest : List HostAction), s.hdr = none →
    s.host = .issue w :: rest → decode w = .ok i →
    step s = exec i { s with host := rest, cp := s.cp + 1 }) ∧
  (∀ (s : State) (w : CmdWord) (e : DecodeError) (rest : List HostAction), s.hdr = none →
    s.host = .issue w :: rest → decode w = .error e →
    step s = illegalWord { s with host := rest, cp := s.cp + 1 }) ∧
  (∀ (s : State) (rest : List HostAction), s.hdr = none → s.host = .reset :: rest →
    step s = .next (clear { s with host := rest })) ∧
  (∀ s : State, s.hdr = none → s.host = [] → step s = .refused .noCommand) ∧
  (∀ (s : State) (h : HdrRead) (bits : List Bool) (i : Instr) (rest : List Bool), s.hdr = some h →
    fetchesNeverFail s → inRest s = bits → decodeBits bits = .ok (i, rest) →
    ∃ d, step s = exec i
      { s with inPos := s.inPos + (bits.length - rest.length), fetchFails := s.fetchFails.drop d })

/-- 93_implementation_defined U20 and 46_control R185: a command while a header read is in progress is
refused by name, whatever it is (log 8); a header token outside a header read is refused by name (log 9). -/
def Obligations.CommandsWaitForTheHeaderRead : Prop :=
  (∀ (i : Instr) (s : State) (h : HdrRead), i.isCommand = true → s.hdr = some h →
    exec i s = .refused .commandWhileBusy) ∧
  (∀ (i : Instr) (s : State), i.isCommand = false → s.hdr = none →
    exec i s = .refused .tokenOutsideHeader)

/-! ### Encodings -/

/-- 30_encoding R75: word = OP x 2^40 + N x 2^32 + V, with the 14 examples. -/
def Obligations.CommandWordExamples : Prop :=
  (∀ op n v : Nat, op < 256 → n < 64 → v < 2 ^ 32 →
    (packWord op n v).toNat = op * 2 ^ 40 + n * 2 ^ 32 + v) ∧
  ([(.clr, 0x010000000000), (.rewind, 0x020000000000), (.rdbit, 0x100000000000),
    (.rdbits 9, 0x110900000000), (.wrbit true, 0x120000000001), (.wrbits 9 256, 0x130900000100),
    (.flush, 0x140000000000), (.freq, 0x200000000000), (.build, 0x210000000000),
    (.mktab, 0x220000000000), (.wrhdr, 0x230000000000), (.encode, 0x240000000000),
    (.rdhdr, 0x280000000000), (.decode, 0x290000000000)] : List (Instr × CmdWord)).all
      (fun p => decide (encode p.1 = .word p.2) && decide ((decode p.2).toOption = some p.1)) = true

/-- 30_encoding R65, R66: the four leaf tokens given there and the internal-node token, read and written
(the tokens' own bits, whatever follows them). -/
def Obligations.HeaderTokenExamples : Prop :=
  ∀ rest : List Bool,
    ([(32, [false,false,false,false,true,false,false,false,false,false]),
      (65, [false,false,false,true,false,false,false,false,false,true]),
      (256, [false,true,false,false,false,false,false,false,false,false]),
      (255, [false,false,true,true,true,true,true,true,true,true])] : List (BitVec 9 × List Bool)).all
        (fun p => decide (encode (.hdrLeaf p.1) = .token p.2)) = true ∧
    decodeBits ([false,true,false,false,false,false,false,false,false,false] ++ rest) =
      .ok (.hdrLeaf 256, rest) ∧
    encode .hdrNode = .token [true] ∧ decodeBits (true :: rest) = .ok (.hdrNode, rest)

/-- 30_encoding sections 1 and 2: decoding an encoded well-formed instruction gives it back, with every
operand at every value; a token is read back from in front of any bits. -/
def Obligations.DecodeOfEncodeIsTheInstruction : Prop :=
  ∀ i : Instr, i.wf = true → decodeWire (encode i) = .ok i ∧
    ∀ bits rest, encode i = .token bits → decodeBits (bits ++ rest) = .ok (i, rest)

/-- 30_encoding R61, R64: a word that is not rejected has one reading, a well-formed command whose word it
is: no bit of it is dropped. -/
def Obligations.EncodeOfDecodeIsTheWord : Prop :=
  ∀ (w : CmdWord) (i : Instr), decode w = .ok i →
    i.isCommand = true ∧ i.wf = true ∧ encode i = .word w

/-! ### The bit reader -/

/-- 40_bitstream R99: REWIND. -/
def Obligations.RewindSetsInPosToZero : Prop :=
  decode 0x020000000000 = .ok .rewind ∧
    ∀ s : State, idle s → exec .rewind s = .next { s with inPos := 0 }

/-- 40_bitstream R94: RDBIT returns bit 7 - (IN_POS mod 8) of IN[IN_POS div 8] and advances; at the end of IN
it returns EOF and may be repeated; a failed fetch is IoFailure with RES unchanged. -/
def Obligations.RdbitReadsTheNextBit : Prop :=
  decode 0x100000000000 = .ok .rdbit ∧
  ∀ s : State, idle s →
    (s.inPos % 8 = 0 → s.fetchFails.head? = some true →
      exec .rdbit s = .next { s with fetchFails := s.fetchFails.tail, err := some .ioFailure }) ∧
    (¬ (s.inPos % 8 = 0 ∧ s.fetchFails.head? = some true) →
      (∀ b : Byte, s.input[s.inPos / 8]? = some b →
        exec .rdbit s = .next { s with
          inPos := s.inPos + 1
          res := ⟨false, if b.getLsbD (7 - s.inPos % 8) then 1 else 0⟩
          fetchFails := if s.inPos % 8 = 0 then s.fetchFails.tail else s.fetchFails }) ∧
      (s.inPos = 8 * s.input.length →
        exec .rdbit s = .next { s with res := ⟨true, 0⟩, fetchFails := s.fetchFails.tail }))

/-- 40_bitstream R95: RDBITS N. -/
def Obligations.RdbitsReadsTheNextField : Prop :=
  decode 0x110900000000 = .ok (.rdbits 9) ∧
  ∀ (n : BitVec 6) (s : State), idle s →
    ((n.toNat = 0 ∨ 32 < n.toNat) →
      exec (.rdbits n) s = .next { s with err := some .illegalCommand }) ∧
    (1 ≤ n.toNat → n.toNat ≤ 32 →
      (fetchesNeverFail s → n.toNat ≤ (inRest s).length →
        ∃ d, exec (.rdbits n) s = .next { s with
          inPos := s.inPos + n.toNat
          res := ⟨false, BitVec.ofNat 32 (bitsToNat ((inRest s).take n.toNat))⟩
          fetchFails := s.fetchFails.drop d }) ∧
      (fetchesNeverFail s → readerOk s → (inRest s).length < n.toNat →
        ∃ d, exec (.rdbits n) s = .next { s with
          inPos := 8 * s.input.length, res := ⟨true, 0⟩, fetchFails := s.fetchFails.drop d }) ∧
      (∀ (p : Nat) (ds : List Bool), fetchFailsAt s p ds → p < s.inPos + n.toNat →
        exec (.rdbits n) s = .next { s with
          inPos := p, fetchFails := ds, err := some .ioFailure }) ∧
      (∃ t, exec (.rdbits n) s = .next t ∧
        t = { s with inPos := t.inPos, res := t.res, fetchFails := t.fetchFails, err := t.err } ∧
        (t.err = none ∨ (t.err = some .ioFailure ∧ t.res = s.res ∧ s.inPos ≤ t.inPos ∧
          t.inPos < s.inPos + n.toNat ∧ t.inPos % 8 = 0))))

/-- 20_memory R53: any split of a field into smaller reads or writes moves the same bits. -/
def Obligations.SplitFieldsMoveTheSameBits : Prop :=
  (∀ (m n : Nat) (s : State), readBits (m + n) s =
    (readBits m s).andThen fun r s =>
      match r with
      | none => .ok none s
      | some v => (readBits n s).andThen fun r' s => .ok (r'.map fun v' => v * 2 ^ n + v') s) ∧
  (∀ (m n v : Nat) (s : State), writeBits (m + n) v s =
    (writeBits m (v / 2 ^ n) s).andThen fun _ s => writeBits n v s)

/-- 20_memory section 2 (R43) and 45_decode R176 in part: a byte-aligned 8-bit read returns exactly the next
byte of IN, and a byte-aligned 8-bit write puts exactly the byte. -/
def Obligations.AlignedBytesPassUnchanged : Prop :=
  (∀ (s : State) (i : Nat) (b : Byte), idle s → fetchesNeverFail s → s.inPos = 8 * i →
    s.input[i]? = some b → ∃ d, exec (.rdbits 8) s = .next { s with
      inPos := 8 * (i + 1), res := ⟨false, b.setWidth 32⟩, fetchFails := s.fetchFails.drop d }) ∧
  (∀ (s : State) (v : BitVec 32), idle s → putsNeverFail s → s.wOpen = true → s.wcnt = 0 →
    s.wbuf = 0 → ∃ d, exec (.wrbits 8 v) s = .next { s with
      out := s.out ++ [v.setWidth 8], putFails := s.putFails.drop d })

/-- 40_bitstream R101: the reader and the writer share no state. (`fetchFails` and `putFails` are the draws
of the environment's two primitives, log 3.) -/
def Obligations.ReaderAndWriterShareNoState : Prop :=
  (∀ (s t : State) (i : Instr), (i = .rdbit ∨ ∃ n, i = .rdbits n) → idle s → exec i s = .next t →
    t = { s with inPos := t.inPos, res := t.res, fetchFails := t.fetchFails, err := t.err }) ∧
  (∀ (n : Nat) (s t : State) (r : Option Nat),
    (readBits n s = .ok r t ∨ ∃ k, readBits n s = .raised k t) →
    t = { s with inPos := t.inPos, fetchFails := t.fetchFails }) ∧
  (∀ (l : List Bool) (s t : State),
    (writeAll l s = .ok () t ∨ ∃ k, writeAll l s = .raised k t) →
    t = { s with out := t.out, wbuf := t.wbuf, wcnt := t.wcnt, putFails := t.putFails }) ∧
  (∀ s t : State, (flushWriter s = .ok () t ∨ ∃ k, flushWriter s = .raised k t) →
    t = { s with out := t.out, wbuf := t.wbuf, wcnt := t.wcnt, wOpen := t.wOpen,
                 putFails := t.putFails })

/-! ### The bit writer -/

/-- 40_bitstream R96: WRBIT b. -/
def Obligations.WrbitAppendsOneBit : Prop :=
  decode 0x120000000001 = .ok (.wrbit true) ∧
  ∀ (b : Bool) (s : State), idle s →
    (s.wOpen = false → exec (.wrbit b) s = .next { s with err := some .illegalCommand }) ∧
    (s.wOpen = true → writerOk s →
      ((s.wcnt ≠ 7 ∨ s.putFails.head? ≠ some true) →
        ∃ t, exec (.wrbit b) s = .next t ∧ outBits t = outBits s ++ [b] ∧
          t = { s with out := t.out, wbuf := t.wbuf, wcnt := t.wcnt, putFails := t.putFails } ∧
          (s.wcnt ≠ 7 → t.out = s.out ∧ t.wcnt.val = s.wcnt.val + 1 ∧ t.putFails = s.putFails) ∧
          (s.wcnt = 7 → t.out.length = s.out.length + 1 ∧ t.wcnt = 0 ∧ t.wbuf = 0)) ∧
      (s.wcnt = 7 → s.putFails.head? = some true →
        ∃ t, exec (.wrbit b) s = .next t ∧ t.err = some .ioFailure ∧ t.out = s.out ∧
          byteBits t.wbuf = pending s ++ [b] ∧
          t = { s with wbuf := t.wbuf, putFails := t.putFails, err := t.err }))

/-- 40_bitstream R97: WRBITS N, V appends bits N - 1 down to 0 of V. Where a put among them is refused, it stops
there (R92, R93, 60_exceptions R201, R208). -/
def Obligations.WrbitsAppendsTheLowBits : Prop :=
  decode 0x130900000100 = .ok (.wrbits 9 256) ∧
  ∀ (n : BitVec 6) (v : BitVec 32) (s : State), idle s →
    ((n.toNat = 0 ∨ 32 < n.toNat ∨ s.wOpen = false) →
      exec (.wrbits n v) s = .next { s with err := some .illegalCommand }) ∧
    (1 ≤ n.toNat → n.toNat ≤ 32 → s.wOpen = true → writerOk s →
      (putsNeverFail s → ∃ t, exec (.wrbits n v) s = .next t ∧ t.err = none ∧
        outBits t = outBits s ++
          (List.range n.toNat).map (fun j => v.getLsbD (n.toNat - 1 - j)) ∧
        t = { s with out := t.out, wbuf := t.wbuf, wcnt := t.wcnt, putFails := t.putFails }) ∧
      (∃ t, exec (.wrbits n v) s = .next t ∧
        t = { s with out := t.out, wbuf := t.wbuf, wcnt := t.wcnt, putFails := t.putFails,
                     err := t.err } ∧
        (t.err = none ∨ (t.err = some .ioFailure ∧ ∃ k, k < n.toNat ∧
          bytesBits t.out ++ byteBits t.wbuf = outBits s ++
            (List.range (k + 1)).map (fun j => v.getLsbD (n.toNat - 1 - j))))) ∧
      StopsAtThePut (.wrbits n v) s ((List.range n.toNat).map (fun j => v.getLsbD (n.toNat - 1 - j))))

/-- 30_encoding section 1 (R63): WRBITS ignores the bits of V at and above position N. -/
def Obligations.WrbitsIgnoresTheHighBits : Prop :=
  ∀ (n : BitVec 6) (v v' : BitVec 32) (s : State),
    (∀ j, j < n.toNat → v.getLsbD j = v'.getLsbD j) →
    exec (.wrbits n v) s = exec (.wrbits n v') s

/-- 40_bitstream R98: FLUSH. -/
def Obligations.FlushPadsAndCloses : Prop :=
  decode 0x140000000000 = .ok .flush ∧
  ∀ s : State, idle s →
    (s.wOpen = false → exec .flush s = .next { s with err := some .illegalCommand }) ∧
    (s.wOpen = true →
      (s.wcnt = 0 → exec .flush s = .next { s with wOpen := false }) ∧
      (s.wcnt ≠ 0 → s.putFails.head? ≠ some true → writerOk s →
        exec .flush s = .next { s with
          out := s.out ++ [s.wbuf], wbuf := 0, wcnt := 0, wOpen := false,
          putFails := s.putFails.tail } ∧
        bytesBits (s.out ++ [s.wbuf]) = outBits s ++ List.replicate (8 - s.wcnt.val) false) ∧
      (s.wcnt ≠ 0 → s.putFails.head? = some true →
        exec .flush s = .next { s with putFails := s.putFails.tail, err := some .ioFailure }))

/-! ### FREQ -/

/-- 41_frequency R110 (with R111): FREQ adds to each counter the number of 8-bit groups of that value from
IN_POS to the end of IN, and leaves everything else but the reader; where a fetch fails it ends with IoFailure,
the groups read before it counted. (CounterOverflow is R114's, in its own statement.) -/
def Obligations.FreqCountsEveryRemainingByte : Prop :=
  decode 0x200000000000 = .ok .freq ∧
  (∀ (s : State) (p : Nat) (ds : List Bool), idle s → fetchFailsAt s p ds →
    CountsFit s (byteGroups ((inRest s).take (p - s.inPos))) →
    ∃ t, exec .freq s = .next t ∧
      (∀ b, b < 256 → histRead t.hist b =
        histRead s.hist b + (byteGroups ((inRest s).take (p - s.inPos))).count b) ∧
      t = { s with hist := t.hist, inPos := p, fetchFails := ds, err := some .ioFailure }) ∧
  ∀ s : State, idle s → fetchesNeverFail s → readerOk s → CountsFit s (byteGroups (inRest s)) →
    ∃ t, exec .freq s = .next t ∧
      (∀ b, b < 256 → histRead t.hist b = histRead s.hist b + (byteGroups (inRest s)).count b) ∧
      t.inPos = 8 * s.input.length ∧
      t = { s with hist := t.hist, inPos := t.inPos, fetchFails := t.fetchFails }

/-- 41_frequency R113: after CLR or reset and one FREQ that completed with ERR = 0 the counts are those of
IN, sum to its length, and every key has a count of at least 1. -/
def Obligations.FrequencyCorrectness : Prop :=
  ∀ s t : State, idle s → s.hist = [] → s.inPos = 0 → exec .freq s = .next t → t.err = none →
    ((List.range 256).map (histRead t.hist)).sum = s.input.length ∧
    (∀ b : Byte, histRead t.hist b.toNat = s.input.count b) ∧
    (∀ e ∈ t.hist, 1 ≤ e.2)

/-- 41_frequency R114: when a byte `x` comes whose counter is at 2^WEIGHT_W - 1, the bytes `l` before it having
been counted, FREQ stops with CounterOverflow: the byte is consumed, its counter unchanged; an engine with
unbounded WEIGHT_W never raises it. -/
def Obligations.CounterOverflowAtTheMaximum : Prop :=
  (∀ (s : State) (w : Nat) (l l' : List Nat) (x : Nat), idle s → fetchesNeverFail s →
    s.cfg.weightW = some w → byteGroups (inRest s) = l ++ x :: l' → CountsFit s l →
    histRead s.hist x + l.count x = 2 ^ w - 1 →
    ∃ t, exec .freq s = .next t ∧ t.err = some .counterOverflow ∧
      (∀ b, b < 256 → histRead t.hist b = histRead s.hist b + l.count b) ∧
      t.inPos = s.inPos + 8 * (l.length + 1) ∧
      t = { s with hist := t.hist, inPos := t.inPos, fetchFails := t.fetchFails, err := t.err }) ∧
  (∀ s t : State, idle s → s.cfg.weightW = none → exec .freq s = .next t →
    t.err ≠ some .counterOverflow)

/-! ### BUILD and MKTAB -/

/-- 42_tree_build R121, with R120 and R124 in part: BUILD makes exactly one leaf per byte value counted and
one for the sentinel with weight 1; every internal node weighs what its children weigh together, the root
the whole; nothing else changes. -/
def Obligations.BuildMakesOneLeafPerSymbol : Prop :=
  ∀ s : State, idle s → s.tree = none → weightOverflows s.cfg (totalWeight s.hist) = false →
    ∃ t, exec .build s = .next { s with tree := some t } ∧
      (∀ (x : Sym) (w : Nat), (x, w) ∈ leaves t ↔
        (x = 256 ∧ w = 1) ∨ (x.val < 256 ∧ 1 ≤ w ∧ w = histRead s.hist x.val)) ∧
      (treeSyms t).Nodup ∧ weightsAdd t ∧
      treeWeight t = 1 + ((List.range 256).map (histRead s.hist)).sum

/-- 42_tree_build R123 (with the order of R122): BUILD's tree is the one the merge steps make, whatever the
order Q is listed in, the first extracted being the first child; with k leaves there are k - 1 merges; and
the steps determine the tree. -/
def Obligations.BuildMergesTheTwoLeast : Prop :=
  (∀ (s t : State) (tr : Tree) (q : List Entry), idle s → s.tree = none → exec .build s = .next t →
    t.tree = some tr → StartsAs s.hist q → Merges 0 q tr (q.length - 1)) ∧
  (∀ (h : List (Nat × Nat)) (q : List Entry) (t t' : Tree) (n n' : Nat), StartsAs h q →
    Merges 0 q t n → Merges 0 q t' n' → t = t' ∧ n = n') ∧
  (∀ a b : Entry, KeyBefore a b → treeWeight a.tree ≤ treeWeight b.tree)

/-- 42_tree_build R130: a total that does not fit in WEIGHT_W bits is CounterOverflow and writes nothing;
where it fits, every node's weight fits. -/
def Obligations.BuildChecksTheTotalWeight : Prop :=
  ∀ (s : State) (w : Nat), idle s → s.tree = none → s.cfg.weightW = some w →
    (2 ^ w - 1 < 1 + ((List.range 256).map (histRead s.hist)).sum →
      exec .build s = .next { s with err := some .counterOverflow }) ∧
    (1 + ((List.range 256).map (histRead s.hist)).sum ≤ 2 ^ w - 1 →
      ∃ t, exec .build s = .next { s with tree := some t } ∧
        ∀ u ∈ subtrees t, treeWeight u ≤ 2 ^ w - 1)

/-- 42_tree_build R125: one distinct input symbol gives a two-leaf tree with 1-bit codes. -/
def Obligations.OneSymbolGivesTwoLeaves : Prop :=
  ∀ (s : State) (x : Sym) (c : Nat), idle s → s.tree = none → x.val < 256 → 1 ≤ c →
    weightOverflows s.cfg (c + 1) = false →
    (∀ b, b < 256 → histRead s.hist b = if b = x.val then c else 0) →
    ∃ t, exec .build s = .next { s with tree := some t } ∧
      (c = 1 → t = .node (.leaf x 1) (.leaf 256 1) 2 ∧
        codeRead (codeTable t) x.val = some [false] ∧ codeRead (codeTable t) 256 = some [true]) ∧
      (1 < c → t = .node (.leaf 256 1) (.leaf x c) (c + 1) ∧
        codeRead (codeTable t) x.val = some [true] ∧ codeRead (codeTable t) 256 = some [false])

/-- 42_tree_build R127: the built tree minimizes the weighted sum of leaf depths over all trees with its
leaves; that sum is the sum of the weights of its internal nodes. -/
def Obligations.BuiltTreeIsOptimal : Prop :=
  ∀ (s t : State) (tr : Tree), idle s → s.tree = none → exec .build s = .next t → t.tree = some tr →
    (∀ u : Tree, (leaves u).Perm (leaves tr) → depthCost 0 tr ≤ depthCost 0 u) ∧
    depthCost 0 tr = internalWeight tr

/-- 42_tree_build R129: BUILD is a function of HIST alone: equal counts give the same tree, hence the same
header bits and the same codes. -/
def Obligations.BuildIsDeterminedByTheCounts : Prop :=
  ∀ (s s' t t' : State) (tr tr' : Tree), idle s → idle s' → s.tree = none → s'.tree = none →
    (∀ b, b < 256 → histRead s.hist b = histRead s'.hist b) →
    exec .build s = .next t → exec .build s' = .next t' → t.tree = some tr → t'.tree = some tr' →
    tr = tr' ∧ treeBits tr = treeBits tr' ∧ codeTable tr = codeTable tr'

/-- 42_tree_build R131 and R132: MKTAB makes each symbol's code the path to its leaf, `0` for a first child
and `1` for a second, and every other entry `none`; without a tree it is refused. -/
def Obligations.MktabRecordsThePaths : Prop :=
  decode 0x220000000000 = .ok .mktab ∧
  ∀ s : State, idle s →
    (s.tree = none → exec .mktab s = .next { s with err := some .illegalCommand }) ∧
    (∀ tr, s.tree = some tr → (treeSyms tr).Nodup →
      ∃ c, exec .mktab s = .next { s with code := c, cValid := true } ∧
        ∀ (x : Sym) (p : List Bool),
          codeRead c x.val = some p ↔ ∃ w, follow tr p = some (.leaf x w))

/-- 42_tree_build R128: no leaf's bit path is a prefix of another's, in every tree value; and so for the
codes of two distinct symbols. -/
def Obligations.CodesArePrefixFree : Prop :=
  (∀ (t : Tree) (p q : List Bool) (x y : Sym) (v w : Nat), follow t p = some (.leaf x v) →
    follow t (p ++ q) = some (.leaf y w) → q = [] ∧ x = y) ∧
  (∀ (t : Tree) (x y : Nat) (p q : List Bool), (treeSyms t).Nodup → x ≠ y →
    codeRead (codeTable t) x = some p → codeRead (codeTable t) y = some q → ¬ p <+: q)

/-- 42_tree_build section 3 (R134): a tree of k leaves with distinct symbols has k ≤ 257, 2k - 1 nodes,
depths and code lengths at most k - 1, and the sum over the leaves of 2^(-depth) is 1 (stated times 2^256). -/
def Obligations.TreeBounds : Prop :=
  ∀ t : Tree, (treeSyms t).Nodup →
    (leaves t).length ≤ 257 ∧ (subtrees t).length = 2 * (leaves t).length - 1 ∧
    (∀ p u, follow t p = some u → p.length ≤ (leaves t).length - 1) ∧
    (∀ x p, codeRead (codeTable t) x = some p → p.length ≤ 256) ∧
    (((List.range 257).map fun x =>
      match codeRead (codeTable t) x with | none => 0 | some p => 2 ^ (256 - p.length)).sum = 2 ^ 256)

/-! ### The tree header -/

/-- 43_header R140: WRHDR appends Ser(TREE). Where a put among its bits is refused, it stops there, and the header
bits already put stay in OUT (R140's errors, 60_exceptions R208). -/
def Obligations.WrhdrAppendsTheHeader : Prop :=
  decode 0x230000000000 = .ok .wrhdr ∧
  ∀ s : State, idle s →
    ((s.tree = none ∨ s.wOpen = false) →
      exec .wrhdr s = .next { s with err := some .illegalCommand }) ∧
    (∀ tr, s.tree = some tr → s.wOpen = true → writerOk s →
      (putsNeverFail s → ∃ t, exec .wrhdr s = .next t ∧ t.err = none ∧
        outBits t = outBits s ++ treeBits tr ∧
        t = { s with out := t.out, wbuf := t.wbuf, wcnt := t.wcnt, putFails := t.putFails }) ∧
      (∃ t, exec .wrhdr s = .next t ∧
        t = { s with out := t.out, wbuf := t.wbuf, wcnt := t.wcnt, putFails := t.putFails,
                     err := t.err } ∧
        s.out <+: t.out ∧
        (t.err = none ∨ (t.err = some .ioFailure ∧ bytesBits t.out <+: outBits s ++ treeBits tr))) ∧
      StopsAtThePut .wrhdr s (treeBits tr))

/-- 30_encoding R68: the header of a tree with k leaves has 11k - 1 bits, and it is self-delimiting: a bit
sequence starts with the header of at most one tree shape. -/
def Obligations.HeaderIsSelfDelimiting : Prop :=
  (∀ (x : Sym) (w : Nat), treeBits (.leaf x w) = false :: natToBits 9 x.val) ∧
  (∀ (a b : Tree) (w : Nat), treeBits (.node a b w) = true :: (treeBits a ++ treeBits b)) ∧
  (∀ t : Tree, (treeBits t).length = 11 * (leaves t).length - 1) ∧
  (∀ (t u : Tree) (x y : List Bool), treeBits t ++ x = treeBits u ++ y →
    unweighted t = unweighted u ∧ x = y)

/-- 43_header R146: reading back the serialized form of a tree gives the tree with every weight 0, which has
the same codes; the reader stands just after the header; and a tree BUILD makes is always such a tree. -/
def Obligations.HeaderReadBackIsTheTree : Prop :=
  (∀ (s t : State) (tr : Tree), idle s → s.tree = none → exec .build s = .next t →
    t.tree = some tr → treeOk tr = true) ∧
  ∀ (s : State) (tr : Tree) (rest : List Bool), idle s → s.tree = none → s.dstate = .readingTree →
    fetchesNeverFail s → treeOk tr = true → inRest s = treeBits tr ++ rest →
    codeTable (unweighted tr) = codeTable tr ∧
    ∃ d, exec .rdhdr s = .next { s with
      inPos := s.inPos + (treeBits tr).length, tree := some (unweighted tr), cur := unweighted tr,
      dstate := .walking, fetchFails := s.fetchFails.drop d }

/-- 43_header R143 and R145: the tree RDHDR accepts is the one whose serialization it consumed, all its
weights 0, on every environment. -/
def Obligations.RdhdrConsumesExactlyItsTree : Prop :=
  ∀ s t : State, idle s → exec .rdhdr s = .next t → t.err = none →
    ∃ tr, t.tree = some tr ∧ unweighted tr = tr ∧ treeOk tr = true ∧
      inRest s = treeBits tr ++ inRest t ∧ t.inPos = s.inPos + (treeBits tr).length

/-- 43_header section 2 (R142, R144), 60_exceptions section 2 (R209): on a failure-free input RDHDR raises
MalformedHeader exactly when no header of a tree with distinct symbols, the sentinel's where it is one leaf, stands
at IN_POS; on any environment an error changes only IN_POS and ERR (and the environment's draws). A fetch that fails
inside the header is IoFailure with IN_POS at that fetch, also where IN ends there: so where the bits before it are a
beginning, not the whole, of such a header; and wherever on a failure-free environment RDHDR goes on beyond it. Where
RDHDR ends before it, or accepts a header that ends exactly there, it ends as on a failure-free environment: the
header is read with no bit more. The last clause says so of every case: whether RDHDR fetches at `p` rests on the
bits before `p` alone, so it is told by an IN `i` that has the bytes of IN before `p` and any byte there, where
RDHDR either goes on beyond `p`, and is then IoFailure at `p` with IN and the fetch that fails (rather than
MalformedHeader, where IN ends there), or ends at or before `p`, and then ends so with IN too. -/
def Obligations.MalformedHeaderWhenNoTreeStands : Prop :=
  ∀ s : State, idle s → s.tree = none → s.dstate = .readingTree →
    (fetchesNeverFail s → ∃ t, exec .rdhdr s = .next t ∧
      (t.err = some .malformedHeader ↔
        ¬ ∃ tr rest, treeOk tr = true ∧ inRest s = treeBits tr ++ rest)) ∧
    (∀ t, exec .rdhdr s = .next t → t.err ≠ none →
      (t.err = some .malformedHeader ∨ t.err = some .ioFailure) ∧
      t = { s with inPos := t.inPos, fetchFails := t.fetchFails, err := t.err }) ∧
    (∀ (p : Nat) (ds : List Bool), fetchFailsAt s p ds →
      (∀ (tr : Tree) (x : List Bool), treeOk tr = true → x ≠ [] →
        (inRest s).take (p - s.inPos) ++ x = treeBits tr →
        exec .rdhdr s = .next { s with inPos := p, fetchFails := ds, err := some .ioFailure }) ∧
      (∀ t, exec .rdhdr { s with fetchFails := [] } = .next t →
        (p < t.inPos →
          exec .rdhdr s = .next { s with inPos := p, fetchFails := ds, err := some .ioFailure }) ∧
        (t.inPos < p ∨ (t.inPos = p ∧ t.err = none) →
          ∃ ff, exec .rdhdr s = .next { t with fetchFails := ff })) ∧
      (∀ (i : List Byte) (t : State), i.take (p / 8) = s.input.take (p / 8) → p / 8 < i.length →
        exec .rdhdr { s with input := i, fetchFails := [] } = .next t →
        (p < t.inPos →
          exec .rdhdr s = .next { s with inPos := p, fetchFails := ds, err := some .ioFailure }) ∧
        (t.inPos ≤ p → ∃ ff, exec .rdhdr s = .next { t with input := s.input, fetchFails := ff })))

/-- 30_encoding section 2 and 43_header section 2: what a leaf token does in the middle of a header (log 7):
a reserved symbol, a symbol seen before, and a lone leaf that is not the sentinel's are MalformedHeader; else
the leaf, of weight 0, becomes the first child of the node being read, or completes it. It holds also where ERR,
TREE or DSTATE is not as at the start of RDHDR, which no run reaches and the model settles (log 21, 22). -/
def Obligations.LeafTokenExtendsTheHeader : Prop :=
  ∀ (f : BitVec 9) (s : State) (h : HdrRead), s.hdr = some h →
    (256 < f.toNat →
      exec (.hdrLeaf f) s = .next { s with err := some .malformedHeader, hdr := none }) ∧
    ∀ x : Sym, x.val = f.toNat →
      (x ∈ h.seen →
        exec (.hdrLeaf f) s = .next { s with err := some .malformedHeader, hdr := none }) ∧
      (x ∉ h.seen →
        (h.stack = [] → x ≠ 256 →
          exec (.hdrLeaf f) s = .next { s with err := some .malformedHeader, hdr := none }) ∧
        (h.stack = [] → x = 256 →
          exec (.hdrLeaf f) s = .next { s with
            tree := some (.leaf x 0), cur := .leaf x 0, dstate := .walking, hdr := none }) ∧
        (∀ st, h.stack = .needFirst :: st →
          exec (.hdrLeaf f) s = .next { s with
            hdr := some ⟨.needSecond (.leaf x 0) :: st, x :: h.seen⟩ }) ∧
        (∀ a st st', h.stack = .needSecond a :: st → plug (.node a (.leaf x 0) 0) st = .inl st' →
          exec (.hdrLeaf f) s = .next { s with hdr := some ⟨st', x :: h.seen⟩ }) ∧
        (∀ a st t, h.stack = .needSecond a :: st → plug (.node a (.leaf x 0) 0) st = .inr t →
          exec (.hdrLeaf f) s = .next { s with
            tree := some t, cur := t, dstate := .walking, hdr := none }))

/-- 30_encoding R66 and 43_header section 2: an internal-node token opens a node, whose first child is read
next (log 7); also where ERR, TREE or DSTATE is not as at the start of RDHDR, which the model settles (log 21,
22). -/
def Obligations.NodeTokenOpensANode : Prop :=
  ∀ (s : State) (h : HdrRead), s.hdr = some h →
    exec .hdrNode s = .next { s with hdr := some ⟨.needFirst :: h.stack, h.seen⟩ }

/-- 43_header section 2 (P-R142): RDHDR is its tokens: running the machine token by token from the start of a
header ends as RDHDR does, on every input and environment (log 7). -/
def Obligations.RdhdrIsItsTokens : Prop :=
  ∀ s : State, idle s → s.tree = none → s.dstate = .readingTree →
    ∃ n, Host.Core.run Sys2Proof.core n { s with hdr := some ⟨[], []⟩ } = exec .rdhdr s

/-! ### ENCODE and DECODE -/

/-- 44_encode R160 (with R162's normal case): ENCODE appends the code of every byte group from IN_POS to the
end of IN and then the sentinel's code. -/
def Obligations.EncodeAppendsThePayload : Prop :=
  ∀ (s : State) (p : List Bool), idle s → s.cValid = true → s.wOpen = true → writerOk s →
    readerOk s → fetchesNeverFail s → putsNeverFail s →
    payload s.code (byteGroups (inRest s)) = some p →
    ∃ t, exec .encode s = .next t ∧ t.err = none ∧ outBits t = outBits s ++ p ∧
      t.inPos = 8 * s.input.length ∧
      t = { s with inPos := t.inPos, fetchFails := t.fetchFails, out := t.out, wbuf := t.wbuf,
                   wcnt := t.wcnt, putFails := t.putFails }

/-- 44_encode R161 and R162: a byte with no code, and a missing sentinel's code, raise UnencodableSymbol
after the codes before it have been written, and before anything is written for it. -/
def Obligations.MissingCodesAreUnencodable : Prop :=
  ∀ s : State, idle s → s.cValid = true → s.wOpen = true → writerOk s → readerOk s →
    fetchesNeverFail s → putsNeverFail s →
    (∀ (l l' : List Nat) (x : Nat) (p : List Bool), byteGroups (inRest s) = l ++ x :: l' →
      codesOf s.code l = some p → codeRead s.code x = none →
      ∃ t, exec .encode s = .next t ∧ t.err = some .unencodableSymbol ∧
        outBits t = outBits s ++ p ∧ t.inPos = s.inPos + 8 * (l.length + 1) ∧
        t = { s with inPos := t.inPos, fetchFails := t.fetchFails, out := t.out, wbuf := t.wbuf,
                     wcnt := t.wcnt, putFails := t.putFails, err := t.err }) ∧
    (∀ p : List Bool, codesOf s.code (byteGroups (inRest s)) = some p →
      codeRead s.code 256 = none →
      ∃ t, exec .encode s = .next t ∧ t.err = some .unencodableSymbol ∧
        outBits t = outBits s ++ p ∧ t.inPos = 8 * s.input.length ∧
        t = { s with inPos := t.inPos, fetchFails := t.fetchFails, out := t.out, wbuf := t.wbuf,
                     wcnt := t.wcnt, putFails := t.putFails, err := t.err })

/-- 45_decode R172 and R173: DECODE of a payload writes the bytes whose codes it holds, stops at the
sentinel's code in Done with the reader just after it, and changes nothing but the streams, CUR and DSTATE. -/
def Obligations.DecodeOfAPayloadGivesTheBytes : Prop :=
  ∀ (s : State) (tr : Tree) (l : List Byte) (p rest : List Bool), idle s → s.dstate = .walking →
    s.wOpen = true → s.tree = some tr → s.cur = tr → treeOk tr = true → writerOk s →
    fetchesNeverFail s → putsNeverFail s → payload (codeTable tr) (l.map BitVec.toNat) = some p →
    inRest s = p ++ rest →
    ∃ t, exec .decode s = .next t ∧ t.err = none ∧ t.dstate = .done ∧
      outBits t = outBits s ++ bytesBits l ∧ t.inPos = s.inPos + p.length ∧
      t = { s with inPos := t.inPos, fetchFails := t.fetchFails, out := t.out, wbuf := t.wbuf,
                   wcnt := t.wcnt, putFails := t.putFails, cur := t.cur, dstate := t.dstate }

/-- 45_decode R174: input that ends at an internal node, the root or deeper, is TruncatedPayload, with the
bytes of the complete codes written, DSTATE still Walking and CUR where the walk stood; with a tree that has no
sentinel's leaf it always ends so, every bit of the input consumed. -/
def Obligations.TruncatedPayloadAtAnInternalNode : Prop :=
  (∀ (s : State) (tr : Tree), Inv s → idle s → s.dstate = .walking → s.wOpen = true →
    s.tree = some tr → 256 ∉ treeSyms tr → fetchesNeverFail s → putsNeverFail s →
    ∃ t, exec .decode s = .next t ∧ t.err = some .truncatedPayload ∧ t.dstate = .walking ∧
      t.inPos = 8 * s.input.length) ∧
  ∀ (s : State) (tr a b : Tree) (w : Nat) (l : List Byte) (p q : List Bool), idle s →
    s.dstate = .walking → s.wOpen = true → s.tree = some tr → s.cur = tr → treeOk tr = true →
    writerOk s → fetchesNeverFail s → putsNeverFail s →
    codesOf (codeTable tr) (l.map BitVec.toNat) = some p → follow tr q = some (.node a b w) →
    inRest s = p ++ q →
    ∃ t, exec .decode s = .next t ∧ t.err = some .truncatedPayload ∧ t.dstate = .walking ∧
      t.cur = .node a b w ∧ outBits t = outBits s ++ bytesBits l ∧
      t.inPos = s.inPos + p.length + q.length ∧
      t = { s with inPos := t.inPos, fetchFails := t.fetchFails, out := t.out, wbuf := t.wbuf,
                   wcnt := t.wcnt, putFails := t.putFails, cur := t.cur, err := t.err }

/-- 45_decode R177: of two runs that both end at the sentinel the outputs are equal exactly when the consumed
bit strings are; and a failure-free run that does not end at the sentinel raises TruncatedPayload. -/
def Obligations.NoFlippedPayloadBitIsSilent : Prop :=
  (∀ s s' t t' : State, Inv s → Inv s' → idle s → idle s' → s.tree = s'.tree →
    exec .decode s = .next t → exec .decode s' = .next t' → t.err = none → t'.err = none →
    ((outBits t).drop (outBits s).length = (outBits t').drop (outBits s').length ↔
      (inRest s).take (t.inPos - s.inPos) = (inRest s').take (t'.inPos - s'.inPos))) ∧
  (∀ s : State, Inv s → idle s → s.dstate = .walking → s.wOpen = true → fetchesNeverFail s →
    putsNeverFail s → ∃ t, exec .decode s = .next t ∧
      ((t.err = none ∧ t.dstate = .done) ∨ t.err = some .truncatedPayload))

/-! ### The whole machine -/

/-- 70_reset_and_hazards section 4 (R245): every command ends, on every input and every environment. Model's
choice (log 7): a header token is a step of its own in the middle of a header, and it ends too; R245 does not
speak of it. -/
def Obligations.EveryCommandEnds : Prop :=
  (∀ (i : Instr) (s : State), i.isCommand = true → Inv s → s.hdr = none →
    ∃ t, exec i s = .next t) ∧
  (∀ (i : Instr) (s : State) (h : HdrRead), i.isCommand = false → Inv s → s.hdr = some h →
    ∃ t, exec i s = .next t)

/-- The invariant of a run holds at reset. -/
def Obligations.InvariantHoldsAtReset : Prop := Inv State.reset

/-- Every step keeps the invariant of a run: the reader stands within IN, WBUF is zero below its pending
bits, the tables keep their canonical form and every counter fits, no two leaves of TREE carry the same
symbol, C_VALID = 1 only with CODE the table of TREE, CUR is a node of TREE. -/
def Obligations.StepKeepsTheInvariant : Prop :=
  ∀ s t : State, Inv s → step s = .next t → Inv t

/-- Between commands every step is one whole command (10_state R24): no header read is left in progress. -/
def Obligations.NoHiddenStateSurvivesACommand : Prop :=
  ∀ (i : Instr) (s t : State), i.isCommand = true → exec i s = .next t → t.hdr = none

/-- 10_state section 3 (R13), 20_memory R50 in part: TREE is written at most once between two CLRs. -/
def Obligations.TreeIsWrittenOnce : Prop :=
  ∀ (i : Instr) (s t : State) (tr : Tree), i.isCommand = true → i ≠ .clr → s.tree = some tr →
    exec i s = .next t → t.tree = some tr

/-- 46_control R188 in part, 20_memory R46: if COMPRESS completes with ERR = 0, OUT is H ++ P ++ Z for the
tree BUILD made: header, payload, 0 to 7 zero bits. IN is what the CLR of COMPRESS attaches: a new IN (R187's
form); or, model's choice (log 16), the IN attached before where no new one is listed. -/
def Obligations.CompressedStreamLayout : Prop :=
  ∀ (s t : State) (S : List Byte), s.hdr = none → AttachedByClr s S →
    runAll compress s = .next t → t.err = none →
    ∃ tr p z, t.tree = some tr ∧ payload (codeTable tr) (S.map BitVec.toNat) = some p ∧
      z < 8 ∧ bytesBits t.out = treeBits tr ++ p ++ List.replicate z false

/-- 46_control section 3 (R192) where no new IN is listed for either CLR: decompressing what COMPRESS made gives
the input back. Model's choice (log 16): the IN attached before then stays attached. The form of R187, where CLR
attaches a new IN, is RoundTripOfAttachedInputs. -/
def Obligations.DecompressOfCompressIsTheInput : Prop :=
  ∀ s : State, s.hdr = none → s.nextIns = [] → fetchesNeverFail s → putsNeverFail s →
    weightOverflows s.cfg (s.input.length + 1) = false →
    ∃ t, runAll compress s = .next t ∧ t.err = none ∧
      ∀ s' : State, s'.hdr = none → s'.nextIns = [] → fetchesNeverFail s' → putsNeverFail s' →
        s'.input = t.out → ∃ t', runAll decompress s' = .next t' ∧ t'.err = none ∧ t'.out = s.input

/-- 46_control R192, each CLR attaching its operation's IN (R187): decompressing what COMPRESS made gives the
input back, for every byte sequence, including the empty one, on environments that never fail and a WEIGHT_W
large enough. (The two operations may run from any two states, each between commands.) -/
def Obligations.RoundTripOfAttachedInputs : Prop :=
  ∀ (s : State) (S : List Byte) (rest : List (List Byte)), s.hdr = none → s.nextIns = S :: rest →
    fetchesNeverFail s → putsNeverFail s → weightOverflows s.cfg (S.length + 1) = false →
    ∃ t, runAll compress s = .next t ∧ t.err = none ∧
      ∀ (s' : State) (rest' : List (List Byte)), s'.hdr = none → s'.nextIns = t.out :: rest' →
        fetchesNeverFail s' → putsNeverFail s' →
        ∃ t', runAll decompress s' = .next t' ∧ t'.err = none ∧ t'.out = S

/-! ### ENCODE and DECODE on a failing environment -/

/-- 44_encode (R160, its errors), 60_exceptions section 2 (R208, R209): ENCODE on every environment changes only
the two streams and ERR, its error is UnencodableSymbol or IoFailure, OUT only grows and holds a beginning of what
was to be written. Where the fetch at position `p` fails, with the bytes before it coded, their codes are written
and IN_POS is `p`. Where the put of byte `m` of OUT fails, OUT holds exactly the first `m` bytes of what was to be
written, and WBUF the byte refused. -/
def Obligations.EncodeStopsAtAFailure : Prop :=
  ∀ s : State, idle s → s.cValid = true → s.wOpen = true → writerOk s →
    (∃ t, exec .encode s = .next t ∧
      t = { s with inPos := t.inPos, fetchFails := t.fetchFails, out := t.out, wbuf := t.wbuf,
                   wcnt := t.wcnt, putFails := t.putFails, err := t.err } ∧
      (t.err = none ∨ t.err = some .unencodableSymbol ∨ t.err = some .ioFailure) ∧
      s.out <+: t.out ∧
      bytesBits t.out <+: outBits s ++ encodeBits s.code (byteGroups (inRest s))) ∧
    (∀ (p : Nat) (ds q : List Bool), fetchFailsAt s p ds → putsNeverFail s →
      codesOf s.code (byteGroups ((inRest s).take (p - s.inPos))) = some q →
      ∃ t, exec .encode s = .next t ∧ outBits t = outBits s ++ q ∧
        t = { s with inPos := p, fetchFails := ds, out := t.out, wbuf := t.wbuf, wcnt := t.wcnt,
                     putFails := t.putFails, err := some .ioFailure }) ∧
    (∀ (m : Nat) (ds w : List Bool), putFailsAt s m ds → fetchesNeverFail s →
      w = outBits s ++ encodeBits s.code (byteGroups (inRest s)) → 8 * (m + 1) ≤ w.length →
      ∃ t, exec .encode s = .next t ∧ bytesBits t.out = w.take (8 * m) ∧
        byteBits t.wbuf = (w.drop (8 * m)).take 8 ∧
        t = { s with inPos := t.inPos, fetchFails := t.fetchFails, out := t.out, wbuf := t.wbuf,
                     wcnt := 7, putFails := ds, err := some .ioFailure })

/-- 45_decode (R171, its errors), 60_exceptions section 2 (R208, R209): DECODE on every environment changes only
the two streams, CUR, DSTATE and ERR; it ends in Done on the sentinel's leaf, or with TruncatedPayload or IoFailure,
DSTATE still Walking; the bits consumed are the codes of the bytes `l` and the path to CUR, and OUT has grown by
one byte for each byte of `l`. Where the fetch at position `p` fails on an internal node, CUR is that node. Where
the put of the byte `x` fails, the bytes before it having been put, CUR is the leaf of `x`. -/
def Obligations.DecodeStopsAtAFailure : Prop :=
  ∀ (s : State) (tr : Tree), idle s → s.dstate = .walking → s.wOpen = true → s.tree = some tr →
    s.cur = tr → treeOk tr = true → writerOk s →
    (∃ (t : State) (l : List Byte) (p q rest : List Bool), exec .decode s = .next t ∧
      t = { s with inPos := t.inPos, fetchFails := t.fetchFails, out := t.out, wbuf := t.wbuf,
                   wcnt := t.wcnt, putFails := t.putFails, cur := t.cur, dstate := t.dstate,
                   err := t.err } ∧
      ((t.err = none ∧ t.dstate = .done ∧ ∃ w, t.cur = .leaf 256 w) ∨
        ((t.err = some .truncatedPayload ∨ t.err = some .ioFailure) ∧ t.dstate = .walking)) ∧
      codesOf (codeTable tr) (l.map BitVec.toNat) = some p ∧ follow tr q = some t.cur ∧
      inRest s = p ++ q ++ rest ∧ t.inPos = s.inPos + p.length + q.length ∧
      t.out.length = s.out.length + l.length ∧ bytesBits t.out <+: outBits s ++ bytesBits l) ∧
    (∀ (p : Nat) (ds c q : List Bool) (l : List Byte) (a b : Tree) (w : Nat), fetchFailsAt s p ds →
      putsNeverFail s → codesOf (codeTable tr) (l.map BitVec.toNat) = some c →
      follow tr q = some (.node a b w) → (inRest s).take (p - s.inPos) = c ++ q →
      ∃ t, exec .decode s = .next t ∧ outBits t = outBits s ++ bytesBits l ∧
        t = { s with inPos := p, fetchFails := ds, out := t.out, wbuf := t.wbuf, wcnt := t.wcnt,
                     putFails := t.putFails, cur := .node a b w, err := some .ioFailure }) ∧
    (∀ (ds c rest : List Bool) (l : List Byte) (x : Byte), putFailsAt s (s.out.length + l.length) ds →
      fetchesNeverFail s → codesOf (codeTable tr) ((l ++ [x]).map BitVec.toNat) = some c →
      inRest s = c ++ rest →
      ∃ (t : State) (y : Sym) (w : Nat), exec .decode s = .next t ∧ y.val = x.toNat ∧
        t.out.length = s.out.length + l.length ∧ bytesBits t.out <+: outBits s ++ bytesBits l ∧
        t = { s with inPos := s.inPos + c.length, fetchFails := t.fetchFails, out := t.out,
                     wbuf := t.wbuf, wcnt := 7, putFails := ds, cur := .leaf y w,
                     err := some .ioFailure })
end

