-- ==== Sys2Proof/Laws/Bits.lean ====
section
/-!
SUPPORT. Bit sequences and the numbers and bytes they are.
-/

namespace Sys2Proof

@[simp] theorem natToBits_length (n v : Nat) : (natToBits n v).length = n := by
  induction n with
  | zero => rfl
  | succ n ih => simp [natToBits, ih]

/-- Bit `j` of the sequence is bit `n - 1 - j` of the value (20_memory R43). -/
theorem natToBits_eq_map (n v : Nat) :
    natToBits n v = (List.range n).map fun j => v.testBit (n - 1 - j) := by
  induction n with
  | zero => rfl
  | succ n ih =>
    rw [natToBits, ih, List.range_succ_eq_map]
    simp only [List.map_cons, List.map_map, Nat.add_sub_cancel, Nat.sub_zero, List.cons.injEq, true_and]
    apply List.map_congr_left
    intro j _
    simp only [Function.comp_apply]
    congr 1
    omega

theorem foldl_bits (l : List Bool) (v : Nat) :
    l.foldl (fun v b => 2 * v + b.toNat) v = v * 2 ^ l.length + bitsToNat l := by
  induction l generalizing v with
  | nil => simp [bitsToNat]
  | cons b l ih =>
    simp only [List.foldl_cons, List.length_cons, bitsToNat]
    rw [ih, ih (2 * 0 + b.toNat)]
    ring

@[simp] theorem bitsToNat_nil : bitsToNat [] = 0 := rfl

theorem bitsToNat_cons (b : Bool) (l : List Bool) :
    bitsToNat (b :: l) = b.toNat * 2 ^ l.length + bitsToNat l := by
  simp only [bitsToNat, List.foldl_cons]
  rw [foldl_bits]
  simp [bitsToNat]

theorem bitsToNat_append (a b : List Bool) :
    bitsToNat (a ++ b) = bitsToNat a * 2 ^ b.length + bitsToNat b := by
  unfold bitsToNat
  rw [List.foldl_append, foldl_bits]
  rfl

theorem bitsToNat_lt (l : List Bool) : bitsToNat l < 2 ^ l.length := by
  induction l with
  | nil => simp
  | cons b l ih =>
    rw [bitsToNat_cons, List.length_cons, Nat.pow_succ]
    cases b <;> simp <;> omega

theorem bitsToNat_natToBits (n v : Nat) : bitsToNat (natToBits n v) = v % 2 ^ n := by
  induction n with
  | zero => simp [natToBits, Nat.mod_one]
  | succ n ih =>
    rw [natToBits, bitsToNat_cons, natToBits_length, ih, Nat.testBit_eq_decide_div_mod_eq]
    rw [Nat.pow_succ, Nat.mod_mul (a := 2 ^ n)]
    rcases Nat.mod_two_eq_zero_or_one (v / 2 ^ n) with h | h
    · simp [h]
    · simp [h]; ring

theorem natToBits_bitsToNat (l : List Bool) : natToBits l.length (bitsToNat l) = l := by
  induction l with
  | nil => rfl
  | cons b l ih =>
    have hlt := bitsToNat_lt l
    have hb : (bitsToNat (b :: l)).testBit l.length = b := by
      rw [bitsToNat_cons, Nat.testBit_eq_decide_div_mod_eq]
      rw [Nat.add_comm, Nat.add_mul_div_right _ _ (Nat.two_pow_pos _), Nat.div_eq_of_lt hlt]
      cases b <;> simp
    have ht : natToBits l.length (bitsToNat (b :: l)) = natToBits l.length (bitsToNat l) := by
      rw [natToBits_eq_map, natToBits_eq_map]
      apply List.map_congr_left
      intro j hj
      have hj := List.mem_range.1 hj
      rw [bitsToNat_cons, Nat.mul_comm, Nat.testBit_two_pow_mul_add _ hlt, if_pos (by omega)]
    rw [List.length_cons, natToBits, hb, ht, ih]

/-- The high bits, then the low bits. -/
theorem natToBits_add (m n v : Nat) : natToBits (m + n) v = natToBits m (v / 2 ^ n) ++ natToBits n v := by
  induction m with
  | zero => simp [natToBits]
  | succ m ih =>
    rw [show m + 1 + n = (m + n) + 1 by omega, natToBits, natToBits, ih, Nat.testBit_div_two_pow]
    rfl

/-- Only the `n` low bits count. -/
theorem natToBits_congr {n v v' : Nat} (h : ∀ j < n, v.testBit j = v'.testBit j) :
    natToBits n v = natToBits n v' := by
  rw [natToBits_eq_map, natToBits_eq_map]
  apply List.map_congr_left
  intro j hj
  apply h
  have := List.mem_range.1 hj
  omega

theorem natToBits_mod (n v : Nat) : natToBits n (v % 2 ^ n) = natToBits n v := by
  apply natToBits_congr
  intro j hj
  simp [Nat.testBit_mod_two_pow, hj]

namespace Machine

@[simp] theorem byteBits_length (b : Byte) : (byteBits b).length = 8 := natToBits_length _ _

/-- Bit `p` of a byte in stream order is its bit `7 - p` (20_memory R42). -/
theorem byteBits_eq_map (b : Byte) : byteBits b = (List.range 8).map (streamBit b) := by
  rw [byteBits, natToBits_eq_map]; rfl

@[simp] theorem bytesBits_nil : bytesBits [] = [] := rfl

@[simp] theorem bytesBits_cons (b : Byte) (l : List Byte) :
    bytesBits (b :: l) = byteBits b ++ bytesBits l := rfl

@[simp] theorem bytesBits_append (a b : List Byte) :
    bytesBits (a ++ b) = bytesBits a ++ bytesBits b := by
  simp [bytesBits]

@[simp] theorem bytesBits_length (l : List Byte) : (bytesBits l).length = 8 * l.length := by
  induction l with
  | nil => rfl
  | cons b l ih => simp [ih]; omega

/-- Bit `p` of the stream is bit `7 - p mod 8` of byte `p div 8` (20_memory R42). -/
theorem bytesBits_getElem? (l : List Byte) (p : Nat) :
    (bytesBits l)[p]? = l[p / 8]?.map (fun b => streamBit b (p % 8)) := by
  induction l generalizing p with
  | nil => simp
  | cons b l ih =>
    rw [bytesBits_cons]
    by_cases h : p < 8
    · rw [List.getElem?_append_left (by simpa using h), Nat.div_eq_of_lt h, Nat.mod_eq_of_lt h,
        byteBits_eq_map]
      simp [h]
    · rw [List.getElem?_append_right (by simp; omega), ih]
      have h1 : p / 8 = (p - 8) / 8 + 1 := by omega
      have h2 : (p - 8) % 8 = p % 8 := by omega
      simp [h1, h2]

/-- A byte is its 8 bits. -/
theorem bitsToNat_byteBits (b : Byte) : bitsToNat (byteBits b) = b.toNat := by
  rw [byteBits, bitsToNat_natToBits]
  exact Nat.mod_eq_of_lt b.isLt

theorem byteBits_inj {a b : Byte} (h : byteBits a = byteBits b) : a = b := by
  apply BitVec.eq_of_toNat_eq
  rw [← bitsToNat_byteBits, h, bitsToNat_byteBits]

/-- Whole bytes and fewer than 8 more bits: both can be told from the bits. -/
theorem bytesBits_append_inj {a c : List Byte} {x : List Bool} (hx : x.length < 8)
    (h : bytesBits a = bytesBits c ++ x) : a = c ∧ x = [] := by
  induction c generalizing a with
  | nil =>
    have hl := congrArg List.length h
    simp at hl
    have h0 : a = [] := List.length_eq_zero_iff.1 (by omega)
    subst h0
    simpa using h
  | cons b c ih =>
    cases a with
    | nil => have hl := congrArg List.length h; simp at hl; omega
    | cons b' a =>
      simp only [bytesBits_cons, List.append_assoc] at h
      have h1 := List.append_inj h (by simp)
      obtain ⟨e1, e2⟩ := ih h1.2
      exact ⟨by rw [byteBits_inj h1.1, e1], e2⟩

end Machine

end Sys2Proof
end

