-- ==== Sys2Proof/Laws/Tables.lean ====
section
/-!
SUPPORT. The tables HIST and CODE: a read after a write, and that every operation keeps the canonical form.
-/

namespace Sys2Proof.Machine

variable {α : Type}

/-! ### The canonical form -/

theorem tableWfFrom_cons {bound low k : Nat} {v : α} {t : List (Nat × α)} :
    tableWfFrom bound low ((k, v) :: t) = true ↔
      low ≤ k ∧ k < bound ∧ tableWfFrom bound (k + 1) t = true := by
  simp [tableWfFrom, and_assoc]

theorem tableWfFrom_mono {bound low low' : Nat} (h : low' ≤ low) {t : List (Nat × α)}
    (hw : tableWfFrom bound low t = true) : tableWfFrom bound low' t = true := by
  cases t with
  | nil => rfl
  | cons e t =>
    rw [tableWfFrom_cons] at *
    exact ⟨h.trans hw.1, hw.2⟩

theorem tableWfFrom_mem {bound low : Nat} {t : List (Nat × α)} (hw : tableWfFrom bound low t = true) :
    ∀ e ∈ t, low ≤ e.1 ∧ e.1 < bound := by
  induction t generalizing low with
  | nil => simp
  | cons e t ih =>
    rw [tableWfFrom_cons] at hw
    intro x hx
    rcases List.mem_cons.1 hx with rfl | hx
    · exact ⟨hw.1, hw.2.1⟩
    · have := ih hw.2.2 x hx
      omega

/-! ### Reads -/

theorem tableGet_mem {t : List (Nat × α)} {x : Nat} {v : α} (h : tableGet t x = some v) : (x, v) ∈ t := by
  induction t with
  | nil => cases h
  | cons e t ih =>
    obtain ⟨k, w⟩ := e
    simp only [tableGet] at h
    split at h
    · rename_i hk
      cases h
      subst hk
      exact List.mem_cons_self
    · exact List.mem_cons_of_mem _ (ih h)

/-- In the canonical form an entry is read exactly where it is listed. -/
theorem tableGet_eq_some_iff {bound low : Nat} {t : List (Nat × α)} (hw : tableWfFrom bound low t = true)
    (x : Nat) (v : α) : tableGet t x = some v ↔ (x, v) ∈ t := by
  refine ⟨tableGet_mem, fun h => ?_⟩
  induction t generalizing low with
  | nil => cases h
  | cons e t ih =>
    obtain ⟨k, w⟩ := e
    rw [tableWfFrom_cons] at hw
    rcases List.mem_cons.1 h with h | h
    · cases h
      simp [tableGet]
    · have := tableWfFrom_mem hw.2.2 _ h
      rw [tableGet, if_neg (by omega), ih hw.2.2 h]

theorem tableGet_eq_none {bound low : Nat} {t : List (Nat × α)} (hw : tableWfFrom bound low t = true)
    {x : Nat} (hx : x < low) : tableGet t x = none := by
  cases h : tableGet t x with
  | none => rfl
  | some v =>
    have := tableWfFrom_mem hw _ (tableGet_mem h)
    omega

/-- Equal tables are equal data. -/
theorem tableWfFrom_ext {bound low : Nat} {t u : List (Nat × α)} (ht : tableWfFrom bound low t = true)
    (hu : tableWfFrom bound low u = true) (h : ∀ x, tableGet t x = tableGet u x) : t = u := by
  induction t generalizing low u with
  | nil =>
    cases u with
    | nil => rfl
    | cons e u => have := h e.1; simp [tableGet] at this
  | cons e t ih =>
    obtain ⟨k, v⟩ := e
    have hk := h k
    rw [tableGet, if_pos rfl] at hk
    cases u with
    | nil => cases hk
    | cons e' u =>
      obtain ⟨k', v'⟩ := e'
      have hk' := h k'
      rw [tableGet, tableGet, if_pos rfl] at hk'
      rw [tableWfFrom_cons] at ht hu
      have e1 : k = k' := by
        rw [tableGet] at hk
        split at hk
        · rename_i he; exact he.symm
        · split at hk'
          · assumption
          · have h1 := tableWfFrom_mem hu.2.2 _ (tableGet_mem hk.symm)
            have h2 := tableWfFrom_mem ht.2.2 _ (tableGet_mem hk')
            simp only at h1 h2
            omega
      subst e1
      rw [tableGet, if_pos rfl] at hk
      cases hk
      rw [ih ht.2.2 hu.2.2]
      intro x
      have hx := h x
      rw [tableGet, tableGet] at hx
      split at hx
      · rename_i he
        subst he
        rw [tableGet_eq_none ht.2.2 (Nat.lt_succ_self _), tableGet_eq_none hu.2.2 (Nat.lt_succ_self _)]
      · exact hx

/-! ### Writes -/

theorem tableGet_put (x : Nat) (v : α) (t : List (Nat × α)) (y : Nat) :
    tableGet (tablePut x v t) y = if y = x then some v else tableGet t y := by
  induction t with
  | nil => simp [tablePut, tableGet, eq_comm]
  | cons e t ih =>
    obtain ⟨k, w⟩ := e
    simp only [tablePut]
    split
    · simp [tableGet, eq_comm]
    · split
      · rename_i h
        subst h
        simp only [tableGet, eq_comm]
        split <;> rfl
      · simp only [tableGet, ih]
        split
        · rename_i h1 h2
          subst h2
          rw [if_neg (by omega)]
        · rfl

theorem tableGet_erase {bound low : Nat} {t : List (Nat × α)} (hw : tableWfFrom bound low t = true)
    (x y : Nat) : tableGet (tableErase x t) y = if y = x then none else tableGet t y := by
  induction t generalizing low with
  | nil => simp [tableErase, tableGet]
  | cons e t ih =>
    obtain ⟨k, w⟩ := e
    rw [tableWfFrom_cons] at hw
    simp only [tableErase]
    split
    · rename_i h
      subst h
      split
      · rename_i h
        rw [h, tableGet_eq_none hw.2.2 (Nat.lt_succ_self _)]
      · rename_i h
        rw [tableGet, if_neg (Ne.symm h)]
    · rename_i h
      simp only [tableGet, ih hw.2.2]
      split
      · rename_i h1
        rw [if_neg (by omega)]
      · rfl

theorem tablePut_wf {bound low x : Nat} {t : List (Nat × α)} (hw : tableWfFrom bound low t = true)
    (hl : low ≤ x) (hb : x < bound) (v : α) : tableWfFrom bound low (tablePut x v t) = true := by
  induction t generalizing low with
  | nil => simp [tablePut, tableWfFrom, hl, hb]
  | cons e t ih =>
    obtain ⟨k, w⟩ := e
    rw [tableWfFrom_cons] at hw
    simp only [tablePut]
    split
    · simp only [tableWfFrom_cons]
      exact ⟨hl, hb, by omega, hw.2.1, hw.2.2⟩
    · split
      · rename_i h
        subst h
        simp only [tableWfFrom_cons]
        exact ⟨hl, hb, hw.2.2⟩
      · simp only [tableWfFrom_cons]
        exact ⟨hw.1, hw.2.1, ih hw.2.2 (by omega)⟩

theorem tableErase_wf {bound low : Nat} {t : List (Nat × α)} (hw : tableWfFrom bound low t = true)
    (x : Nat) : tableWfFrom bound low (tableErase x t) = true := by
  induction t generalizing low with
  | nil => rfl
  | cons e t ih =>
    obtain ⟨k, w⟩ := e
    rw [tableWfFrom_cons] at hw
    simp only [tableErase]
    split
    · exact tableWfFrom_mono (by omega) hw.2.2
    · simp only [tableWfFrom_cons]
      exact ⟨hw.1, hw.2.1, ih hw.2.2⟩

theorem tablePut_mem {x : Nat} {v : α} {t : List (Nat × α)} {e : Nat × α} (h : e ∈ tablePut x v t) :
    e = (x, v) ∨ e ∈ t := by
  induction t with
  | nil => simpa [tablePut] using h
  | cons d t ih =>
    obtain ⟨k, w⟩ := d
    simp only [tablePut] at h
    split at h
    · simpa using h
    · split at h
      · simp only [List.mem_cons] at *; tauto
      · simp only [List.mem_cons] at *; tauto

theorem tableErase_mem {x : Nat} {t : List (Nat × α)} {e : Nat × α} (h : e ∈ tableErase x t) : e ∈ t := by
  induction t with
  | nil => exact h
  | cons d t ih =>
    obtain ⟨k, w⟩ := d
    simp only [tableErase] at h
    split at h
    · exact List.mem_cons_of_mem _ h
    · simp only [List.mem_cons] at *; tauto

/-! ### HIST (10_state R11) -/

@[simp] theorem histRead_nil (b : Nat) : histRead [] b = 0 := rfl

theorem histWf_iff {h : List (Nat × Nat)} :
    histWf h = true ↔ tableWfFrom 256 0 h = true ∧ ∀ e ∈ h, 1 ≤ e.2 := by
  simp [histWf]

/-- A counter after a write. -/
theorem histRead_write {h : List (Nat × Nat)} (hw : histWf h = true) (b c b' : Nat) :
    histRead (histWrite h b c) b' = if b' = b then c else histRead h b' := by
  unfold histRead histWrite
  split
  · rw [tableGet_erase (histWf_iff.1 hw).1]
    split <;> simp_all
  · rw [tableGet_put]
    split <;> simp_all

/-- A counter that goes up by one, in every table. -/
theorem histRead_write_succ (h : List (Nat × Nat)) (b c b' : Nat) :
    histRead (histWrite h b (c + 1)) b' = if b' = b then c + 1 else histRead h b' := by
  unfold histRead histWrite
  rw [if_neg (by omega), tableGet_put]
  split <;> simp_all

theorem histWrite_wf {h : List (Nat × Nat)} (hw : histWf h = true) {b : Nat} (hb : b < 256) (c : Nat) :
    histWf (histWrite h b c) = true := by
  rw [histWf_iff] at *
  unfold histWrite
  split
  · exact ⟨tableErase_wf hw.1 b, fun e he => hw.2 e (tableErase_mem he)⟩
  · refine ⟨tablePut_wf hw.1 (Nat.zero_le _) hb c, fun e he => ?_⟩
    rcases tablePut_mem he with rfl | he
    · show 1 ≤ c
      omega
    · exact hw.2 e he

/-- Equal histograms are equal data. -/
theorem histWf_ext {h k : List (Nat × Nat)} (hh : histWf h = true) (hk : histWf k = true)
    (he : ∀ b, histRead h b = histRead k b) : h = k := by
  rw [histWf_iff] at hh hk
  apply tableWfFrom_ext hh.1 hk.1
  intro b
  have hb := he b
  unfold histRead at hb
  have key : ∀ {t : List (Nat × Nat)}, (∀ e ∈ t, 1 ≤ e.2) → ∀ v, tableGet t b = some v → 1 ≤ v :=
    fun ht v hv => ht _ (tableGet_mem hv)
  cases h1 : tableGet h b with
  | none =>
    cases h2 : tableGet k b with
    | none => rfl
    | some v => have := key hk.2 v h2; rw [h1, h2] at hb; simp at hb; omega
  | some v =>
    cases h2 : tableGet k b with
    | none => have := key hh.2 v h1; rw [h1, h2] at hb; simp at hb; omega
    | some w => rw [h1, h2] at hb; simpa using hb

/-! ### CODE (10_state R14) -/

@[simp] theorem codeRead_nil (x : Nat) : codeRead [] x = none := rfl

/-- An entry of the code table after a write. -/
theorem codeRead_write (c : List (Nat × List Bool)) (x : Nat) (p : List Bool) (y : Nat) :
    codeRead (codeWrite c x p) y = if y = x then some p else codeRead c y :=
  tableGet_put x p c y

theorem codeWrite_wf {c : List (Nat × List Bool)} (hw : codeWf c = true) {x : Nat} (hx : x < 257)
    (p : List Bool) : codeWf (codeWrite c x p) = true :=
  tablePut_wf hw (Nat.zero_le _) hx p

/-- Equal code tables are equal data. -/
theorem codeWf_ext {c d : List (Nat × List Bool)} (hc : codeWf c = true) (hd : codeWf d = true)
    (h : ∀ x, codeRead c x = codeRead d x) : c = d :=
  tableWfFrom_ext hc hd h

/-- The memory of the reset state is in canonical form. -/
theorem reset_memory_wf : Memory.wf State.reset = true := rfl

end Sys2Proof.Machine
end

