-- ==== Sys2Proof/Laws/Codes.lean ====
section
/-!
SUPPORT. Paths in a tree and the code table MKTAB makes of them (42_tree_build R131, R132).
-/

namespace Sys2Proof.Machine

/-! ### Leaves and symbols -/

@[simp] theorem treeSyms_leaf (x : Sym) (w : Nat) : treeSyms (.leaf x w) = [x] := rfl

@[simp] theorem treeSyms_node (a b : Tree) (w : Nat) :
    treeSyms (.node a b w) = treeSyms a ++ treeSyms b := by
  simp [treeSyms, leaves]

@[simp] theorem treeSyms_unweighted (t : Tree) : treeSyms (unweighted t) = treeSyms t := by
  induction t with
  | leaf x w => rfl
  | node a b w iha ihb => simp [unweighted, iha, ihb]

@[simp] theorem treeBits_unweighted (t : Tree) : treeBits (unweighted t) = treeBits t := by
  induction t with
  | leaf x w => rfl
  | node a b w iha ihb => simp [unweighted, treeBits, iha, ihb]

@[simp] theorem treeOk_unweighted (t : Tree) : treeOk (unweighted t) = treeOk t := by
  cases t <;> simp [treeOk, unweighted, loneByteLeaf]

theorem leaves_ne_nil (t : Tree) : leaves t ≠ [] := by
  induction t with
  | leaf x w => simp [leaves]
  | node a b w iha ihb => simp [leaves, iha]

/-! ### Paths -/

@[simp] theorem follow_nil (t : Tree) : follow t [] = some t := by cases t <;> rfl

@[simp] theorem follow_leaf_cons (x : Sym) (w : Nat) (c : Bool) (p : List Bool) :
    follow (.leaf x w) (c :: p) = none := rfl

@[simp] theorem follow_node_false (a b : Tree) (w : Nat) (p : List Bool) :
    follow (.node a b w) (false :: p) = follow a p := rfl

@[simp] theorem follow_node_true (a b : Tree) (w : Nat) (p : List Bool) :
    follow (.node a b w) (true :: p) = follow b p := rfl

theorem follow_append (t : Tree) (p q : List Bool) :
    follow t (p ++ q) = (follow t p).bind fun u => follow u q := by
  induction p generalizing t with
  | nil => simp
  | cons c p ih =>
    cases t with
    | leaf x w => rfl
    | node a b w => cases c <;> exact ih _

/-- A path leads into the tree. -/
theorem follow_mem_subtrees {t u : Tree} {p : List Bool} (h : follow t p = some u) : u ∈ subtrees t := by
  induction p generalizing t with
  | nil => simp at h; subst h; cases t <;> simp [subtrees]
  | cons c p ih =>
    cases t with
    | leaf x w => cases h
    | node a b w => cases c <;> simp [subtrees] <;> [exact .inr (.inl (ih h)); exact .inr (.inr (ih h))]

theorem follow_leaf_mem {t : Tree} {p : List Bool} {x : Sym} {w : Nat} (h : follow t p = some (.leaf x w)) :
    (x, w) ∈ leaves t := by
  induction p generalizing t with
  | nil => simp at h; subst h; simp [leaves]
  | cons c p ih =>
    cases t with
    | leaf y v => cases h
    | node a b v => cases c <;> simp [leaves] <;> [exact .inl (ih h); exact .inr (ih h)]

theorem exists_follow {t : Tree} {x : Sym} {w : Nat} (h : (x, w) ∈ leaves t) :
    ∃ p, follow t p = some (.leaf x w) := by
  induction t with
  | leaf y v => simp [leaves] at h; exact ⟨[], by rw [follow_nil, h.1, h.2]⟩
  | node a b v iha ihb =>
    rcases List.mem_append.1 h with h | h
    · obtain ⟨p, hp⟩ := iha h; exact ⟨false :: p, hp⟩
    · obtain ⟨p, hp⟩ := ihb h; exact ⟨true :: p, hp⟩

theorem mem_treeSyms_of_follow {t : Tree} {p : List Bool} {x : Sym} {w : Nat}
    (h : follow t p = some (.leaf x w)) : x ∈ treeSyms t :=
  List.mem_map.2 ⟨_, follow_leaf_mem h, rfl⟩

/-- The path to the leaf of symbol `x` (the last one, if several carry it). -/
def pathTo : Tree → Nat → Option (List Bool)
  | .leaf y _, x => if x = y.val then some [] else none
  | .node a b _, x =>
    match pathTo b x with
    | some p => some (true :: p)
    | none => (pathTo a x).map (false :: ·)

theorem pathTo_unweighted (t : Tree) (x : Nat) : pathTo (unweighted t) x = pathTo t x := by
  induction t with
  | leaf y w => rfl
  | node a b w iha ihb => simp only [unweighted, pathTo, iha, ihb]

theorem follow_pathTo {t : Tree} {x : Nat} {p : List Bool} (h : pathTo t x = some p) :
    ∃ (y : Sym) (w : Nat), y.val = x ∧ follow t p = some (.leaf y w) := by
  induction t generalizing p with
  | leaf y w =>
    simp only [pathTo] at h
    split at h
    · cases h
      exact ⟨y, w, Eq.symm ‹_›, rfl⟩
    · cases h
  | node a b w iha ihb =>
    simp only [pathTo] at h
    split at h
    · rename_i q hq
      cases h
      exact ihb hq
    · cases hp : pathTo a x with
      | none => rw [hp] at h; cases h
      | some q => rw [hp] at h; cases h; exact iha hp

theorem pathTo_isSome {t : Tree} {x : Sym} (h : x ∈ treeSyms t) : (pathTo t x.val).isSome = true := by
  induction t with
  | leaf y w => simp at h; simp [pathTo, h]
  | node a b w iha ihb =>
    simp only [treeSyms_node, List.mem_append] at h
    simp only [pathTo]
    split
    · rfl
    · rename_i hn
      rcases h with h | h
      · simpa using iha h
      · have := ihb h
        rw [hn] at this
        cases this

/-- Where no two leaves carry the same symbol, the path to a symbol is the path of its one leaf. -/
theorem pathTo_eq_some_iff {t : Tree} (hn : (treeSyms t).Nodup) (x : Sym) (p : List Bool) :
    pathTo t x.val = some p ↔ ∃ w, follow t p = some (.leaf x w) := by
  constructor
  · intro h
    obtain ⟨y, w, hy, hf⟩ := follow_pathTo h
    rw [Fin.ext hy] at hf
    exact ⟨w, hf⟩
  · rintro ⟨w, h⟩
    induction t generalizing p with
    | leaf y v =>
      cases p with
      | nil => simp at h; simp [pathTo, h.1]
      | cons c p => cases h
    | node a b v iha ihb =>
      rw [treeSyms_node, List.nodup_append] at hn
      cases p with
      | nil => simp at h
      | cons c p =>
        cases c
        · have h := (follow_node_false a b v p).symm.trans h
          have hx := mem_treeSyms_of_follow h
          have hb : pathTo b x.val = none := by
            cases hq : pathTo b x.val with
            | none => rfl
            | some q =>
              obtain ⟨y, u, hy, hf⟩ := follow_pathTo hq
              rw [Fin.ext hy] at hf
              exact absurd rfl (hn.2.2 x hx x (mem_treeSyms_of_follow hf))
          rw [pathTo, hb, iha hn.1 p h]
          rfl
        · rw [pathTo, ihb hn.2.1 p h]

/-! ### The code table -/

theorem codeRead_walkTree (t : Tree) (path : List Bool) (c : List (Nat × List Bool)) (x : Nat) :
    codeRead (walkTree t path c) x = ((pathTo t x).map (path ++ ·)).or (codeRead c x) := by
  induction t generalizing path c with
  | leaf y w =>
    simp only [walkTree, codeRead_write, pathTo]
    split <;> simp
  | node a b w iha ihb =>
    simp only [walkTree, ihb, iha, pathTo]
    cases pathTo b x with
    | some p => simp
    | none => cases pathTo a x <;> simp

/-- A symbol's code is the path to its leaf (R132). -/
theorem codeRead_codeTable (t : Tree) (x : Nat) : codeRead (codeTable t) x = pathTo t x := by
  rw [codeTable, codeRead_walkTree]
  cases pathTo t x <;> simp

theorem walkTree_wf (t : Tree) (path : List Bool) {c : List (Nat × List Bool)} (hc : codeWf c = true) :
    codeWf (walkTree t path c) = true := by
  induction t generalizing path c with
  | leaf y w => exact codeWrite_wf hc y.isLt path
  | node a b w iha ihb => exact ihb _ (iha _ hc)

theorem codeTable_wf (t : Tree) : codeWf (codeTable t) = true := walkTree_wf t [] rfl

theorem codeTable_unweighted (t : Tree) : codeTable (unweighted t) = codeTable t :=
  codeWf_ext (codeTable_wf _) (codeTable_wf _) fun x => by
    rw [codeRead_codeTable, codeRead_codeTable, pathTo_unweighted]

end Sys2Proof.Machine
end

