-- ==== Sys2Proof/Laws/State.lean ====
section
/-!
SUPPORT. One lemma per field for the two updates of the whole state, `raise` and `clear`.
-/

namespace Sys2Proof.Machine

variable (k : ErrKind) (s : State)

@[simp] theorem raise_hist : (raise k s).hist = s.hist := rfl
@[simp] theorem raise_tree : (raise k s).tree = s.tree := rfl
@[simp] theorem raise_code : (raise k s).code = s.code := rfl
@[simp] theorem raise_cValid : (raise k s).cValid = s.cValid := rfl
@[simp] theorem raise_inPos : (raise k s).inPos = s.inPos := rfl
@[simp] theorem raise_out : (raise k s).out = s.out := rfl
@[simp] theorem raise_wbuf : (raise k s).wbuf = s.wbuf := rfl
@[simp] theorem raise_wcnt : (raise k s).wcnt = s.wcnt := rfl
@[simp] theorem raise_wOpen : (raise k s).wOpen = s.wOpen := rfl
@[simp] theorem raise_dstate : (raise k s).dstate = s.dstate := rfl
@[simp] theorem raise_cur : (raise k s).cur = s.cur := rfl
@[simp] theorem raise_err : (raise k s).err = some k := rfl
@[simp] theorem raise_res : (raise k s).res = s.res := rfl
@[simp] theorem raise_hdr : (raise k s).hdr = none := rfl
@[simp] theorem raise_cfg : (raise k s).cfg = s.cfg := rfl
@[simp] theorem raise_input : (raise k s).input = s.input := rfl
@[simp] theorem raise_nextIns : (raise k s).nextIns = s.nextIns := rfl
@[simp] theorem raise_fetchFails : (raise k s).fetchFails = s.fetchFails := rfl
@[simp] theorem raise_putFails : (raise k s).putFails = s.putFails := rfl
@[simp] theorem raise_host : (raise k s).host = s.host := rfl
@[simp] theorem raise_cp : (raise k s).cp = s.cp := rfl

@[simp] theorem attachInput_eq :
    attachInput s = { s with input := (s.nextIns.head?.getD s.input), nextIns := s.nextIns.tail } := by
  obtain ⟨_, _, _, _, _, _, _, _, _, _, _, _, _, _, _, _, n, _, _, _, _⟩ := s
  cases n <;> rfl

/-- `clear` in one piece: reset values for the engine, the next IN, the rest of the inputs kept. -/
theorem clear_eq : clear s =
    { State.reset with
      cfg := s.cfg, input := (s.nextIns.head?.getD s.input), nextIns := s.nextIns.tail,
      fetchFails := s.fetchFails, putFails := s.putFails, host := s.host, cp := s.cp } := by
  simp [clear]

@[simp] theorem clear_hist : (clear s).hist = [] := by simp [clear_eq, State.reset]
@[simp] theorem clear_tree : (clear s).tree = none := by simp [clear_eq, State.reset]
@[simp] theorem clear_code : (clear s).code = [] := by simp [clear_eq, State.reset]
@[simp] theorem clear_cValid : (clear s).cValid = false := by simp [clear_eq, State.reset]
@[simp] theorem clear_inPos : (clear s).inPos = 0 := by simp [clear_eq, State.reset]
@[simp] theorem clear_out : (clear s).out = [] := by simp [clear_eq, State.reset]
@[simp] theorem clear_wbuf : (clear s).wbuf = 0 := by simp [clear_eq, State.reset]
@[simp] theorem clear_wcnt : (clear s).wcnt = 0 := by simp [clear_eq, State.reset]
@[simp] theorem clear_wOpen : (clear s).wOpen = true := by simp [clear_eq, State.reset]
@[simp] theorem clear_dstate : (clear s).dstate = .readingTree := by simp [clear_eq, State.reset]
@[simp] theorem clear_err : (clear s).err = none := by simp [clear_eq, State.reset]
@[simp] theorem clear_res : (clear s).res = ⟨false, 0⟩ := by simp [clear_eq, State.reset]
@[simp] theorem clear_hdr : (clear s).hdr = none := by simp [clear_eq, State.reset]
@[simp] theorem clear_cfg : (clear s).cfg = s.cfg := by simp [clear_eq]
@[simp] theorem clear_input : (clear s).input = (s.nextIns.head?.getD s.input) := by simp [clear_eq]
/-- CLR attaches the first of the INs to come (46_control R187). -/
theorem clear_input_cons {s : State} {i : List Byte} {rest : List (List Byte)} (h : s.nextIns = i :: rest) :
    (clear s).input = i := by simp [h]
/-- With no IN to come the one attached stays (log 16). -/
theorem clear_input_nil {s : State} (h : s.nextIns = []) : (clear s).input = s.input := by simp [h]
@[simp] theorem clear_nextIns : (clear s).nextIns = s.nextIns.tail := by simp [clear_eq]
@[simp] theorem clear_fetchFails : (clear s).fetchFails = s.fetchFails := by simp [clear_eq]
@[simp] theorem clear_putFails : (clear s).putFails = s.putFails := by simp [clear_eq]
@[simp] theorem clear_host : (clear s).host = s.host := by simp [clear_eq]
@[simp] theorem clear_cp : (clear s).cp = s.cp := by simp [clear_eq]

end Sys2Proof.Machine
end

