-- ==== Sys2Proof/Laws/Reader.lean ====
section
/-!
SUPPORT. What the bit reader can do (40_bitstream R90, R91).
-/

namespace Sys2Proof.Machine

@[simp] theorem inRest_length (s : State) : (inRest s).length = bitsLeft s := by
  simp [inRest, inBits, bitsLeft]

theorem neverFail_drop {l : List Bool} (h : l.all (fun d => !d) = true) (d : Nat) :
    (l.drop d).all (fun d => !d) = true := by
  rw [List.all_eq_true] at *
  exact fun x hx => h x (List.mem_of_mem_drop hx)

/-- The state after the fetch ReadBit makes exactly on a byte boundary. -/
def fetched (s : State) : State :=
  { s with fetchFails := if s.inPos % 8 = 0 then s.fetchFails.tail else s.fetchFails }

/-- ReadBit in one piece: IoFailure where the byte's fetch fails, EOF at the end of IN, else the bit of
IN at IN_POS. -/
theorem readBit_eq (s : State) : readBit s =
    if s.inPos % 8 = 0 ∧ s.fetchFails.head? = some true then .raised .ioFailure (fetched s)
    else match (inBits s)[s.inPos]? with
      | none => .ok none (fetched s)
      | some b => .ok (some b) { fetched s with inPos := s.inPos + 1 } := by
  rw [inBits, bytesBits_getElem?]
  unfold readBit inFetch fetched takeBit
  by_cases h : s.inPos % 8 = 0
  · simp only [h, if_true, true_and]
    by_cases hd : s.fetchFails.head? = some true
    · simp [hd]
    · simp only [hd, if_false]
      cases s.input[s.inPos / 8]? <;> simp [h]
  · simp only [h, if_false, false_and]
    cases s.input[s.inPos / 8]? <;> simp

/-- What `n` more bits after the value `v` can give, whatever the environment answers: all `n` bits; or EOF,
with every bit left consumed; or IoFailure at a fetch, with the bits before it consumed. -/
theorem readBitsFrom_cases (n v : Nat) (s : State) :
    (n ≤ bitsLeft s ∧ ∃ d, readBitsFrom n v s =
        .ok (some (v * 2 ^ n + bitsToNat ((inRest s).take n)))
          { s with inPos := s.inPos + n, fetchFails := s.fetchFails.drop d }) ∨
    (bitsLeft s < n ∧ ∃ d, readBitsFrom n v s =
        .ok none { s with inPos := s.inPos + bitsLeft s, fetchFails := s.fetchFails.drop d }) ∨
    (∃ k d, k < n ∧ k ≤ bitsLeft s ∧ (s.inPos + k) % 8 = 0 ∧ s.fetchFails[d]? = some true ∧
      readBitsFrom n v s =
        .raised .ioFailure { s with inPos := s.inPos + k, fetchFails := s.fetchFails.drop (d + 1) }) := by
  induction n generalizing v s with
  | zero => exact .inl ⟨Nat.zero_le _, 0, by simp [readBitsFrom]⟩
  | succ n ih =>
    rw [readBitsFrom, readBit_eq]
    by_cases hf : s.inPos % 8 = 0 ∧ s.fetchFails.head? = some true
    · refine .inr (.inr ⟨0, 0, by omega, by omega, by simpa using hf.1, ?_, ?_⟩)
      · rw [← List.head?_eq_getElem?]; exact hf.2
      · rw [if_pos hf]
        simp [Run.andThen, fetched, hf.1]
    · rw [if_neg hf]
      cases hb : (inBits s)[s.inPos]? with
      | none =>
        have h0 : bitsLeft s = 0 := by
          have h0 := List.getElem?_eq_none_iff.1 hb
          simp only [inBits, bytesBits_length] at h0
          simp only [bitsLeft]
          omega
        refine .inr (.inl ⟨by omega, if s.inPos % 8 = 0 then 1 else 0, ?_⟩)
        simp only [Run.andThen, fetched, h0, Nat.add_zero]
        split <;> simp
      | some b =>
        obtain ⟨hlt, hb'⟩ := List.getElem?_eq_some_iff.1 hb
        have hcons : inRest s = b :: (inBits s).drop (s.inPos + 1) := by
          rw [inRest, List.drop_eq_getElem_cons hlt, hb']
        simp only [Run.andThen]
        generalize hs' : ({ fetched s with inPos := s.inPos + 1 } : State) = s'
        have hrest : inRest s' = (inBits s).drop (s.inPos + 1) := by
          subst hs'; rfl
        have hpos : s'.inPos = s.inPos + 1 := by subst hs'; rfl
        have hleft : bitsLeft s' + 1 = bitsLeft s := by
          rw [← inRest_length, ← inRest_length, hcons, hrest]; rfl
        obtain ⟨e, he⟩ : ∃ e, s'.fetchFails = s.fetchFails.drop e :=
          ⟨if s.inPos % 8 = 0 then 1 else 0, by subst hs'; simp only [fetched]; split <;> simp⟩
        have hframe : ∀ p ff, ({ s' with inPos := p, fetchFails := ff } : State) =
            { s with inPos := p, fetchFails := ff } := by
          subst hs'; intros; rfl
        rcases ih (2 * v + b.toNat) s' with ⟨hle, d, h⟩ | ⟨hlt', d, h⟩ | ⟨k, d, hk, hkl, hal, hfd, h⟩
        · refine .inl ⟨by omega, e + d, ?_⟩
          rw [h, hframe, he, hpos, hcons, List.take_succ_cons, ← hrest, bitsToNat_cons,
            List.drop_drop]
          have : ((inRest s').take n).length = n := by
            rw [List.length_take, inRest_length]; omega
          rw [this, Nat.pow_succ]
          congr 1
          · congr 1; ring
          · congr 1; omega
        · refine .inr (.inl ⟨by omega, e + d, ?_⟩)
          rw [h, hframe, he, hpos, List.drop_drop]
          congr 2
          omega
        · refine .inr (.inr ⟨k + 1, e + d, by omega, by omega, by omega, ?_, ?_⟩)
          · rw [he, List.getElem?_drop] at hfd; exact hfd
          · rw [h, hframe, he, hpos, List.drop_drop]
            congr 2
            omega

/-- What ReadBits(n) can do, whatever the environment answers. -/
theorem readBits_cases (n : Nat) (s : State) :
    (n ≤ bitsLeft s ∧ ∃ d, readBits n s = .ok (some (bitsToNat ((inRest s).take n)))
          { s with inPos := s.inPos + n, fetchFails := s.fetchFails.drop d }) ∨
    (bitsLeft s < n ∧ ∃ d, readBits n s =
        .ok none { s with inPos := s.inPos + bitsLeft s, fetchFails := s.fetchFails.drop d }) ∨
    (∃ k d, k < n ∧ k ≤ bitsLeft s ∧ (s.inPos + k) % 8 = 0 ∧ s.fetchFails[d]? = some true ∧
      readBits n s =
        .raised .ioFailure { s with inPos := s.inPos + k, fetchFails := s.fetchFails.drop (d + 1) }) := by
  simpa [readBits] using readBitsFrom_cases n 0 s

/-- What ReadBit can do: the next bit of IN, EOF with nothing consumed, or IoFailure. -/
theorem readBit_cases (s : State) :
    (∃ b rest d, inRest s = b :: rest ∧ readBit s = .ok (some b)
        { s with inPos := s.inPos + 1, fetchFails := s.fetchFails.drop d }) ∨
    (bitsLeft s = 0 ∧ ∃ d, readBit s = .ok none { s with fetchFails := s.fetchFails.drop d }) ∨
    (∃ d, s.inPos % 8 = 0 ∧ s.fetchFails[d]? = some true ∧
      readBit s = .raised .ioFailure { s with fetchFails := s.fetchFails.drop (d + 1) }) := by
  rw [readBit_eq]
  by_cases hf : s.inPos % 8 = 0 ∧ s.fetchFails.head? = some true
  · refine .inr (.inr ⟨0, hf.1, ?_, ?_⟩)
    · rw [← List.head?_eq_getElem?]; exact hf.2
    · rw [if_pos hf]; simp [fetched, hf.1]
  · rw [if_neg hf]
    obtain ⟨e, he⟩ : ∃ e, fetched s = { s with fetchFails := s.fetchFails.drop e } :=
      ⟨if s.inPos % 8 = 0 then 1 else 0, by simp only [fetched]; split <;> simp⟩
    cases hb : (inBits s)[s.inPos]? with
    | none =>
      refine .inr (.inl ⟨?_, e, by simp [he]⟩)
      have h0 := List.getElem?_eq_none_iff.1 hb
      simp only [inBits, bytesBits_length] at h0
      simp only [bitsLeft]
      omega
    | some b =>
      obtain ⟨hlt, hb'⟩ := List.getElem?_eq_some_iff.1 hb
      exact .inl ⟨b, (inBits s).drop (s.inPos + 1), e,
        by rw [inRest, List.drop_eq_getElem_cons hlt, hb'], by simp [he]⟩

/-- ReadBit before, and at, the fetch that fails. -/
theorem readBit_failsAt {s : State} {p : Nat} {ds : List Bool} (h : fetchFailsAt s p ds) :
    (s.inPos = p ∧ readBit s = .raised .ioFailure { s with fetchFails := ds }) ∨
    (s.inPos < p ∧ ∃ b ff, inRest s = b :: (inBits s).drop (s.inPos + 1) ∧
      readBit s = .ok (some b) { s with inPos := s.inPos + 1, fetchFails := ff } ∧
      fetchFailsAt { s with inPos := s.inPos + 1, fetchFails := ff } p ds) := by
  obtain ⟨k, hk, hp, hl⟩ := h
  by_cases hz : s.inPos % 8 = 0 ∧ k = 0
  · refine .inl ⟨by omega, ?_⟩
    rw [readBit_eq, if_pos ⟨hz.1, by rw [hk, hz.2]; rfl⟩, fetched, if_pos hz.1, hk, hz.2]
    rfl
  · have hlt : s.inPos < p := by omega
    have hb : s.inPos < (inBits s).length := by simp only [inBits, bytesBits_length]; omega
    have hn : ¬ (s.inPos % 8 = 0 ∧ s.fetchFails.head? = some true) := by
      rintro ⟨h0, h1⟩
      obtain ⟨m, rfl⟩ : ∃ m, k = m + 1 := ⟨k - 1, by omega⟩
      rw [hk] at h1
      simp [List.replicate_succ] at h1
    refine .inr ⟨hlt, (inBits s)[s.inPos], _, List.drop_eq_getElem_cons hb,
      by rw [readBit_eq, if_neg hn, List.getElem?_eq_getElem hb]; rfl, ?_⟩
    by_cases h0 : s.inPos % 8 = 0
    · obtain ⟨m, rfl⟩ : ∃ m, k = m + 1 := ⟨k - 1, by omega⟩
      exact ⟨m, by simp [fetched, h0, hk, List.replicate_succ], by simp only; omega, hl⟩
    · exact ⟨k, by simp [fetched, h0, hk], by simp only; omega, hl⟩

theorem readBitsFrom_failsAt {p : Nat} {ds : List Bool} (n v : Nat) {s : State} (h : fetchFailsAt s p ds) :
    (p < s.inPos + n →
      readBitsFrom n v s = .raised .ioFailure { s with inPos := p, fetchFails := ds }) ∧
    (s.inPos + n ≤ p → ∃ ff,
      readBitsFrom n v s = .ok (some (v * 2 ^ n + bitsToNat ((inRest s).take n)))
        { s with inPos := s.inPos + n, fetchFails := ff } ∧
      fetchFailsAt { s with inPos := s.inPos + n, fetchFails := ff } p ds) := by
  induction n generalizing v s with
  | zero =>
    refine ⟨fun hp => ?_, fun _ => ⟨s.fetchFails, by simp [readBitsFrom], h⟩⟩
    obtain ⟨k, -, hk, -⟩ := h
    omega
  | succ n ih =>
    rw [readBitsFrom]
    rcases readBit_failsAt h with ⟨rfl, e⟩ | ⟨hlt, b, ff, hr, e, h'⟩
    · exact ⟨fun _ => by rw [e]; rfl, fun hp => by omega⟩
    · have hi := ih (2 * v + b.toNat) h'
      refine ⟨fun hp => ?_, fun hp => ?_⟩
      · rw [e]
        exact hi.1 (by simp only; omega)
      · obtain ⟨ff', e', h''⟩ := hi.2 (by simp only; omega)
        have hlen : ((inBits s).drop (s.inPos + 1)).length = bitsLeft s - 1 := by
          rw [← inRest_length, hr, List.length_cons]; omega
        have hbl : n ≤ bitsLeft s - 1 := by
          obtain ⟨k, -, -, hl⟩ := h
          simp only [bitsLeft]
          omega
        refine ⟨ff', ?_, ?_⟩
        · rw [e]
          refine e'.trans ?_
          rw [show inRest { s with inPos := s.inPos + 1, fetchFails := ff } = (inBits s).drop (s.inPos + 1) from rfl,
            hr, List.take_succ_cons, bitsToNat_cons, List.length_take, hlen, Nat.min_eq_left hbl, Nat.pow_succ]
          congr 1
          · congr 1; ring
          · simp only [State.mk.injEq, true_and, and_true]; omega
        · simpa only [Nat.add_assoc, Nat.add_comm 1 n] using h''

/-- ReadBits(n) on both sides of the fetch that fails. -/
theorem readBits_failsAt {p : Nat} {ds : List Bool} (n : Nat) {s : State} (h : fetchFailsAt s p ds) :
    (p < s.inPos + n → readBits n s = .raised .ioFailure { s with inPos := p, fetchFails := ds }) ∧
    (s.inPos + n ≤ p → ∃ ff, readBits n s = .ok (some (bitsToNat ((inRest s).take n)))
        { s with inPos := s.inPos + n, fetchFails := ff } ∧
      fetchFailsAt { s with inPos := s.inPos + n, fetchFails := ff } p ds) := by
  simpa [readBits] using readBitsFrom_failsAt n 0 h

/-- `t` differs from `s` at most in the reader's position and the draws of InFetch. -/
abbrev OnlyReader (s t : State) : Prop := t = { s with inPos := t.inPos, fetchFails := t.fetchFails }

/-- ReadBits touches only the reader, in every state. -/
theorem readBits_onlyReader {n : Nat} {s t : State}
    (h : (∃ r, readBits n s = .ok r t) ∨ ∃ k, readBits n s = .raised k t) : OnlyReader s t := by
  rcases readBits_cases n s with ⟨-, d, e⟩ | ⟨-, d, e⟩ | ⟨_, d, -, -, -, -, e⟩ <;> rw [e] at h <;>
    rcases h with ⟨r, h⟩ | ⟨k, h⟩ <;> cases h <;> rfl

/-- ReadBit touches only the reader, in every state. -/
theorem readBit_onlyReader {s t : State}
    (h : (∃ r, readBit s = .ok r t) ∨ ∃ k, readBit s = .raised k t) : OnlyReader s t := by
  rcases readBit_cases s with ⟨_, _, d, -, e⟩ | ⟨-, d, e⟩ | ⟨d, -, -, e⟩ <;> rw [e] at h <;>
    rcases h with ⟨r, h⟩ | ⟨k, h⟩ <;> cases h <;> rfl

theorem no_draw {l : List Bool} (h : l.all (fun d => !d) = true) {d : Nat} : l[d]? ≠ some true := by
  intro hd
  rw [List.all_eq_true] at h
  simpa using h true (List.mem_of_getElem? hd)

/-- ReadBits(n) on an environment whose fetches never fail. -/
theorem readBits_neverFail (n : Nat) {s : State} (hf : fetchesNeverFail s) :
    ∃ d, readBits n s =
      if n ≤ bitsLeft s then .ok (some (bitsToNat ((inRest s).take n)))
          { s with inPos := s.inPos + n, fetchFails := s.fetchFails.drop d }
      else .ok none { s with inPos := s.inPos + bitsLeft s, fetchFails := s.fetchFails.drop d } := by
  rcases readBits_cases n s with ⟨h, d, e⟩ | ⟨h, d, e⟩ | ⟨_, d, _, _, _, h, _⟩
  · exact ⟨d, by rw [if_pos h, e]⟩
  · exact ⟨d, by rw [if_neg (by omega), e]⟩
  · exact absurd h (no_draw hf)

end Sys2Proof.Machine
end

