-- ==== Sys2Proof/Laws/Writer.lean ====
section
/-!
SUPPORT. What the bit writer can do (40_bitstream R92, R93, R98).
-/

namespace Sys2Proof.Machine

/-- WBUF's bits below the pending ones are 0 (10_state R16). -/
abbrev wbufOk (s : State) : Prop := s.wbuf <<< s.wcnt.val = 0

/-- `t` differs from `s` at most in the writer's state, OUT, and the draws of OutPut. -/
abbrev OnlyWriter (s t : State) : Prop :=
  t = { s with out := t.out, wbuf := t.wbuf, wcnt := t.wcnt, putFails := t.putFails }

theorem OnlyWriter.trans {s t u : State} (h : OnlyWriter s t) (h' : OnlyWriter t u) : OnlyWriter s u := by
  rw [h] at h'
  exact h'

/-- One bit into the highest free position of WBUF (R92), case by case. -/
theorem wbuf_add : ∀ (c : Fin 8) (b : Bool) (w : Fin 256), BitVec.ofFin (w := 8) w <<< c.val = 0 →
    let w' : Byte := BitVec.ofFin w + BitVec.ofNat 8 (b.toNat * 2 ^ (7 - c.val))
    (byteBits w').take (c.val + 1) = (byteBits (BitVec.ofFin w)).take c.val ++ [b] ∧
      (c ≠ 7 → w' <<< (c.val + 1) = 0) := by
  decide +kernel

/-- WriteBit in one piece (P-R92). -/
theorem writeBit_eq (b : Bool) (s : State) : writeBit b s =
    if s.wcnt = 7 then
      if s.putFails.head? = some true then
        .raised .ioFailure { s with
          wbuf := s.wbuf + BitVec.ofNat 8 (b.toNat * 2 ^ (7 - s.wcnt.val)), putFails := s.putFails.tail }
      else .ok () { s with
        out := s.out ++ [s.wbuf + BitVec.ofNat 8 (b.toNat * 2 ^ (7 - s.wcnt.val))], wbuf := 0, wcnt := 0,
        putFails := s.putFails.tail }
    else .ok () { s with
      wbuf := s.wbuf + BitVec.ofNat 8 (b.toNat * 2 ^ (7 - s.wcnt.val)), wcnt := s.wcnt + 1 } := by
  unfold writeBit outPut
  by_cases h : s.wcnt = 7
  · by_cases hd : s.putFails.head? = some true <;> simp [h, hd]
  · simp [h]

/-- WriteBit touches only the writer, in every state. -/
theorem writeBit_onlyWriter {b : Bool} {s t : State}
    (h : writeBit b s = .ok () t ∨ ∃ k, writeBit b s = .raised k t) : OnlyWriter s t := by
  rw [writeBit_eq] at h
  split at h
  · split at h <;> simp at h <;> rw [OnlyWriter, ← h]
  · simp at h
    rw [OnlyWriter, ← h]

/-- What WriteBit can do: the bit is appended to the bits written so far; or the eighth bit completes a byte
that the environment refuses, and WBUF keeps the 8 bits. -/
theorem writeBit_cases (b : Bool) {s : State} (h : wbufOk s) :
    (∃ t, writeBit b s = .ok () t ∧ OnlyWriter s t ∧ wbufOk t ∧ outBits t = outBits s ++ [b] ∧
      ∃ d, t.putFails = s.putFails.drop d) ∨
    (∃ t, writeBit b s = .raised .ioFailure t ∧ OnlyWriter s t ∧ s.wcnt = 7 ∧ t.wcnt = 7 ∧
      t.out = s.out ∧ bytesBits t.out ++ byteBits t.wbuf = outBits s ++ [b] ∧
      s.putFails[0]? = some true) := by
  have hw := wbuf_add s.wcnt b s.wbuf.toFin h
  simp only [BitVec.ofFin_toFin] at hw
  obtain ⟨hbits, hz⟩ := hw
  rw [writeBit_eq]
  generalize s.wbuf + BitVec.ofNat 8 (b.toNat * 2 ^ (7 - s.wcnt.val)) = w' at *
  by_cases h7 : s.wcnt = 7
  · have hlen : (byteBits w').take (s.wcnt.val + 1) = byteBits w' := by
      apply List.take_of_length_le; simp [h7]
    rw [hlen] at hbits
    rw [if_pos h7]
    by_cases hd : s.putFails.head? = some true
    · rw [if_pos hd]
      refine .inr ⟨_, rfl, rfl, h7, h7, rfl, ?_, ?_⟩
      · simp [outBits, pending, hbits]
      · rw [← List.head?_eq_getElem?]; exact hd
    · rw [if_neg hd]
      refine .inl ⟨_, rfl, rfl, by simp [wbufOk], ?_, 1, by simp⟩
      simp [outBits, pending, hbits]
  · have hc : (s.wcnt + 1).val = s.wcnt.val + 1 := by
      have : s.wcnt.val ≠ 7 := fun e => h7 (Fin.ext e)
      omega
    rw [if_neg h7]
    refine .inl ⟨_, rfl, rfl, by simpa [wbufOk, hc] using hz h7, ?_, 0, by simp⟩
    simp [outBits, pending, hc, hbits]

/-- What writing a bit sequence can do: all of it is appended; or the environment refuses the byte that its
bit number `k` completes, and every byte before that one is in OUT. -/
theorem writeAll_cases (l : List Bool) {s : State} (h : wbufOk s) :
    (∃ t, writeAll l s = .ok () t ∧ OnlyWriter s t ∧ wbufOk t ∧ outBits t = outBits s ++ l ∧
      ∃ d, t.putFails = s.putFails.drop d) ∨
    (∃ (t : State) (k d : Nat), writeAll l s = .raised .ioFailure t ∧ OnlyWriter s t ∧ k < l.length ∧ t.wcnt = 7 ∧
      bytesBits t.out ++ byteBits t.wbuf = outBits s ++ l.take (k + 1) ∧
      s.putFails[d]? = some true) := by
  induction l generalizing s with
  | nil => exact .inl ⟨s, rfl, rfl, h, by simp, 0, by simp⟩
  | cons b l ih =>
    rw [writeAll]
    rcases writeBit_cases b h with ⟨t, e, ho, hw, hb, d, hd⟩ | ⟨t, e, ho, _, h7, _, hb, hd⟩
    · rw [e]
      simp only [Run.andThen]
      rcases ih hw with ⟨u, e', ho', hw', hb', d', hd'⟩ | ⟨u, k, d', e', ho', hk, h7, hb', hd'⟩
      · exact .inl ⟨u, e', ho.trans ho', hw', by simp [hb', hb], d + d',
          by rw [hd', hd, List.drop_drop]⟩
      · refine .inr ⟨u, k + 1, d + d', e', ho.trans ho', by simpa using hk, h7, ?_, ?_⟩
        · rw [hb', hb]; simp
        · rw [← hd', hd, List.getElem?_drop]
    · exact .inr ⟨t, 0, 0, by rw [e]; rfl, ho, by simp, h7, by simpa using hb, hd⟩

/-- Writing a bit sequence on an environment whose puts never fail. -/
theorem writeAll_neverFail (l : List Bool) {s : State} (h : wbufOk s) (hp : putsNeverFail s) :
    ∃ t, writeAll l s = .ok () t ∧ OnlyWriter s t ∧ wbufOk t ∧ outBits t = outBits s ++ l ∧
      putsNeverFail t := by
  rcases writeAll_cases l h with ⟨t, e, ho, hw, hb, d, hd⟩ | ⟨t, _, d, _, _, _, _, _, hd⟩
  · exact ⟨t, e, ho, hw, hb, by rw [putsNeverFail, hd]; exact neverFail_drop hp d⟩
  · exact absurd hd (no_draw hp)

/-- The bits written so far are the bytes of OUT and fewer than eight more. -/
theorem outBits_length (s : State) : (outBits s).length = 8 * s.out.length + s.wcnt.val := by
  simp [outBits, pending]

/-- OUT holds whole bytes of the bits written. -/
theorem bytesBits_out (s : State) : bytesBits s.out = (outBits s).take (8 * s.out.length) := by
  rw [outBits, List.take_append_of_le_length (by simp), List.take_of_length_le (by simp)]

/-- A put that fails when OUT holds `m` bytes is not behind the writer. -/
theorem putFailsAt_le {s : State} {m : Nat} {ds : List Bool} (h : putFailsAt s m ds) :
    (outBits s).length < 8 * (m + 1) := by
  obtain ⟨k, -, hm⟩ := h
  rw [outBits_length]
  omega

/-- WriteBit before, and at, the put that fails. -/
theorem writeBit_failsAt (b : Bool) {s : State} {m : Nat} {ds : List Bool} (hw : wbufOk s)
    (h : putFailsAt s m ds) :
    ((outBits s).length + 1 = 8 * (m + 1) ∧ ∃ t, writeBit b s = .raised .ioFailure t ∧ OnlyWriter s t ∧
      t.out.length = m ∧ t.wcnt = 7 ∧ t.putFails = ds ∧
      bytesBits t.out ++ byteBits t.wbuf = outBits s ++ [b]) ∨
    ((outBits s).length + 1 < 8 * (m + 1) ∧ ∃ t, writeBit b s = .ok () t ∧ OnlyWriter s t ∧ wbufOk t ∧
      outBits t = outBits s ++ [b] ∧ putFailsAt t m ds) := by
  obtain ⟨k, hk, hm⟩ := h
  have hl := outBits_length s
  have he := writeBit_eq b s
  rcases writeBit_cases b hw with ⟨t, e, ho, hwt, hb, -⟩ | ⟨t, e, ho, h7, h7', hout, hb, hd⟩
  · have hlt := outBits_length t
    rw [hb, List.length_append, List.length_singleton] at hlt
    rw [e] at he
    by_cases h7 : s.wcnt = 7
    · rw [if_pos h7] at he
      split at he
      · cases he
      · rename_i hd
        obtain ⟨j, rfl⟩ : ∃ j, k = j + 1 := by
          cases k with
          | zero => simp [hk] at hd
          | succ j => exact ⟨j, rfl⟩
        have h8 : s.wcnt.val = 7 := by rw [h7]; rfl
        refine .inr ⟨by omega, t, e, ho, hwt, hb, j, ?_, ?_⟩
        · cases he
          simp [hk, List.replicate_succ]
        · cases he
          simp
          omega
    · rw [if_neg h7] at he
      have h8 : s.wcnt.val ≠ 7 := fun e => h7 (Fin.ext e)
      refine .inr ⟨by omega, t, e, ho, hwt, hb, k, ?_, ?_⟩
      · cases he
        exact hk
      · cases he
        exact hm
  · have hk0 : k = 0 := by
      cases k with
      | zero => rfl
      | succ j => simp [hk, List.replicate_succ] at hd
    subst hk0
    have h8 : s.wcnt.val = 7 := by rw [h7]; rfl
    refine .inl ⟨by omega, t, e, ho, by rw [hout]; omega, h7', ?_, hb⟩
    rw [e, if_pos h7] at he
    split at he
    · cases he
      simp [hk]
    · cases he

/-- Writing a bit sequence on both sides of the put that fails. -/
theorem writeAll_failsAt (l : List Bool) {s : State} {m : Nat} {ds : List Bool} (hw : wbufOk s)
    (h : putFailsAt s m ds) :
    (8 * (m + 1) ≤ (outBits s ++ l).length → ∃ t, writeAll l s = .raised .ioFailure t ∧ OnlyWriter s t ∧
      t.wcnt = 7 ∧ t.putFails = ds ∧ t.out.length = m ∧
      bytesBits t.out = (outBits s ++ l).take (8 * m) ∧
      byteBits t.wbuf = ((outBits s ++ l).drop (8 * m)).take 8) ∧
    ((outBits s ++ l).length < 8 * (m + 1) → ∃ t, writeAll l s = .ok () t ∧ OnlyWriter s t ∧ wbufOk t ∧
      outBits t = outBits s ++ l ∧ putFailsAt t m ds) := by
  induction l generalizing s with
  | nil =>
    have := putFailsAt_le h
    exact ⟨fun hl => by simp at hl; omega, fun _ => ⟨s, rfl, rfl, hw, by simp, h⟩⟩
  | cons b l ih =>
    rw [writeAll]
    rcases writeBit_failsAt b hw h with ⟨h8, t, e, ho, hm, h7, hd, hb⟩ | ⟨h8, t, e, ho, hwt, hb, h'⟩
    · refine ⟨fun _ => ⟨t, by rw [e]; rfl, ho, h7, hd, hm, ?_, ?_⟩, fun hl => by simp at hl; omega⟩
      · rw [List.append_cons, ← hb, List.append_assoc,
          List.take_append_of_le_length (by simp [hm]), List.take_of_length_le (by simp [hm])]
      · rw [List.append_cons, ← hb, List.append_assoc,
          List.drop_append_of_le_length (by simp [hm]), List.drop_of_length_le (by simp [hm]), List.nil_append,
          List.take_append_of_le_length (by simp), List.take_of_length_le (by simp)]
    · have hc : outBits s ++ b :: l = outBits t ++ l := by rw [hb, List.append_assoc]; rfl
      rw [hc, e]
      simp only [Run.andThen]
      refine ⟨fun hl => ?_, fun hl => ?_⟩
      · obtain ⟨u, e', ho', hrest⟩ := (ih hwt h').1 hl
        exact ⟨u, e', ho.trans ho', hrest⟩
      · obtain ⟨u, e', ho', hrest⟩ := (ih hwt h').2 hl
        exact ⟨u, e', ho.trans ho', hrest⟩

/-- Writing a bit sequence only adds to OUT, on any environment, and what OUT then holds is a beginning of what
was to be written. -/
theorem writeAll_out (l : List Bool) {s t : State} (hw : wbufOk s)
    (h : writeAll l s = .ok () t ∨ ∃ k, writeAll l s = .raised k t) :
    s.out <+: t.out ∧ bytesBits t.out <+: outBits s ++ l := by
  induction l generalizing s with
  | nil =>
    simp only [writeAll, Run.ok.injEq, true_and, reduceCtorEq, exists_false, or_false] at h
    subst h
    refine ⟨List.prefix_rfl, ?_⟩
    rw [List.append_nil]
    exact List.prefix_append _ _
  | cons b l ih =>
    have hc : outBits s ++ b :: l = (outBits s ++ [b]) ++ l := by simp
    rw [writeAll] at h
    rcases writeBit_cases b hw with ⟨u, e, -, hwu, hb, -⟩ | ⟨u, e, -, -, -, hout, hb, -⟩
    · rw [e] at h
      obtain ⟨h1, h2⟩ := ih hwu h
      refine ⟨List.IsPrefix.trans ?_ h1, by rw [hc, ← hb]; exact h2⟩
      have he := writeBit_eq b s
      rw [e] at he
      split at he
      · split at he
        · cases he
        · cases he
          exact List.prefix_append _ _
      · cases he
        exact List.prefix_rfl
    · rw [e] at h
      simp only [Run.andThen, reduceCtorEq, Run.raised.injEq, false_or] at h
      obtain ⟨_, _, rfl⟩ := h
      refine ⟨by rw [hout], ?_⟩
      rw [hc, ← hb, List.append_assoc]
      exact List.prefix_append _ _

/-- Writing a bit sequence touches only the writer, in every state. -/
theorem writeAll_onlyWriter {l : List Bool} {s t : State}
    (h : writeAll l s = .ok () t ∨ ∃ k, writeAll l s = .raised k t) : OnlyWriter s t := by
  induction l generalizing s with
  | nil =>
    simp only [writeAll, Run.ok.injEq, true_and, reduceCtorEq, exists_false, or_false] at h
    rw [h]
  | cons b l ih =>
    rw [writeAll] at h
    cases hw : writeBit b s with
    | ok u t' =>
      rw [hw] at h
      exact (writeBit_onlyWriter (.inl hw)).trans (ih h)
    | raised k t' =>
      rw [hw] at h
      simp only [Run.andThen, reduceCtorEq, Run.raised.injEq, false_or] at h
      obtain ⟨_, _, rfl⟩ := h
      exact writeBit_onlyWriter (.inr ⟨k, hw⟩)
    | hang => rw [hw] at h; simp [Run.andThen] at h

theorem writeAll_append (a b : List Bool) (s : State) :
    writeAll (a ++ b) s = (writeAll a s).andThen fun _ s => writeAll b s := by
  induction a generalizing s with
  | nil => rfl
  | cons x a ih =>
    simp only [List.cons_append, writeAll]
    cases writeBit x s with
    | ok _ t => simp only [Run.andThen]; rw [ih]; rfl
    | raised => rfl
    | hang => rfl

theorem flush_pad : ∀ (c : Fin 8) (w : Fin 256), BitVec.ofFin (w := 8) w <<< c.val = 0 → c ≠ 0 →
    byteBits (BitVec.ofFin w) =
      (byteBits (BitVec.ofFin w)).take c.val ++ List.replicate (8 - c.val) false := by
  decide +kernel

/-- What FLUSH's body can do (R98): nothing pending, only closed; the pending byte put out, zero padded, and
closed; or refused, and the writer as it was. -/
theorem flushWriter_cases {s : State} (h : wbufOk s) :
    (s.wcnt = 0 ∧ flushWriter s = .ok () { s with wOpen := false }) ∨
    (s.wcnt ≠ 0 ∧ flushWriter s = .ok ()
        { s with out := s.out ++ [s.wbuf], wbuf := 0, wcnt := 0, wOpen := false,
                 putFails := s.putFails.tail } ∧
      bytesBits (s.out ++ [s.wbuf]) = outBits s ++ List.replicate (8 - s.wcnt.val) false) ∨
    (s.wcnt ≠ 0 ∧ s.putFails[0]? = some true ∧
      flushWriter s = .raised .ioFailure { s with putFails := s.putFails.tail }) := by
  unfold flushWriter outPut
  by_cases h0 : s.wcnt = 0
  · exact .inl ⟨h0, by simp [h0]⟩
  · have hp := flush_pad s.wcnt s.wbuf.toFin h h0
    simp only [BitVec.ofFin_toFin] at hp
    simp only [h0, if_false]
    by_cases hd : s.putFails.head? = some true
    · refine .inr (.inr ⟨h0, ?_, by rw [if_pos hd]⟩)
      rw [← List.head?_eq_getElem?]; exact hd
    · refine .inr (.inl ⟨h0, by rw [if_neg hd], ?_⟩)
      simp only [bytesBits_append, bytesBits_cons, bytesBits_nil, List.append_nil, outBits, pending,
        List.append_assoc]
      rw [← hp]

end Sys2Proof.Machine
end

