-- ==== Sys2Proof/Laws/Commands.lean ====
section
/-!
SUPPORT. What every command is passed through (46_control R185, R191), and how the pieces of a command
compose.
-/

namespace Sys2Proof.Machine

@[simp] theorem andThen_ok {α β : Type} (a : α) (s : State) (f : α → State → Run β) :
    (Run.ok a s).andThen f = f a s := rfl

@[simp] theorem andThen_raised {α β : Type} (k : ErrKind) (s : State) (f : α → State → Run β) :
    (Run.raised k s).andThen f = .raised k s := rfl

@[simp] theorem andThen_hang {α β : Type} (f : α → State → Run β) :
    (Run.hang : Run α).andThen f = .hang := rfl

theorem andThen_assoc {α β γ : Type} (r : Run α) (f : α → State → Run β) (g : β → State → Run γ) :
    (r.andThen f).andThen g = r.andThen fun a s => (f a s).andThen g := by
  cases r <;> rfl

@[simp] theorem finish_ok (s : State) : finish (.ok () s) = .next s := rfl

@[simp] theorem finish_raised (k : ErrKind) (s : State) : finish (.raised k s) = .next (raise k s) := rfl

/-- A piece of a command that reached a next state ended there or raised an error there. -/
theorem finish_next {r : Run Unit} {t : State} (h : finish r = .next t) :
    r = .ok () t ∨ ∃ k s, r = .raised k s ∧ t = raise k s := by
  cases r with
  | ok a s => simp only [finish, Host.Outcome.next.injEq] at h; exact .inl (by rw [h])
  | raised k s => simp only [finish, Host.Outcome.next.injEq] at h; exact .inr ⟨k, s, rfl, h.symm⟩
  | hang => simp [finish] at h

/-- Between commands there is no hidden state to drop (10_state R24). -/
theorem raise_of_hdr {s : State} (h : s.hdr = none) (k : ErrKind) : raise k s = { s with err := some k } := by
  rw [raise, ← h]

/-- Between commands and free of error, a command raises IllegalCommand or runs its body. -/
theorem command_idle {s : State} (h : idle s) (ready : Bool) (body : State → Run Unit) :
    command ready s body =
      if ready then finish (body s) else .next { s with err := some .illegalCommand } := by
  simp [command, gate, whenIdle, h.1, h.2, raise_of_hdr h.1]

/-- The error gate: between commands, with an error set, a command does nothing. -/
theorem command_gated {s : State} (h : s.hdr = none) (he : s.err ≠ none) (ready : Bool)
    (body : State → Run Unit) : command ready s body = .next s := by
  obtain ⟨k, hk⟩ := Option.ne_none_iff_exists'.1 he
  simp [command, gate, whenIdle, h, hk]

/-- A command issued while another runs is refused. -/
theorem command_busy {s : State} {h : HdrRead} (hs : s.hdr = some h) (ready : Bool)
    (body : State → Run Unit) : command ready s body = .refused .commandWhileBusy := by
  simp [command, gate, whenIdle, hs]

/-- Everything a command can do: it is gated, refused with IllegalCommand, or its body runs. -/
theorem command_next {ready : Bool} {s t : State} {body : State → Run Unit}
    (h : command ready s body = .next t) :
    s.hdr = none ∧
      ((s.err ≠ none ∧ t = s) ∨
        (s.err = none ∧ ready = false ∧ t = { s with err := some .illegalCommand }) ∨
        (s.err = none ∧ ready = true ∧ finish (body s) = .next t)) := by
  cases hh : s.hdr with
  | some x => rw [command_busy hh] at h; cases h
  | none =>
    refine ⟨rfl, ?_⟩
    cases he : s.err with
    | some k =>
      rw [command_gated hh (by simp [he])] at h
      cases h
      exact .inl ⟨by simp, rfl⟩
    | none =>
      rw [command_idle ⟨hh, he⟩] at h
      cases ready
      · exact .inr (.inl ⟨rfl, rfl, by simpa [hh] using h.symm⟩)
      · exact .inr (.inr ⟨rfl, rfl, by simpa using h⟩)

/-- Every command but CLR is passed through the gate, the legality check and its precondition. -/
theorem exec_eq_command {i : Instr} (hc : i.isCommand = true) (hi : i ≠ .clr) (s : State) :
    ∃ ready body, exec i s = command ready s body := by
  cases i <;> simp [Instr.isCommand] at hc hi
  all_goals
    simp only [exec, execRewind, execRdbit, execRdbits, execWrbit, execWrbits, execFlush, execFreq,
      execBuild, execMktab, execWrhdr, execEncode, execRdhdr, execDecode]
    exact ⟨_, _, rfl⟩

/-- CLR between commands. -/
theorem exec_clr {s : State} (h : s.hdr = none) : exec .clr s = .next (clear s) := by
  simp [exec, execClr, whenIdle, h]

/-- A header token outside a header read is refused. -/
theorem exec_token_outside {i : Instr} (hc : i.isCommand = false) {s : State} (h : s.hdr = none) :
    exec i s = .refused .tokenOutsideHeader := by
  cases i <;> simp [Instr.isCommand] at hc <;> simp [exec, execHdrLeaf, execHdrNode, tokenStep, h]

end Sys2Proof.Machine
end

