-- ==== Sys2Proof/Laws/Decode.lean ====
section
/-!
SUPPORT. The fields of a command word and what the decoder reads from them (30_encoding R60 to R64, R75).
-/

namespace Sys2Proof

/-! ### Fields as numbers -/

theorem opField_toNat (w : CmdWord) : (opField w).toNat = w.toNat / 2 ^ 40 := by
  have := w.isLt
  simp [opField, Nat.shiftRight_eq_div_pow]
  omega

theorem zField_toNat (w : CmdWord) : (zField w).toNat = w.toNat / 2 ^ 38 % 4 := by
  simp [zField, Nat.shiftRight_eq_div_pow]

theorem nField_toNat (w : CmdWord) : (nField w).toNat = w.toNat / 2 ^ 32 % 64 := by
  simp [nField, Nat.shiftRight_eq_div_pow]

theorem vField_toNat (w : CmdWord) : (vField w).toNat = w.toNat % 2 ^ 32 := by
  simp [vField]

/-- A word is its four fields. -/
theorem word_split (w : CmdWord) : w.toNat =
    (opField w).toNat * 2 ^ 40 + (zField w).toNat * 2 ^ 38 + (nField w).toNat * 2 ^ 32 +
      (vField w).toNat := by
  rw [opField_toNat, zField_toNat, nField_toNat, vField_toNat]
  omega

theorem bitVec_eq_zero {n : Nat} (v : BitVec n) : v = 0 ↔ v.toNat = 0 := by
  constructor
  · rintro rfl; simp
  · intro h; apply BitVec.eq_of_toNat_eq; simpa using h

theorem countLegal_iff (n : BitVec 6) : countLegal n = true ↔ 1 ≤ n.toNat ∧ n.toNat ≤ 32 := by
  simp [countLegal]

/-! ### Packing -/

theorem packWord_toNat {op n v : Nat} (h1 : op < 256) (h2 : n < 64) (h3 : v < 2 ^ 32) :
    (packWord op n v).toNat = op * 2 ^ 40 + n * 2 ^ 32 + v := by
  simp only [packWord, BitVec.toNat_ofNat]
  omega

/-- The fields of a packed word. -/
theorem packWord_fields {op n v : Nat} (h1 : op < 256) (h2 : n < 64) (h3 : v < 2 ^ 32) :
    opField (packWord op n v) = BitVec.ofNat 8 op ∧ zField (packWord op n v) = 0 ∧
      nField (packWord op n v) = BitVec.ofNat 6 n ∧ vField (packWord op n v) = BitVec.ofNat 32 v := by
  have := packWord_toNat h1 h2 h3
  refine ⟨?_, ?_, ?_, ?_⟩ <;> apply BitVec.eq_of_toNat_eq
  · rw [opField_toNat, this]; simp; omega
  · rw [zField_toNat, this]; simp; omega
  · rw [nField_toNat, this]; simp; omega
  · rw [vField_toNat, this]; simp; omega

/-- A word whose Z is 00 is the packing of its fields. -/
theorem word_eq_packWord (w : CmdWord) (hz : zField w = 0) :
    w = packWord (opField w).toNat (nField w).toNat (vField w).toNat := by
  apply BitVec.eq_of_toNat_eq
  rw [packWord_toNat (opField w).isLt (nField w).isLt (vField w).isLt, word_split w, hz]
  simp

/-! ### The decoder -/

/-- What a word's OP selects: nothing, a format C0 command, or one of the three with operands (R62). -/
theorem decodeOp_cases (w : CmdWord) :
    ((opField w).toNat ∉
        [0x01, 0x02, 0x10, 0x11, 0x12, 0x13, 0x14, 0x20, 0x21, 0x22, 0x23, 0x24, 0x28, 0x29] ∧
      decodeOp w = .error .unassignedOp) ∨
    (∃ p ∈ [(0x01, Instr.clr), (0x02, .rewind), (0x10, .rdbit), (0x14, .flush), (0x20, .freq),
        (0x21, .build), (0x22, .mktab), (0x23, .wrhdr), (0x24, .encode), (0x28, .rdhdr),
        (0x29, .decode)], (opField w).toNat = p.1 ∧ decodeOp w = formatC0 w p.2) ∨
    ((opField w).toNat = 0x11 ∧ decodeOp w = formatCN w .rdbits) ∨
    ((opField w).toNat = 0x12 ∧ decodeOp w = formatCB w .wrbit) ∨
    ((opField w).toNat = 0x13 ∧ decodeOp w = formatCNV w .wrbits) := by
  unfold decodeOp
  split
  case h_15 =>
    left
    refine ⟨?_, rfl⟩
    simp only [List.mem_cons, List.not_mem_nil, or_false]
    intro hh
    rcases hh with h | h | h | h | h | h | h | h | h | h | h | h | h | h <;> simp_all
  all_goals (rename_i h; simp [h])

/-- A leaf token with its 9 symbol bits, whatever follows (R65). -/
theorem decodeBits_leaf {f : BitVec 9} (h : f.toNat ≤ 256) (rest : List Bool) :
    decodeBits (false :: natToBits symW f.toNat ++ rest) = .ok (.hdrLeaf f, rest) := by
  simp only [decodeBits, List.cons_append]
  rw [if_neg (by simp), List.take_append_of_le_length (by simp), List.take_of_length_le (by simp),
    bitsToNat_natToBits, Nat.mod_eq_of_lt f.isLt]
  simp [decodeToken, h, Token.instr]

/-- What the first token of a bit sequence can be (R65 to R67, R72). -/
theorem decodeBits_ok {bits rest : List Bool} {i : Instr} (h : decodeBits bits = .ok (i, rest)) :
    (i = .hdrNode ∧ bits = true :: rest) ∨
      ∃ f : BitVec 9, i = .hdrLeaf f ∧ f.toNat ≤ 256 ∧ bits = false :: (natToBits symW f.toNat ++ rest) := by
  match bits with
  | [] => simp [decodeBits] at h
  | true :: l => simp [decodeBits] at h; exact .inl ⟨h.1.symm, by rw [h.2]⟩
  | false :: l =>
    simp only [decodeBits] at h
    split at h
    · cases h
    · rename_i hl
      have hlen : (l.take symW).length = symW := by simp; omega
      have hlt := bitsToNat_lt (l.take symW)
      rw [hlen] at hlt
      have hn : (BitVec.ofNat 9 (bitsToNat (l.take symW))).toNat = bitsToNat (l.take symW) := by
        rw [BitVec.toNat_ofNat]; exact Nat.mod_eq_of_lt hlt
      simp only [decodeToken, Bool.false_eq_true, if_false, hn] at h
      split at h
      · rename_i t ht
        split at ht
        · rename_i hle
          cases ht
          simp only [Token.instr, Except.ok.injEq, Prod.mk.injEq] at h
          refine .inr ⟨_, h.1.symm, by rw [hn]; exact hle, ?_⟩
          have := natToBits_bitsToNat (l.take symW)
          rw [hlen] at this
          rw [hn, this, ← h.2, List.take_append_drop]
        · cases ht
      · cases h

end Sys2Proof
end

