-- ==== Sys2Proof/Laws/Frequency.lean ====
section
/-!
SUPPORT. Byte groups, and what the loop of FREQ can do (41_frequency R110 to R115).
-/

namespace Sys2Proof.Machine

/-! ### Byte groups -/

theorem byteGroups_short {l : List Bool} (h : l.length < 8) : byteGroups l = [] := by
  match l with
  | [] | [_] | [_, _] | [_, _, _] | [_, _, _, _] | [_, _, _, _, _] | [_, _, _, _, _, _]
  | [_, _, _, _, _, _, _] => rfl
  | _ :: _ :: _ :: _ :: _ :: _ :: _ :: _ :: _ => simp at h; omega

theorem byteGroups_step {l : List Bool} (h : 8 ≤ l.length) :
    byteGroups l = bitsToNat (l.take 8) :: byteGroups (l.drop 8) := by
  match l with
  | [] | [_] | [_, _] | [_, _, _] | [_, _, _, _] | [_, _, _, _, _] | [_, _, _, _, _, _]
  | [_, _, _, _, _, _, _] => simp at h
  | _ :: _ :: _ :: _ :: _ :: _ :: _ :: _ :: _ => rfl

/-- Whole bytes followed by fewer than 8 bits: the groups are the bytes. -/
theorem byteGroups_bytesBits (l : List Byte) {x : List Bool} (hx : x.length < 8) :
    byteGroups (bytesBits l ++ x) = l.map BitVec.toNat := by
  induction l with
  | nil => exact byteGroups_short hx
  | cons b l ih =>
    rw [bytesBits_cons, List.append_assoc, byteGroups_step (by simp), List.take_append_of_le_length (by simp),
      List.drop_append_of_le_length (by simp), List.take_of_length_le (by simp),
      List.drop_of_length_le (by simp), List.nil_append, ih, bitsToNat_byteBits, List.map_cons]

theorem byteGroups_lt (l : List Bool) : ∀ g ∈ byteGroups l, g < 256 := by
  induction h : l.length using Nat.strong_induction_on generalizing l with
  | _ n ih =>
    by_cases h8 : l.length < 8
    · simp [byteGroups_short h8]
    · rw [byteGroups_step (by omega)]
      intro g hg
      rcases List.mem_cons.1 hg with rfl | hg
      · have := bitsToNat_lt (l.take 8)
        rw [show (l.take 8).length = 8 by simp; omega] at this
        exact this
      · exact ih _ (by simp; omega) (l.drop 8) rfl g hg

/-! ### Counting -/

/-- The counters after counting a sequence of byte values. -/
def countAll (l : List Nat) (h : List (Nat × Nat)) : List (Nat × Nat) :=
  l.foldl (fun h b => histWrite h b (histRead h b + 1)) h

@[simp] theorem countAll_nil (h : List (Nat × Nat)) : countAll [] h = h := rfl

@[simp] theorem countAll_cons (b : Nat) (l : List Nat) (h : List (Nat × Nat)) :
    countAll (b :: l) h = countAll l (histWrite h b (histRead h b + 1)) := rfl

theorem histRead_countAll (l : List Nat) (h : List (Nat × Nat)) (b : Nat) :
    histRead (countAll l h) b = histRead h b + l.count b := by
  induction l generalizing h with
  | nil => rfl
  | cons x l ih =>
    rw [countAll_cons, ih, histRead_write_succ, List.count_cons]
    by_cases hx : b = x
    · subst hx
      simp
      omega
    · rw [if_neg hx]
      simp [Ne.symm hx]

theorem countAll_wf (l : List Nat) {h : List (Nat × Nat)} (hw : histWf h = true)
    (hl : ∀ b ∈ l, b < 256) : histWf (countAll l h) = true := by
  induction l generalizing h with
  | nil => exact hw
  | cons x l ih =>
    exact ih (histWrite_wf hw (hl x List.mem_cons_self) _) fun b hb => hl b (List.mem_cons_of_mem _ hb)

/-- A full counter has no room for one more. -/
theorem counterFull_overflows {cfg : Config} {c : Nat} (h : counterFull cfg c = true) :
    weightOverflows cfg (c + 1) = true := by
  unfold counterFull at h
  unfold weightOverflows
  split at h
  · cases h
  · simp only [decide_eq_true_eq] at h ⊢
    omega

/-- No counter is full when its byte comes, in a sequence of byte values counted into `h`. -/
def roomFor (cfg : Config) : List Nat → List (Nat × Nat) → Prop
  | [], _ => True
  | x :: l, h => counterFull cfg (histRead h x) = false ∧ roomFor cfg l (countAll [x] h)

/-- Where every byte finds room the final counts fit, and no counter was above its final value. -/
theorem roomFor_of_fits {cfg : Config} {l : List Nat} {h : List (Nat × Nat)}
    (hf : ∀ b ∈ l, weightOverflows cfg (histRead h b + l.count b) = false) : roomFor cfg l h := by
  induction l generalizing h with
  | nil => trivial
  | cons x l ih =>
    refine ⟨?_, ih fun b hb => ?_⟩
    · have := hf x List.mem_cons_self
      rw [Bool.eq_false_iff] at *
      intro hc
      apply this
      have hc := counterFull_overflows hc
      unfold weightOverflows at *
      split at hc
      · cases hc
      · simp only [decide_eq_true_eq, List.count_cons_self] at hc ⊢
        omega
    · have := hf b (List.mem_cons_of_mem _ hb)
      rw [histRead_countAll]
      rw [← this]
      congr 1
      rw [List.count_cons, List.count_cons, List.count_nil]
      omega

theorem roomFor_append {cfg : Config} {l m : List Nat} {h : List (Nat × Nat)} :
    roomFor cfg (l ++ m) h ↔ roomFor cfg l h ∧ roomFor cfg m (countAll l h) := by
  induction l generalizing h with
  | nil => simp [roomFor]
  | cons x l ih => simp only [List.cons_append, roomFor, ih, countAll_cons, countAll_nil, and_assoc]

/-- There is one first byte that finds no room. -/
theorem roomFor_first {cfg : Config} {l m l' m' : List Nat} {x y : Nat} {h : List (Nat × Nat)}
    (e : l ++ x :: l' = m ++ y :: m') (hl : roomFor cfg l h)
    (hx : counterFull cfg (histRead (countAll l h) x) = true) (hm : roomFor cfg m h)
    (hy : counterFull cfg (histRead (countAll m h) y) = true) : l = m ∧ x = y := by
  induction l generalizing m h with
  | nil =>
    cases m with
    | nil => simp at e; exact ⟨rfl, e.1⟩
    | cons z m =>
      simp only [List.nil_append, List.cons_append, List.cons.injEq] at e
      rw [← e.1] at hm
      exact absurd hx (by rw [countAll_nil, hm.1]; simp)
  | cons z l ih =>
    cases m with
    | nil =>
      simp only [List.nil_append, List.cons_append, List.cons.injEq] at e
      rw [e.1] at hl
      exact absurd hy (by rw [countAll_nil, hl.1]; simp)
    | cons z' m =>
      simp only [List.cons_append, List.cons.injEq] at e
      obtain ⟨rfl, e⟩ := e
      obtain ⟨h1, h2⟩ := ih e hl.2 hx hm.2 hy
      exact ⟨by rw [h1], h2⟩

/-! ### The loop -/

/-- Everything FREQ's loop can do: count every byte group left; or stop at a full counter, its byte read and
not counted; or stop at a fetch that fails, the groups before it counted. -/
theorem freqLoop_cases {n : Nat} {s : State} (hn : bitsLeft s < n) :
    (roomFor s.cfg (byteGroups (inRest s)) s.hist ∧ ∃ d, freqLoop n s = .ok () { s with
        hist := countAll (byteGroups (inRest s)) s.hist, inPos := s.inPos + bitsLeft s,
        fetchFails := s.fetchFails.drop d }) ∨
    (∃ l x l' d, byteGroups (inRest s) = l ++ x :: l' ∧ roomFor s.cfg l s.hist ∧
      counterFull s.cfg (histRead (countAll l s.hist) x) = true ∧
      freqLoop n s = .raised .counterOverflow { s with
        hist := countAll l s.hist, inPos := s.inPos + 8 * (l.length + 1),
        fetchFails := s.fetchFails.drop d }) ∨
    (∃ l l' k d, byteGroups (inRest s) = l ++ l' ∧ roomFor s.cfg l s.hist ∧ k < 8 ∧ 8 * l.length + k ≤ bitsLeft s ∧
      s.fetchFails[d]? = some true ∧
      freqLoop n s = .raised .ioFailure { s with
        hist := countAll l s.hist, inPos := s.inPos + (8 * l.length + k),
        fetchFails := s.fetchFails.drop (d + 1) }) := by
  induction n generalizing s with
  | zero => omega
  | succ n ih =>
    rw [freqLoop]
    rcases readBits_cases 8 s with ⟨h8, d, e⟩ | ⟨h8, d, e⟩ | ⟨k, d, hk, hkb, -, hd, e⟩
    · rw [e, andThen_ok]
      have hg := byteGroups_step (l := inRest s) (by simpa using h8)
      simp only [countByte]
      by_cases hf : counterFull s.cfg (histRead s.hist (bitsToNat ((inRest s).take 8))) = true
      · exact .inr (.inl ⟨[], _, _, d, hg, trivial, hf, by rw [if_pos hf]; rfl⟩)
      · rw [if_neg hf, andThen_ok]
        generalize hs' : ({ s with
          hist := histWrite s.hist (bitsToNat ((inRest s).take 8))
            (histRead s.hist (bitsToNat ((inRest s).take 8)) + 1)
          inPos := s.inPos + 8, fetchFails := s.fetchFails.drop d } : State) = s'
        have hr : inRest s' = (inRest s).drop 8 := by
          subst hs'; simp [inRest, inBits, List.drop_drop]
        have hb : bitsLeft s' = bitsLeft s - 8 := by
          rw [← inRest_length, hr, List.length_drop, inRest_length]
        rw [← hr] at hg
        have hh : s'.hist = histWrite s.hist (bitsToNat ((inRest s).take 8))
            (histRead s.hist (bitsToNat ((inRest s).take 8)) + 1) := by subst hs'; rfl
        have hp : s'.inPos = s.inPos + 8 := by subst hs'; rfl
        have hff : s'.fetchFails = s.fetchFails.drop d := by subst hs'; rfl
        have hcfg : s'.cfg = s.cfg := by subst hs'; rfl
        rw [Bool.not_eq_true] at hf
        rcases ih (s := s') (by omega) with ⟨hr', d', e'⟩ | ⟨l, x, l', d', hl, hr', hc, e'⟩ |
          ⟨l, l', k, d', hl, hr', hk, hkb, hd', e'⟩
        · refine .inl ⟨?_, d + d', ?_⟩
          · rw [hg]
            exact ⟨hf, by rw [countAll_cons, countAll_nil, ← hh, ← hcfg]; exact hr'⟩
          rw [e', hg, countAll_cons, ← hh, hp, hff, hb, List.drop_drop]
          subst hs'
          simp only [Run.ok.injEq, true_and]
          congr 1
          omega
        · refine .inr (.inl ⟨_ :: l, x, l', d + d', by rw [hg, hl]; rfl, ?_, ?_, ?_⟩)
          · exact ⟨hf, by rw [countAll_cons, countAll_nil, ← hh, ← hcfg]; exact hr'⟩
          · rw [countAll_cons, ← hh, ← hcfg]; exact hc
          · rw [e', countAll_cons, ← hh, hp, hff, List.drop_drop]
            subst hs'
            simp only [Run.raised.injEq, true_and, List.length_cons]
            congr 1
            omega
        · refine .inr (.inr ⟨_ :: l, l', k, d + d', by rw [hg, hl]; rfl, ?_, hk, ?_, ?_, ?_⟩)
          · exact ⟨hf, by rw [countAll_cons, countAll_nil, ← hh, ← hcfg]; exact hr'⟩
          · simp only [List.length_cons]; omega
          · rw [← hd', hff, List.getElem?_drop]
          · rw [e', countAll_cons, ← hh, hp, hff, List.drop_drop]
            subst hs'
            simp only [Run.raised.injEq, true_and, List.length_cons]
            congr 1
            omega
    · rw [byteGroups_short (by simpa using h8)]
      exact .inl ⟨trivial, d, by rw [e, andThen_ok]; rfl⟩
    · refine .inr (.inr ⟨[], _, k, d, rfl, trivial, hk, by simpa using hkb, hd, ?_⟩)
      rw [e, andThen_raised]
      simp

/-- FREQ's loop where the reader's next FAIL meets it at `p`: the groups that end there or before are counted. -/
theorem freqLoop_failsAt {n p : Nat} {ds : List Bool} {s : State} (hn : bitsLeft s < n)
    (h : fetchFailsAt s p ds) (hr : roomFor s.cfg (byteGroups ((inRest s).take (p - s.inPos))) s.hist) :
    freqLoop n s = .raised .ioFailure { s with
      hist := countAll (byteGroups ((inRest s).take (p - s.inPos))) s.hist, inPos := p, fetchFails := ds } := by
  induction n generalizing s with
  | zero => omega
  | succ n ih =>
    have hb : p ≤ 8 * s.input.length ∧ s.inPos ≤ p := by
      obtain ⟨k, -, hk, hl⟩ := h; omega
    have hlen : ((inRest s).take (p - s.inPos)).length = p - s.inPos := by
      rw [List.length_take, inRest_length, bitsLeft]; omega
    rw [freqLoop]
    by_cases h8 : p < s.inPos + 8
    · rw [(readBits_failsAt 8 h).1 h8, andThen_raised, byteGroups_short (by omega), countAll_nil]
    · obtain ⟨ff, e, h'⟩ := (readBits_failsAt 8 h).2 (by omega)
      have hg := byteGroups_step (l := (inRest s).take (p - s.inPos)) (by omega)
      rw [List.take_take, Nat.min_eq_left (by omega), List.drop_take] at hg
      rw [hg] at hr ⊢
      rw [e, andThen_ok]
      simp only [countByte]
      rw [if_neg (by rw [hr.1]; simp), andThen_ok]
      have hd : (inRest s).drop 8 = (inBits s).drop (s.inPos + 8) := by rw [inRest, List.drop_drop]
      have hs : p - s.inPos - 8 = p - (s.inPos + 8) := by omega
      rw [hd, hs] at hr ⊢
      exact ih (by simp only [bitsLeft] at *; omega) h' hr.2

end Sys2Proof.Machine
end

