-- ==== Sys2Proof/Laws/Encoder.lean ====
section
/-!
SUPPORT. Code sequences, and what the loop of ENCODE can do (44_encode R160 to R162).
-/

namespace Sys2Proof.Machine

/-! ### Code sequences -/

theorem codesOf_cons_some {c : List (Nat × List Bool)} {x : Nat} {l : List Nat} {p : List Bool} :
    codesOf c (x :: l) = some p ↔ ∃ q r, codeRead c x = some q ∧ codesOf c l = some r ∧ p = q ++ r := by
  simp only [codesOf]
  cases codeRead c x <;> cases codesOf c l <;> simp [eq_comm]

theorem codesOf_append_some {c : List (Nat × List Bool)} {l m : List Nat} {p : List Bool} :
    codesOf c (l ++ m) = some p ↔ ∃ q r, codesOf c l = some q ∧ codesOf c m = some r ∧ p = q ++ r := by
  induction l generalizing p with
  | nil => simp [codesOf]
  | cons x l ih =>
    simp only [List.cons_append, codesOf_cons_some, ih]
    constructor
    · rintro ⟨q, _, h1, ⟨r, s, h2, h3, rfl⟩, rfl⟩
      exact ⟨q ++ r, s, ⟨q, r, h1, h2, rfl⟩, h3, by simp⟩
    · rintro ⟨_, s, ⟨q, r, h1, h2, rfl⟩, h3, rfl⟩
      exact ⟨q, r ++ s, h1, ⟨r, s, h2, h3, rfl⟩, by simp⟩

/-- There is one first symbol that has no code. -/
theorem codesOf_first {c : List (Nat × List Bool)} {l m l' m' : List Nat} {x y : Nat} {p q : List Bool}
    (e : l ++ x :: l' = m ++ y :: m') (hl : codesOf c l = some p) (hx : codeRead c x = none)
    (hm : codesOf c m = some q) (hy : codeRead c y = none) : l = m ∧ x = y := by
  induction l generalizing m p q with
  | nil =>
    cases m with
    | nil => simp at e; exact ⟨rfl, e.1⟩
    | cons z m =>
      simp only [List.nil_append, List.cons_append, List.cons.injEq] at e
      obtain ⟨r, _, hr, -⟩ := codesOf_cons_some.1 hm
      rw [← e.1, hx] at hr
      cases hr
  | cons z l ih =>
    obtain ⟨r, _, hr, hl, -⟩ := codesOf_cons_some.1 hl
    cases m with
    | nil =>
      simp only [List.nil_append, List.cons_append, List.cons.injEq] at e
      rw [e.1, hy] at hr
      cases hr
    | cons z' m =>
      simp only [List.cons_append, List.cons.injEq] at e
      obtain ⟨rfl, e⟩ := e
      obtain ⟨_, _, -, hm, -⟩ := codesOf_cons_some.1 hm
      obtain ⟨h1, h2⟩ := ih e hl hm
      exact ⟨by rw [h1], h2⟩

theorem encodeBits_cons {c : List (Nat × List Bool)} {x : Nat} {l : List Nat} {p : List Bool}
    (h : codeRead c x = some p) : encodeBits c (x :: l) = p ++ encodeBits c l := by simp [encodeBits, h]

theorem encodeBits_none {c : List (Nat × List Bool)} {x : Nat} {l : List Nat} (h : codeRead c x = none) :
    encodeBits c (x :: l) = [] := by simp [encodeBits, h]

/-! ### The loop -/

/-- `t` differs from `s` at most in the two streams: the reader's position, the writer, the draws. -/
abbrev OnlyStreams (s t : State) : Prop :=
  t = { s with inPos := t.inPos, fetchFails := t.fetchFails, out := t.out, wbuf := t.wbuf,
               wcnt := t.wcnt, putFails := t.putFails }

theorem OnlyStreams.trans {s t u : State} (h : OnlyStreams s t) (h' : OnlyStreams t u) : OnlyStreams s u := by
  rw [h] at h'
  exact h'

theorem OnlyWriter.streams {s t : State} (h : OnlyWriter s t) : OnlyStreams s t := by
  rw [OnlyStreams, h]

theorem OnlyReader.streams {s t : State} (h : OnlyReader s t) : OnlyStreams s t := by
  rw [OnlyStreams, h]

/-- ENCODE's loop touches only the streams, in every state. -/
theorem encodeLoop_onlyStreams {n : Nat} {s t : State}
    (h : encodeLoop n s = .ok () t ∨ ∃ k, encodeLoop n s = .raised k t) : OnlyStreams s t := by
  induction n generalizing s with
  | zero => simp [encodeLoop] at h
  | succ n ih =>
    have hcode : ∀ {x : Nat} {u v : State},
        (writeCode x u = .ok () v ∨ ∃ k, writeCode x u = .raised k v) → OnlyStreams u v := by
      intro x u v huv
      simp only [writeCode] at huv
      split at huv
      · simp only [reduceCtorEq, Run.raised.injEq, false_or] at huv
        obtain ⟨_, _, rfl⟩ := huv
        rfl
      · exact (writeAll_onlyWriter huv).streams
    rw [encodeLoop] at h
    cases hr : readBits 8 s with
    | hang => simp [hr] at h
    | raised k u =>
      rw [hr] at h
      simp only [andThen_raised, reduceCtorEq, Run.raised.injEq, false_or] at h
      obtain ⟨_, _, rfl⟩ := h
      exact (readBits_onlyReader (.inr ⟨k, hr⟩)).streams
    | ok r u =>
      have hsu := (readBits_onlyReader (.inl ⟨r, hr⟩)).streams
      rw [hr, andThen_ok] at h
      cases r with
      | none => exact hsu.trans (hcode h)
      | some b =>
        simp only at h
        cases hc : writeCode b u with
        | hang => simp [hc] at h
        | raised k v =>
          rw [hc] at h
          simp only [andThen_raised, reduceCtorEq, Run.raised.injEq, false_or] at h
          obtain ⟨_, _, rfl⟩ := h
          exact hsu.trans (hcode (.inr ⟨k, hc⟩))
        | ok _ v =>
          rw [hc, andThen_ok] at h
          exact (hsu.trans (hcode (.inl hc))).trans (ih h)

/-- Everything ENCODE's loop can do, with turns enough: write the code of every byte group left and the
sentinel's; or stop at a byte, or at the sentinel, that has no code, with the codes before it written; or stop
at a fetch or a put that fails. -/
theorem encodeLoop_cases {n : Nat} {s : State} (hw : wbufOk s) (hn : bitsLeft s < n) :
    (∃ (t : State) (p : List Bool), encodeLoop n s = .ok () t ∧ payload s.code (byteGroups (inRest s)) = some p ∧ OnlyStreams s t ∧
      wbufOk t ∧ outBits t = outBits s ++ p ∧ t.inPos = s.inPos + bitsLeft s ∧
      (∃ d, t.fetchFails = s.fetchFails.drop d) ∧ ∃ d, t.putFails = s.putFails.drop d) ∨
    (∃ (t : State) (l : List Nat) (x : Nat) (l' : List Nat) (p : List Bool), encodeLoop n s = .raised .unencodableSymbol t ∧ byteGroups (inRest s) = l ++ x :: l' ∧
      codesOf s.code l = some p ∧ codeRead s.code x = none ∧ OnlyStreams s t ∧ wbufOk t ∧
      outBits t = outBits s ++ p ∧ t.inPos = s.inPos + 8 * (l.length + 1) ∧ t.inPos ≤ s.inPos + bitsLeft s) ∨
    (∃ (t : State) (p : List Bool), encodeLoop n s = .raised .unencodableSymbol t ∧
      codesOf s.code (byteGroups (inRest s)) = some p ∧ codeRead s.code sentinel.val = none ∧
      OnlyStreams s t ∧ wbufOk t ∧ outBits t = outBits s ++ p ∧ t.inPos = s.inPos + bitsLeft s) ∨
    (∃ t : State, encodeLoop n s = .raised .ioFailure t ∧ OnlyStreams s t ∧ t.inPos ≤ s.inPos + bitsLeft s ∧
      ((∃ d : Nat, s.fetchFails[d]? = some true) ∨ ∃ d : Nat, s.putFails[d]? = some true)) := by
  induction n generalizing s with
  | zero => omega
  | succ n ih =>
    rw [encodeLoop]
    rcases readBits_cases 8 s with ⟨h8, d, e⟩ | ⟨h8, d, e⟩ | ⟨k, d, hk, hkb, -, hd, e⟩
    · rw [e, andThen_ok]
      have hg := byteGroups_step (l := inRest s) (by simpa using h8)
      generalize bitsToNat ((inRest s).take 8) = x at *
      generalize hs1 : ({ s with inPos := s.inPos + 8, fetchFails := s.fetchFails.drop d } : State) = s1
      have ho1 : OnlyStreams s s1 := by subst hs1; rfl
      have hw1 : wbufOk s1 := by subst hs1; exact hw
      have hb1 : outBits s1 = outBits s := by subst hs1; rfl
      have hc1 : s1.code = s.code := by subst hs1; rfl
      have hp1 : s1.inPos = s.inPos + 8 := by subst hs1; rfl
      have hpf1 : s1.putFails = s.putFails := by subst hs1; rfl
      have hff1 : s1.fetchFails = s.fetchFails.drop d := by subst hs1; rfl
      have hr1 : inRest s1 = (inRest s).drop 8 := by
        subst hs1; simp [inRest, inBits, List.drop_drop]
      simp only [writeCode, hc1]
      cases hx : codeRead s.code x with
      | none =>
        refine .inr (.inl ⟨s1, [], x, _, [], rfl, hg, rfl, hx, ho1, hw1, by simpa using hb1, hp1, ?_⟩)
        omega
      | some c =>
        simp only
        rcases writeAll_cases c hw1 with ⟨s2, e2, ho2, hw2, hb2, d2, hd2⟩ | ⟨s2, _, d2, e2, ho2, -, -, -, hd2⟩
        · rw [e2, andThen_ok]
          have ho := ho1.trans ho2.streams
          have hc2 : s2.code = s.code := by rw [ho]
          have hp2 : s2.inPos = s.inPos + 8 := by rw [← hp1, ho2]
          have hf2 : s2.fetchFails = s.fetchFails.drop d := by rw [← hff1, ho2]
          have hr2 : inRest s2 = (inRest s).drop 8 := by rw [← hr1, ho2]; rfl
          have hl2 : bitsLeft s2 = bitsLeft s - 8 := by
            rw [← inRest_length, hr2, List.length_drop, inRest_length]
          have ih := ih hw2 (by omega)
          rw [hc2, hr2, hb2, hb1, hp2, hf2, hd2, hpf1] at ih
          rcases ih with ⟨t, p, e3, hp, ho3, hw3, hb3, hi3, ⟨d3, hd3⟩, d4, hd4⟩ |
            ⟨t, l, y, l', p, e3, hl, hcl, hcy, ho3, hw3, hb3, hi3, hle3⟩ |
            ⟨t, p, e3, hp, hcs, ho3, hw3, hb3, hi3⟩ | ⟨t, e3, ho3, hi3, hio⟩
          · refine .inl ⟨t, c ++ p, e3, ?_, ho.trans ho3, hw3, by rw [hb3, List.append_assoc], by omega,
              ⟨d + d3, by rw [hd3, List.drop_drop]⟩, ⟨d2 + d4, by rw [hd4, List.drop_drop]⟩⟩
            rw [hg]
            exact codesOf_cons_some.2 ⟨c, p, hx, hp, rfl⟩
          · refine .inr (.inl ⟨t, x :: l, y, l', c ++ p, e3, by rw [hg, hl]; rfl,
              codesOf_cons_some.2 ⟨c, p, hx, hcl, rfl⟩, hcy, ho.trans ho3, hw3,
              by rw [hb3, List.append_assoc], ?_, by omega⟩)
            simp only [List.length_cons]
            omega
          · refine .inr (.inr (.inl ⟨t, c ++ p, e3, ?_, hcs, ho.trans ho3, hw3,
              by rw [hb3, List.append_assoc], by omega⟩))
            rw [hg]
            exact codesOf_cons_some.2 ⟨c, p, hx, hp, rfl⟩
          · refine .inr (.inr (.inr ⟨t, e3, ho.trans ho3, by omega, ?_⟩))
            rcases hio with ⟨d5, h5⟩ | ⟨d5, h5⟩
            · rw [List.getElem?_drop] at h5
              exact .inl ⟨_, h5⟩
            · rw [List.getElem?_drop] at h5
              exact .inr ⟨_, h5⟩
        · rw [e2, andThen_raised]
          refine .inr (.inr (.inr ⟨s2, rfl, ho1.trans ho2.streams, ?_, .inr ⟨d2, by rw [← hpf1]; exact hd2⟩⟩))
          have : s2.inPos = s1.inPos := by rw [ho2]
          omega
    · rw [e, andThen_ok]
      have hg : byteGroups (inRest s) = [] := byteGroups_short (by simpa using h8)
      generalize hs1 : ({ s with
        inPos := s.inPos + bitsLeft s, fetchFails := s.fetchFails.drop d } : State) = s1
      have ho1 : OnlyStreams s s1 := by subst hs1; rfl
      have hw1 : wbufOk s1 := by subst hs1; exact hw
      have hb1 : outBits s1 = outBits s := by subst hs1; rfl
      have hc1 : s1.code = s.code := by subst hs1; rfl
      have hp1 : s1.inPos = s.inPos + bitsLeft s := by subst hs1; rfl
      have hpf1 : s1.putFails = s.putFails := by subst hs1; rfl
      have hff1 : s1.fetchFails = s.fetchFails.drop d := by subst hs1; rfl
      simp only [writeCode, hc1]
      cases hx : codeRead s.code sentinel.val with
      | none =>
        refine .inr (.inr (.inl ⟨s1, [], rfl, by rw [hg]; rfl, rfl, ho1, hw1, by simpa using hb1, hp1⟩))
      | some c =>
        simp only
        rcases writeAll_cases c hw1 with ⟨s2, e2, ho2, hw2, hb2, d2, hd2⟩ | ⟨s2, _, d2, e2, ho2, -, -, -, hd2⟩
        · refine .inl ⟨s2, c, e2, ?_, ho1.trans ho2.streams, hw2, by rw [hb2, hb1], ?_, ⟨d, ?_⟩, d2, ?_⟩
          · rw [hg]
            exact codesOf_cons_some.2 ⟨c, [], hx, rfl, by simp⟩
          · rw [ho2]; exact hp1
          · rw [ho2]; exact hff1
          · rw [hd2, hpf1]
        · refine .inr (.inr (.inr ⟨s2, e2, ho1.trans ho2.streams, ?_, .inr ⟨d2, by rw [← hpf1]; exact hd2⟩⟩))
          have : s2.inPos = s1.inPos := by rw [ho2]
          omega
    · rw [e, andThen_raised]
      exact .inr (.inr (.inr ⟨_, rfl, rfl, by simpa using hkb, .inl ⟨d, hd⟩⟩))

/-! ### The loop where a fetch or a put fails -/

/-- One turn of ENCODE's loop that reads a byte group (P-R160). -/
theorem encodeLoop_byte {n : Nat} {s s1 : State} {x : Nat} (e : readBits 8 s = .ok (some x) s1)
    (hc : s1.code = s.code) : encodeLoop (n + 1) s =
      match codeRead s.code x with
      | none => .raised .unencodableSymbol s1
      | some c => (writeAll c s1).andThen fun _ s => encodeLoop n s := by
  rw [encodeLoop, e, andThen_ok, ← hc]
  change (writeCode x s1).andThen _ = _
  rw [writeCode]
  cases codeRead s1.code x <;> rfl

/-- The last turn of ENCODE's loop (P-R160). -/
theorem encodeLoop_end {n : Nat} {s s1 : State} (e : readBits 8 s = .ok none s1) (hc : s1.code = s.code) :
    encodeLoop (n + 1) s =
      match codeRead s.code sentinel.val with
      | none => .raised .unencodableSymbol s1
      | some c => writeAll c s1 := by
  rw [encodeLoop, e, andThen_ok, ← hc]
  exact rfl

/-- ENCODE's loop only adds to OUT, on any environment, and what OUT then holds is a beginning of what was to be
written. -/
theorem encodeLoop_out {n : Nat} {s t : State} (hw : wbufOk s)
    (h : encodeLoop n s = .ok () t ∨ ∃ k, encodeLoop n s = .raised k t) :
    s.out <+: t.out ∧ bytesBits t.out <+: outBits s ++ encodeBits s.code (byteGroups (inRest s)) := by
  induction n generalizing s with
  | zero => simp [encodeLoop] at h
  | succ n ih =>
    have hown : bytesBits s.out <+: outBits s ++ encodeBits s.code (byteGroups (inRest s)) := by
      rw [outBits, List.append_assoc]
      exact List.prefix_append _ _
    have hstop : ∀ {k : ErrKind} {u : State}, (Run.raised k u : Run Unit) = .ok () t ∨ (∃ k', (Run.raised k u : Run Unit) = .raised k' t) →
        u = t := by
      rintro k u (h | ⟨_, h⟩) <;> cases h
      rfl
    rcases readBits_cases 8 s with ⟨h8, d, e⟩ | ⟨h8, d, e⟩ | ⟨k, d, -, -, -, -, e⟩
    · rw [encodeLoop_byte e rfl] at h
      have hg := byteGroups_step (l := inRest s) (by simpa using h8)
      generalize bitsToNat ((inRest s).take 8) = x at *
      generalize hs1 : ({ s with inPos := s.inPos + 8, fetchFails := s.fetchFails.drop d } : State) = s1 at h
      have ho1 : s1.out = s.out := by subst hs1; rfl
      have hw1 : wbufOk s1 := by subst hs1; exact hw
      have hb1 : outBits s1 = outBits s := by subst hs1; rfl
      have hc1 : s1.code = s.code := by subst hs1; rfl
      have hr1 : inRest s1 = (inRest s).drop 8 := by subst hs1; simp [inRest, inBits, List.drop_drop]
      cases hx : codeRead s.code x with
      | none =>
        rw [hx] at h
        have := hstop h
        subst this
        rw [ho1]
        exact ⟨List.prefix_rfl, hown⟩
      | some c =>
        rw [hx] at h
        simp only at h
        rw [hg, encodeBits_cons hx, ← List.append_assoc, ← hb1, ← ho1]
        cases e2 : writeAll c s1 with
        | hang => simp [e2] at h
        | raised k u =>
          rw [e2] at h
          have := hstop h
          subst this
          obtain ⟨h1, h2⟩ := writeAll_out c hw1 (.inr ⟨k, e2⟩)
          exact ⟨h1, h2.trans (List.prefix_append _ _)⟩
        | ok _ u =>
          rw [e2, andThen_ok] at h
          obtain ⟨h1, -⟩ := writeAll_out c hw1 (.inl e2)
          rcases writeAll_cases c hw1 with ⟨u', e2', ho2, hw2, hb2, -⟩ | ⟨_, _, _, e2', -⟩ <;> rw [e2] at e2' <;>
            cases e2'
          obtain ⟨h3, h4⟩ := ih hw2 h
          rw [show u.code = s.code by rw [ho2, hc1], show inRest u = (inRest s).drop 8 by rw [← hr1, ho2]; rfl,
            hb2] at h4
          exact ⟨h1.trans h3, h4⟩
    · rw [encodeLoop_end e rfl] at h
      rw [byteGroups_short (by simpa using h8)] at hown ⊢
      generalize hs1 : ({ s with
        inPos := s.inPos + bitsLeft s, fetchFails := s.fetchFails.drop d } : State) = s1 at h
      have ho1 : s1.out = s.out := by subst hs1; rfl
      have hw1 : wbufOk s1 := by subst hs1; exact hw
      have hb1 : outBits s1 = outBits s := by subst hs1; rfl
      cases hx : codeRead s.code sentinel.val with
      | none =>
        rw [hx] at h
        have := hstop h
        subst this
        rw [ho1]
        exact ⟨List.prefix_rfl, hown⟩
      | some c =>
        rw [hx] at h
        have := writeAll_out c hw1 h
        rw [ho1, hb1] at this
        rw [encodeBits, hx, Option.getD_some]
        exact this
    · rw [encodeLoop, e, andThen_raised] at h
      have := hstop h
      subst this
      exact ⟨List.prefix_rfl, hown⟩

/-- ENCODE's loop where the reader's next FAIL meets it at `p`: the codes of the groups before are written. -/
theorem encodeLoop_fetchFailsAt {n p : Nat} {ds : List Bool} {s : State} {q : List Bool} (hw : wbufOk s)
    (hn : bitsLeft s < n) (h : fetchFailsAt s p ds) (hp : putsNeverFail s)
    (hq : codesOf s.code (byteGroups ((inRest s).take (p - s.inPos))) = some q) :
    ∃ t, encodeLoop n s = .raised .ioFailure t ∧ OnlyStreams s t ∧ wbufOk t ∧ outBits t = outBits s ++ q ∧
      t.inPos = p ∧ t.fetchFails = ds := by
  induction n generalizing s q with
  | zero => omega
  | succ n ih =>
    have hb : p ≤ 8 * s.input.length ∧ s.inPos ≤ p := by
      obtain ⟨k, -, hk, hl⟩ := h; omega
    have hlen : ((inRest s).take (p - s.inPos)).length = p - s.inPos := by
      rw [List.length_take, inRest_length, bitsLeft]; omega
    by_cases h8 : p < s.inPos + 8
    · rw [byteGroups_short (by omega)] at hq
      cases hq
      rw [encodeLoop, (readBits_failsAt 8 h).1 h8, andThen_raised]
      refine ⟨_, rfl, rfl, hw, ?_, rfl, rfl⟩
      rw [List.append_nil]
      rfl
    · obtain ⟨ff, e, h'⟩ := (readBits_failsAt 8 h).2 (by omega)
      have hg := byteGroups_step (l := (inRest s).take (p - s.inPos)) (by omega)
      rw [List.take_take, Nat.min_eq_left (by omega), List.drop_take, Nat.sub_sub] at hg
      rw [hg] at hq
      obtain ⟨c, r, hc, hr, rfl⟩ := codesOf_cons_some.1 hq
      rw [encodeLoop_byte e rfl, hc]
      simp only
      obtain ⟨s2, e2, ho2, hw2, hb2, hp2⟩ := writeAll_neverFail c
        (s := { s with inPos := s.inPos + 8, fetchFails := ff }) hw hp
      have hi2 : s2.inPos = s.inPos + 8 := by rw [ho2]
      have hr2 : inRest s2 = (inRest s).drop 8 := by
        rw [ho2]; simp [inRest, inBits, List.drop_drop]
      obtain ⟨t, e3, ho3, hw3, hb3, h3⟩ := ih (s := s2) hw2
        (by rw [← inRest_length, hr2, List.length_drop, inRest_length]; simp only [bitsLeft] at *; omega)
        (by rw [ho2]; exact h') hp2 (by rw [show s2.code = s.code by rw [ho2], hr2, hi2]; exact hr)
      refine ⟨t, by rw [e2, andThen_ok, e3], ?_, hw3, ?_, h3⟩
      · exact OnlyStreams.trans (t := s2) (by rw [OnlyStreams, ho2]) ho3
      · rw [hb3, hb2, List.append_assoc]
        rfl

/-- ENCODE's loop where the writer's next FAIL comes when OUT holds `m` bytes, within what is to be written. -/
theorem encodeLoop_putFailsAt {n m : Nat} {ds : List Bool} {s : State} (hw : wbufOk s)
    (hn : bitsLeft s < n) (h : putFailsAt s m ds) (hf : fetchesNeverFail s)
    (hl : 8 * (m + 1) ≤ (outBits s ++ encodeBits s.code (byteGroups (inRest s))).length) :
    ∃ t, encodeLoop n s = .raised .ioFailure t ∧ OnlyStreams s t ∧ t.wcnt = 7 ∧ t.putFails = ds ∧
      t.out.length = m ∧
      bytesBits t.out = (outBits s ++ encodeBits s.code (byteGroups (inRest s))).take (8 * m) ∧
      byteBits t.wbuf = ((outBits s ++ encodeBits s.code (byteGroups (inRest s))).drop (8 * m)).take 8 := by
  induction n generalizing s with
  | zero => omega
  | succ n ih =>
    have hle := putFailsAt_le h
    obtain ⟨d, e⟩ := readBits_neverFail 8 hf
    by_cases h8 : 8 ≤ bitsLeft s
    · rw [if_pos h8] at e
      rw [encodeLoop_byte e rfl]
      have hg := byteGroups_step (l := inRest s) (by simpa using h8)
      rw [hg] at hl ⊢
      cases hx : codeRead s.code (bitsToNat ((inRest s).take 8)) with
      | none => rw [encodeBits_none hx] at hl; simp at hl; omega
      | some c =>
        rw [encodeBits_cons hx] at hl ⊢
        simp only
        generalize hs1 : ({ s with inPos := s.inPos + 8, fetchFails := s.fetchFails.drop d } : State) = s1
        have ho1 : OnlyStreams s s1 := by subst hs1; rfl
        have hw1 : wbufOk s1 := by subst hs1; exact hw
        have h1 : putFailsAt s1 m ds := by subst hs1; exact h
        have hb1 : outBits s1 = outBits s := by subst hs1; rfl
        have hr1 : inRest s1 = (inRest s).drop 8 := by subst hs1; simp [inRest, inBits, List.drop_drop]
        have hf1 : fetchesNeverFail s1 := by subst hs1; exact neverFail_drop hf d
        rw [← List.append_assoc, ← hb1] at hl ⊢
        by_cases hc : 8 * (m + 1) ≤ (outBits s1 ++ c).length
        · obtain ⟨t, e2, ho2, h7, hd, hm, hout, hbuf⟩ := (writeAll_failsAt c hw1 h1).1 hc
          refine ⟨t, by rw [e2, andThen_raised], ho1.trans ho2.streams, h7, hd, hm, ?_, ?_⟩
          · rw [List.take_append_of_le_length (by omega), hout]
          · rw [List.drop_append_of_le_length (by omega),
              List.take_append_of_le_length (by rw [List.length_drop]; omega), hbuf]
        · obtain ⟨s2, e2, ho2, hw2, hb2, h2⟩ := (writeAll_failsAt c hw1 h1).2 (by omega)
          have hr2 : inRest s2 = (inRest s).drop 8 := by rw [← hr1, ho2]; rfl
          have hc2 : s2.code = s.code := by rw [ho2, ← hs1]
          rw [← hb2, ← hc2, ← hr2] at hl ⊢
          obtain ⟨t, e3, ho3, hrest⟩ := ih hw2
            (by rw [← inRest_length, hr2, List.length_drop, inRest_length]; omega) h2
            (by rw [fetchesNeverFail, ho2]; exact hf1) hl
          exact ⟨t, by rw [e2, andThen_ok, e3], (ho1.trans ho2.streams).trans ho3, hrest⟩
    · rw [if_neg h8] at e
      rw [encodeLoop_end e rfl]
      rw [byteGroups_short (by simpa using Nat.not_le.1 h8), encodeBits] at hl ⊢
      cases hx : codeRead s.code sentinel.val with
      | none => rw [hx] at hl; simp at hl; omega
      | some c =>
        rw [hx] at hl
        obtain ⟨t, e2, ho2, hrest⟩ := (writeAll_failsAt c
          (s := { s with inPos := s.inPos + bitsLeft s, fetchFails := s.fetchFails.drop d }) hw h).1 hl
        exact ⟨t, e2, by rw [OnlyStreams, ho2], hrest⟩

end Sys2Proof.Machine
end

