-- ==== Sys2Proof/Laws/Decoder.lean ====
section
/-!
SUPPORT. Walks in a tree, and what the loop of DECODE can do (45_decode R171 to R174).
-/

namespace Sys2Proof.Machine

/-! ### Walks -/

/-- `Walk root u q l v`: from node `u` the bits `q` lead to `v`, each leaf of a byte on the way giving its
symbol, all in `l`, and leading back to the root (R172, R173). -/
inductive Walk (root : Tree) : Tree → List Bool → List Sym → Tree → Prop
  | stop (u : Tree) : Walk root u [] [] u
  | bit (a b : Tree) (w : Nat) (c : Bool) (q : List Bool) (l : List Sym) (v : Tree) :
      Walk root (if c then b else a) q l v → Walk root (.node a b w) (c :: q) l v
  | leaf (x : Sym) (w : Nat) (q : List Bool) (l : List Sym) (v : Tree) : x ≠ sentinel →
      Walk root root q l v → Walk root (.leaf x w) q (x :: l) v

/-- A walk that goes on where another stopped. -/
theorem Walk.append {root u v v' : Tree} {q q' : List Bool} {l l' : List Sym} (h : Walk root u q l v)
    (h' : Walk root v q' l' v') : Walk root u (q ++ q') (l ++ l') v' := by
  induction h with
  | stop => exact h'
  | bit a b w c q l v _ ih => exact .bit a b w c _ _ _ (ih h')
  | leaf x w q l v hx _ ih => exact .leaf x w _ _ _ hx (ih h')

/-- Walks are determined by their bits, up to the leaf they may stop on. -/
theorem Walk.split {root u v v' : Tree} {q q' : List Bool} {l l' : List Sym} (h : Walk root u q l v)
    (h' : Walk root u (q ++ q') l' v') (hv : loneByteLeaf v' = false) :
    ∃ l'', l' = l ++ l'' ∧ Walk root v q' l'' v' := by
  induction h generalizing l' with
  | stop => exact ⟨l', rfl, h'⟩
  | bit a b w c q l v _ ih =>
    cases h' with
    | bit _ _ _ _ _ _ _ h' => exact ih h'
  | leaf x w q l v hx _ ih =>
    generalize hqq : q ++ q' = r at h'
    cases h' with
    | stop => simp [loneByteLeaf, hx] at hv
    | leaf _ _ _ l' _ _ h' =>
      subst hqq
      obtain ⟨l'', h1, h2⟩ := ih h'
      exact ⟨l'', by rw [h1]; rfl, h2⟩

/-- Nothing leads on from the sentinel's leaf. -/
theorem Walk.of_sentinel {root v : Tree} {w : Nat} {q : List Bool} {l : List Sym}
    (h : Walk root (.leaf sentinel w) q l v) : q = [] ∧ l = [] ∧ v = .leaf sentinel w := by
  cases h with
  | stop => exact ⟨rfl, rfl, rfl⟩
  | leaf _ _ _ _ _ hx => exact absurd rfl hx

theorem Walk.of_nil_node {root a b v : Tree} {w : Nat} {l : List Sym}
    (h : Walk root (.node a b w) [] l v) : l = [] ∧ v = .node a b w := by
  cases h
  exact ⟨rfl, rfl⟩

/-- A path is a walk that gives no symbol. -/
theorem Walk.of_follow {root u v : Tree} {q : List Bool} (h : follow u q = some v) : Walk root u q [] v := by
  induction q generalizing u with
  | nil => simp at h; rw [h]; exact .stop v
  | cons c q ih =>
    cases u with
    | leaf x w => cases h
    | node a b w => exact .bit a b w c q [] v (ih h)

/-- A walk is the path to its first leaf and a walk from the root. -/
theorem Walk.cons_inv {root u v : Tree} {q : List Bool} {x : Sym} {l : List Sym}
    (h : Walk root u q (x :: l) v) :
    x ≠ sentinel ∧ ∃ p r w, q = p ++ r ∧ follow u p = some (.leaf x w) ∧ Walk root root r l v := by
  generalize hm : x :: l = m at h
  induction h with
  | stop => cases hm
  | bit a b w c q m v _ ih =>
    obtain ⟨hx, p, r, w, h1, h2, h3⟩ := ih hm
    exact ⟨hx, c :: p, r, w, by rw [h1]; rfl, h2, h3⟩
  | leaf y w q m v hy h =>
    cases hm
    exact ⟨hy, [], q, w, rfl, rfl, h⟩

theorem Walk.nil_inv {root u v : Tree} {q : List Bool} (h : Walk root u q [] v) : follow u q = some v := by
  generalize hm : ([] : List Sym) = m at h
  induction h with
  | stop => simp
  | bit a b w c q m v _ ih => exact ih hm
  | leaf => cases hm

/-- The codes of a sequence of bytes are the walk that gives them. -/
theorem Walk.of_codes {root : Tree} {l : List Sym} {p : List Bool} (hs : ∀ x ∈ l, x ≠ sentinel)
    (h : codesOf (codeTable root) (l.map Fin.val) = some p) :
    ∀ {q : List Bool} {m : List Sym} {v : Tree}, Walk root root q m v → Walk root root (p ++ q) (l ++ m) v := by
  induction l generalizing p with
  | nil => intro q m v hv; cases h; exact hv
  | cons x l ih =>
    intro q m v hv
    obtain ⟨c, r, hc, hr, rfl⟩ := codesOf_cons_some.1 h
    rw [codeRead_codeTable] at hc
    obtain ⟨y, w, hy, hf⟩ := follow_pathTo hc
    rw [Fin.ext hy] at hf
    have h2 := ih (fun z hz => hs z (List.mem_cons_of_mem _ hz)) hr hv
    have := (Walk.of_follow (root := root) hf).append (.leaf x w _ _ _ (hs x List.mem_cons_self) h2)
    simpa using this

/-- The bits of a walk from the root are the codes of the symbols it gives and then a path. -/
theorem Walk.codes {root : Tree} (hn : (treeSyms root).Nodup) {q : List Bool} {l : List Sym} {v : Tree}
    (h : Walk root root q l v) :
    ∃ p r, codesOf (codeTable root) (l.map Fin.val) = some p ∧ q = p ++ r ∧ follow root r = some v := by
  induction l generalizing q with
  | nil => exact ⟨[], q, rfl, rfl, h.nil_inv⟩
  | cons x l ih =>
    obtain ⟨-, p, r, w, rfl, hf, h⟩ := h.cons_inv
    obtain ⟨p', r', hp', rfl, hf'⟩ := ih h
    refine ⟨p ++ p', r', ?_, by simp, hf'⟩
    refine codesOf_cons_some.2 ⟨p, p', ?_, hp', rfl⟩
    rw [codeRead_codeTable, pathTo_eq_some_iff hn]
    exact ⟨w, hf⟩

theorem mem_subtrees_self (t : Tree) : t ∈ subtrees t := by cases t <;> simp [subtrees]

theorem subtrees_trans {t u : Tree} (h : u ∈ subtrees t) : ∀ v ∈ subtrees u, v ∈ subtrees t := by
  induction t with
  | leaf x w => simp [subtrees] at h; subst h; exact fun v hv => hv
  | node a b w iha ihb =>
    intro v hv
    simp only [subtrees, List.mem_cons, List.mem_append] at h ⊢
    rcases h with rfl | h | h
    · simpa [subtrees] using hv
    · exact .inr (.inl (iha h v hv))
    · exact .inr (.inr (ihb h v hv))

/-- A walk in a tree stays in it. -/
theorem Walk.mem {root u v : Tree} {q : List Bool} {l : List Sym} (h : Walk root u q l v)
    (hu : u ∈ subtrees root) : v ∈ subtrees root := by
  induction h with
  | stop => exact hu
  | bit a b w c q l v _ ih =>
    apply ih
    apply subtrees_trans hu
    cases c <;> simp [subtrees, mem_subtrees_self]
  | leaf x w q l v _ _ ih => exact ih (mem_subtrees_self root)

/-! ### The loop -/

/-- `t` differs from `s` at most in the two streams and in CUR and DSTATE. -/
abbrev OnlyDecode (s t : State) : Prop :=
  t = { s with inPos := t.inPos, fetchFails := t.fetchFails, out := t.out, wbuf := t.wbuf,
               wcnt := t.wcnt, putFails := t.putFails, cur := t.cur, dstate := t.dstate }

theorem OnlyDecode.trans {s t u : State} (h : OnlyDecode s t) (h' : OnlyDecode t u) : OnlyDecode s u := by
  rw [h] at h'
  exact h'

/-- One turn at an internal node (R172). -/
theorem decodeLoop_node (root : Tree) (n : Nat) {s : State} {a b : Tree} {w : Nat} (hc : s.cur = .node a b w) :
    decodeLoop root (n + 1) s = (readBit s).andThen fun r s =>
      match r with
      | none => .raised .truncatedPayload s
      | some c => decodeLoop root n { s with cur := if c then b else a } := by
  rw [decodeLoop, hc]
  simp only
  congr 1
  funext r s
  rcases r with _ | _ | _ <;> rfl

/-- One turn at a leaf (R173). -/
theorem decodeLoop_leaf (root : Tree) (n : Nat) {s : State} {x : Sym} {w : Nat} (hc : s.cur = .leaf x w) :
    decodeLoop root (n + 1) s = if x = sentinel then .ok () { s with dstate := .done }
      else (writeAll (natToBits 8 x.val) s).andThen fun _ s => decodeLoop root n { s with cur := root } := by
  rw [decodeLoop, hc]
  rfl

/-- DECODE's loop touches only the streams, CUR and DSTATE, in every state. -/
theorem decodeLoop_onlyDecode {root : Tree} {n : Nat} {s t : State}
    (h : decodeLoop root n s = .ok () t ∨ ∃ k, decodeLoop root n s = .raised k t) : OnlyDecode s t := by
  induction n generalizing s with
  | zero => simp [decodeLoop] at h
  | succ n ih =>
    obtain ⟨u, hu⟩ : ∃ u, s.cur = u := ⟨_, rfl⟩
    cases u with
    | leaf x w =>
      rw [decodeLoop_leaf root n hu] at h
      split at h
      · simp only [Run.ok.injEq, true_and, reduceCtorEq, exists_false, or_false] at h
        rw [OnlyDecode, ← h]
      · cases hw : writeAll (natToBits 8 x.val) s with
        | hang => simp [hw] at h
        | raised k v =>
          rw [hw] at h
          simp only [andThen_raised, reduceCtorEq, Run.raised.injEq, false_or] at h
          obtain ⟨_, _, rfl⟩ := h
          rw [OnlyDecode, writeAll_onlyWriter (.inr ⟨k, hw⟩)]
        | ok _ v =>
          have hv := writeAll_onlyWriter (.inl hw)
          rw [hw, andThen_ok] at h
          refine OnlyDecode.trans (t := { v with cur := root }) ?_ (ih h)
          rw [OnlyDecode, hv]
    | node a b w =>
      rw [decodeLoop_node root n hu] at h
      cases hr : readBit s with
      | hang => simp [hr] at h
      | raised k v =>
        rw [hr] at h
        simp only [andThen_raised, reduceCtorEq, Run.raised.injEq, false_or] at h
        obtain ⟨_, _, rfl⟩ := h
        rw [OnlyDecode, readBit_onlyReader (.inr ⟨k, hr⟩)]
      | ok r v =>
        have hv := readBit_onlyReader (.inl ⟨r, hr⟩)
        rw [hr, andThen_ok] at h
        cases r with
        | none =>
          simp only [reduceCtorEq, Run.raised.injEq, false_or] at h
          obtain ⟨_, _, rfl⟩ := h
          rw [OnlyDecode, hv]
        | some c =>
          refine OnlyDecode.trans (t := { v with cur := if c then b else a }) ?_ (ih h)
          rw [OnlyDecode, hv]

/-- The bits of decoded bytes. -/
def symBits (l : List Sym) : List Bool := l.flatMap fun x => natToBits 8 x.val

/-- Everything DECODE's loop can do, with turns enough: end at the sentinel's leaf; or TruncatedPayload at an
internal node with every bit consumed; or IoFailure at a fetch or a put that fails. In each the bits consumed
are a walk, and OUT has grown by one byte for each byte it gives. -/
theorem decodeLoop_cases {root : Tree} (hroot : loneByteLeaf root = false) {n : Nat} {s : State}
    (hw : wbufOk s) (hn : 2 * bitsLeft s + (if loneByteLeaf s.cur = true then 2 else 1) ≤ n) :
    (∃ (t : State) (q rest : List Bool) (l : List Sym) (w : Nat), decodeLoop root n s = .ok () t ∧ inRest s = q ++ rest ∧
      Walk root s.cur q l (.leaf sentinel w) ∧ OnlyDecode s t ∧ wbufOk t ∧
      outBits t = outBits s ++ symBits l ∧ t.inPos = s.inPos + q.length ∧ t.cur = .leaf sentinel w ∧
      t.dstate = .done) ∨
    (∃ (t : State) (l : List Sym) (a b : Tree) (w : Nat), decodeLoop root n s = .raised .truncatedPayload t ∧
      Walk root s.cur (inRest s) l (.node a b w) ∧ OnlyDecode s t ∧ wbufOk t ∧
      outBits t = outBits s ++ symBits l ∧ t.inPos = s.inPos + bitsLeft s ∧ t.cur = .node a b w ∧
      t.dstate = s.dstate) ∨
    (∃ (t : State) (q rest : List Bool) (l : List Sym) (v : Tree), decodeLoop root n s = .raised .ioFailure t ∧ inRest s = q ++ rest ∧
      Walk root s.cur q l v ∧ OnlyDecode s t ∧ t.inPos = s.inPos + q.length ∧ t.cur = v ∧
      t.dstate = s.dstate ∧ t.out.length = s.out.length + l.length ∧ bytesBits t.out <+: outBits s ++ symBits l ∧
      ((∃ d : Nat, s.fetchFails[d]? = some true) ∨ ∃ d : Nat, s.putFails[d]? = some true)) := by
  induction n generalizing s with
  | zero => split at hn <;> omega
  | succ n ih =>
    obtain ⟨u, hc⟩ : ∃ u, s.cur = u := ⟨_, rfl⟩
    rw [hc]
    cases u with
    | leaf x w =>
      rw [decodeLoop_leaf root n hc]
      by_cases hx : x = sentinel
      · subst hx
        rw [if_pos rfl]
        exact .inl ⟨_, [], inRest s, [], w, rfl, rfl, .stop _, by rw [OnlyDecode], hw, by simp [symBits]; rfl,
          by simp, hc, rfl⟩
      · rw [if_neg hx]
        have hls := outBits_length s
        rcases writeAll_cases (natToBits 8 x.val) hw with ⟨s1, e1, ho1, hw1, hb1, d1, hd1⟩ |
          ⟨s1, k1, d1, e1, ho1, hk1, h71, hb1, hd1⟩
        · rw [e1, andThen_ok]
          generalize hs2 : ({ s1 with cur := root } : State) = s2
          have ho2 : OnlyDecode s s2 := by subst hs2; rw [OnlyDecode, ho1]
          have hw2 : wbufOk s2 := by subst hs2; exact hw1
          have hb2 : outBits s2 = outBits s ++ natToBits 8 x.val := by subst hs2; exact hb1
          have hc2 : s2.cur = root := by subst hs2; rfl
          have hp2 : s2.inPos = s.inPos := by subst hs2; rw [ho1]
          have hr2 : inRest s2 = inRest s := by subst hs2; rw [ho1]; rfl
          have hds : s2.dstate = s.dstate := by subst hs2; rw [ho1]
          have hl2 : bitsLeft s2 = bitsLeft s := by rw [← inRest_length, hr2, inRest_length]
          have hf2 : s2.fetchFails = s.fetchFails := by subst hs2; rw [ho1]
          have hpf2 : s2.putFails = s.putFails.drop d1 := by subst hs2; exact hd1
          have hle : 2 * bitsLeft s2 + (if loneByteLeaf s2.cur = true then 2 else 1) ≤ n := by
            rw [hl2, hc2, hroot]
            rw [hc] at hn
            simp only [loneByteLeaf, hx, ne_eq, not_false_eq_true, decide_true, if_true] at hn
            simp only [Bool.false_eq_true, if_false]
            omega
          have ih := ih hw2 hle
          rw [hc2, hr2, hb2, hp2, hds, hl2, hf2, hpf2] at ih
          rcases ih with ⟨t, q, rest, l, w', e, hr, hwk, ho, hwt, hb, hp, hcur, hdt⟩ |
            ⟨t, l, a, b, w', e, hwk, ho, hwt, hb, hp, hcur, hdt⟩ |
            ⟨t, q, rest, l, v, e, hr, hwk, ho, hp, hcur, hdt, hlen, hout, hio⟩
          · exact .inl ⟨t, q, rest, x :: l, w', e, hr, .leaf x w q l _ hx hwk, ho2.trans ho, hwt,
              by rw [hb]; simp [symBits], hp, hcur, hdt⟩
          · exact .inr (.inl ⟨t, x :: l, a, b, w', e, .leaf x w _ l _ hx hwk, ho2.trans ho, hwt,
              by rw [hb]; simp [symBits], hp, hcur, hdt⟩)
          · refine .inr (.inr ⟨t, q, rest, x :: l, v, e, hr, .leaf x w q l _ hx hwk, ho2.trans ho,
              hp, hcur, hdt, ?_, by rw [symBits, List.flatMap_cons, ← List.append_assoc]; exact hout, ?_⟩)
            · have hls2 := outBits_length s2
              rw [hb2, List.length_append, natToBits_length] at hls2
              have h1 := s.wcnt.isLt
              have h2 := s2.wcnt.isLt
              rw [hlen, List.length_cons]
              omega
            rcases hio with h | ⟨d, hd⟩
            · exact .inl h
            · rw [List.getElem?_drop] at hd
              exact .inr ⟨_, hd⟩
        · rw [e1, andThen_raised]
          refine .inr (.inr ⟨s1, [], inRest s, [], _, rfl, rfl, .stop _, by rw [OnlyDecode, ho1], by rw [ho1]; rfl,
            by rw [ho1]; exact hc, by rw [ho1], ?_, ?_, .inr ⟨d1, hd1⟩⟩)
          · have hl1 := congrArg List.length hb1
            rw [natToBits_length] at hk1
            simp only [List.length_append, bytesBits_length, byteBits_length, List.length_take, natToBits_length] at hl1
            have h1 := s.wcnt.isLt
            rw [List.length_nil]
            omega
          · obtain ⟨h1, h2⟩ := writeAll_out _ hw (.inr ⟨_, e1⟩)
            have hl1 := congrArg List.length hb1
            rw [natToBits_length] at hk1
            simp only [List.length_append, bytesBits_length, byteBits_length, List.length_take, natToBits_length] at hl1
            have h3 := s.wcnt.isLt
            rw [symBits, List.flatMap_nil, List.append_nil]
            exact List.prefix_of_prefix_length_le h2 (List.prefix_append _ _) (by rw [bytesBits_length]; omega)
    | node a b w =>
      rw [decodeLoop_node root n hc]
      rcases readBit_cases s with ⟨c, rest, d, hr, e⟩ | ⟨h0, d, e⟩ | ⟨d, -, hd, e⟩
      · generalize hs2 : ({ s with
          inPos := s.inPos + 1, fetchFails := s.fetchFails.drop d, cur := if c then b else a } : State) = s2
        rw [e, andThen_ok]
        simp only [hs2]
        have ho2 : OnlyDecode s s2 := by subst hs2; rfl
        have hw2 : wbufOk s2 := by subst hs2; exact hw
        have hb2 : outBits s2 = outBits s := by subst hs2; rfl
        have hc2 : s2.cur = if c then b else a := by subst hs2; rfl
        have hp2 : s2.inPos = s.inPos + 1 := by subst hs2; rfl
        have hr2 : inRest s2 = rest := by
          have : inRest s2 = (inRest s).drop 1 := by subst hs2; simp [inRest, inBits, List.drop_drop]
          rw [this, hr]
          rfl
        have hds : s2.dstate = s.dstate := by subst hs2; rfl
        have hl2 : bitsLeft s = bitsLeft s2 + 1 := by rw [← inRest_length, ← inRest_length, hr, hr2]; rfl
        have hf2 : s2.fetchFails = s.fetchFails.drop d := by subst hs2; rfl
        have hpf2 : s2.putFails = s.putFails := by subst hs2; rfl
        have hn' : 2 * bitsLeft s + 1 ≤ n + 1 := by rw [hc] at hn; exact hn
        have ih := ih hw2 (by split <;> omega)
        rw [hc2, hr2, hb2, hp2, hds, hf2, hpf2] at ih
        rcases ih with ⟨t, q, rest', l, w', e', hr', hwk, ho, hwt, hb, hp, hcur, hdt⟩ |
          ⟨t, l, a', b', w', e', hwk, ho, hwt, hb, hp, hcur, hdt⟩ |
          ⟨t, q, rest', l, v, e', hr', hwk, ho, hp, hcur, hdt, hlen, hout, hio⟩
        · refine .inl ⟨t, c :: q, rest', l, w', e', by rw [hr, hr']; rfl, .bit a b w c q l _ hwk,
            ho2.trans ho, hwt, hb, ?_, hcur, hdt⟩
          rw [hp, List.length_cons]
          omega
        · refine .inr (.inl ⟨t, l, a', b', w', e', ?_, ho2.trans ho, hwt, hb, by omega, hcur, hdt⟩)
          rw [hr]
          exact .bit a b w c _ l _ hwk
        · refine .inr (.inr ⟨t, c :: q, rest', l, v, e', by rw [hr, hr']; rfl, .bit a b w c q l _ hwk,
            ho2.trans ho, ?_, hcur, hdt, ?_, hout, ?_⟩)
          · rw [hp, List.length_cons]
            omega
          · rw [hlen]
            subst hs2
            rfl
          · rcases hio with ⟨d', hd'⟩ | h
            · rw [List.getElem?_drop] at hd'
              exact .inl ⟨_, hd'⟩
            · exact .inr h
      · rw [e, andThen_ok]
        have hr : inRest s = [] := List.length_eq_zero_iff.1 (by rw [inRest_length, h0])
        refine .inr (.inl ⟨_, [], a, b, w, rfl, by rw [hr]; exact .stop _, rfl, hw, by simp [symBits]; rfl, ?_, hc, rfl⟩)
        rw [h0]
        rfl
      · rw [e, andThen_raised]
        refine .inr (.inr ⟨_, [], inRest s, [], _, rfl, rfl, .stop _, rfl, by simp, hc, rfl, rfl, ?_, .inl ⟨d, hd⟩⟩)
        change bytesBits s.out <+: outBits s ++ symBits []
        rw [outBits, List.append_assoc]
        exact List.prefix_append _ _

/-! ### The loop where a fetch or a put fails -/

theorem symBits_cons (x : Sym) (l : List Sym) : symBits (x :: l) = natToBits 8 x.val ++ symBits l := rfl

theorem symBits_length (l : List Sym) : (symBits l).length = 8 * l.length := by
  induction l with
  | nil => rfl
  | cons x l ih => rw [symBits_cons, List.length_append, natToBits_length, ih, List.length_cons]; omega

/-- The turns DECODE's loop may need besides two for each bit left. -/
theorem turns_le (t : Tree) : (if loneByteLeaf t = true then 2 else 1) ≤ 2 := by split <;> omega

/-- DECODE's loop where the reader's next FAIL meets it at `p`, on an internal node: the bytes given before are
written and CUR is that node. -/
theorem decodeLoop_fetchFailsAt {root : Tree} (hroot : loneByteLeaf root = false) {n p : Nat} {ds : List Bool}
    {s : State} {l : List Sym} {a b : Tree} {w : Nat} (hw : wbufOk s)
    (hn : 2 * bitsLeft s + (if loneByteLeaf s.cur = true then 2 else 1) ≤ n) (h : fetchFailsAt s p ds)
    (hp : putsNeverFail s) (hwk : Walk root s.cur ((inRest s).take (p - s.inPos)) l (.node a b w)) :
    ∃ t, decodeLoop root n s = .raised .ioFailure t ∧ OnlyDecode s t ∧ wbufOk t ∧
      outBits t = outBits s ++ symBits l ∧ t.inPos = p ∧ t.fetchFails = ds ∧ t.cur = .node a b w ∧
      t.dstate = s.dstate := by
  induction n generalizing s l with
  | zero => split at hn <;> omega
  | succ n ih =>
    obtain ⟨u, hc⟩ : ∃ u, s.cur = u := ⟨_, rfl⟩
    rw [hc] at hwk
    cases u with
    | leaf x v =>
      generalize hB : (inRest s).take (p - s.inPos) = B at hwk
      cases hwk with
      | leaf _ _ _ l _ hx hwk =>
        rw [decodeLoop_leaf root n hc, if_neg hx]
        obtain ⟨s1, e1, ho1, hw1, hb1, hp1⟩ := writeAll_neverFail (natToBits 8 x.val) hw hp
        have hr1 : inRest s1 = inRest s := by rw [ho1]; rfl
        have hl1 : bitsLeft s1 = bitsLeft s := by rw [← inRest_length, hr1, inRest_length]
        have hi1 : s1.inPos = s.inPos := by rw [ho1]
        obtain ⟨t, e, ho, hwt, hb, h2⟩ := ih (s := { s1 with cur := root }) hw1
          (by
            rw [show bitsLeft { s1 with cur := root } = bitsLeft s from hl1]
            simp only [hroot, Bool.false_eq_true, if_false]
            rw [hc] at hn
            simp only [loneByteLeaf, hx, ne_eq, not_false_eq_true, decide_true, if_true] at hn
            omega)
          (by rw [ho1]; exact h) hp1 (by rw [← hB, ← hr1, ← hi1] at hwk; exact hwk)
        refine ⟨t, by rw [e1, andThen_ok, e], ?_, hwt, ?_, h2.1, h2.2.1, h2.2.2.1, ?_⟩
        · exact OnlyDecode.trans (t := { s1 with cur := root }) (by rw [OnlyDecode, ho1]) ho
        · rw [hb, symBits_cons, ← List.append_assoc, ← hb1]
          rfl
        · rw [h2.2.2.2]
          rw [ho1]
    | node a' b' v =>
      rw [decodeLoop_node root n hc]
      rcases readBit_failsAt h with ⟨rfl, e⟩ | ⟨hlt, c, ff, hr, e, h'⟩
      · rw [Nat.sub_self, List.take_zero] at hwk
        obtain ⟨rfl, hv⟩ := hwk.of_nil_node
        rw [e, andThen_raised]
        refine ⟨_, rfl, rfl, hw, ?_, rfl, rfl, by rw [hv]; exact hc, rfl⟩
        rw [symBits, List.flatMap_nil, List.append_nil]
        rfl
      · rw [e, andThen_ok]
        obtain ⟨j, hj⟩ : ∃ j, p - s.inPos = j + 1 := ⟨p - s.inPos - 1, by omega⟩
        have hj' : p - (s.inPos + 1) = j := by omega
        rw [hr, hj, List.take_succ_cons] at hwk
        cases hwk with
        | bit _ _ _ _ _ _ _ hwk =>
          have hl : bitsLeft s = bitsLeft { s with inPos := s.inPos + 1, fetchFails := ff } + 1 := by
            rw [← inRest_length, ← inRest_length, hr]; rfl
          obtain ⟨t, e', ho, hwt, hb, h2⟩ := ih
            (s := { s with inPos := s.inPos + 1, fetchFails := ff, cur := if c then b' else a' }) hw
            (by
              rw [hc] at hn
              simp only [loneByteLeaf, Bool.false_eq_true, if_false] at hn
              have := turns_le (if c then b' else a')
              change 2 * bitsLeft { s with inPos := s.inPos + 1, fetchFails := ff } +
                (if loneByteLeaf (if c then b' else a') = true then 2 else 1) ≤ n
              omega)
            h' hp (by
              change Walk root (if c then b' else a') (((inBits s).drop (s.inPos + 1)).take (p - (s.inPos + 1))) l _
              rw [hj']
              exact hwk)
          exact ⟨t, e', ho, hwt, hb, h2⟩

/-- DECODE's loop where the put of the byte on whose leaf the walk `q` stops is the one that fails: CUR is that
leaf, and OUT has grown by the bytes given before. -/
theorem decodeLoop_putFailsAt {root : Tree} (hroot : loneByteLeaf root = false) {n : Nat} {ds : List Bool}
    {s : State} {q rest : List Bool} {l : List Sym} {x : Sym} {w : Nat} (hw : wbufOk s)
    (hn : 2 * bitsLeft s + (if loneByteLeaf s.cur = true then 2 else 1) ≤ n) (hx : x ≠ sentinel)
    (h : putFailsAt s (s.out.length + l.length) ds) (hf : fetchesNeverFail s)
    (hwk : Walk root s.cur q l (.leaf x w)) (hr : inRest s = q ++ rest) :
    ∃ t, decodeLoop root n s = .raised .ioFailure t ∧ OnlyDecode s t ∧ t.wcnt = 7 ∧ t.putFails = ds ∧
      t.out.length = s.out.length + l.length ∧ bytesBits t.out <+: outBits s ++ symBits l ∧
      t.inPos = s.inPos + q.length ∧ t.cur = .leaf x w ∧ t.dstate = s.dstate := by
  induction n generalizing s q l with
  | zero => split at hn <;> omega
  | succ n ih =>
    obtain ⟨u, hc⟩ : ∃ u, s.cur = u := ⟨_, rfl⟩
    rw [hc] at hwk
    have hls := outBits_length s
    have hlt := s.wcnt.isLt
    cases u with
    | leaf y v =>
      have hy : y ≠ sentinel := by
        cases hwk with
        | stop => exact hx
        | leaf _ _ _ _ _ hy => exact hy
      rw [decodeLoop_leaf root n hc, if_neg hy]
      cases hwk with
      | stop =>
        obtain ⟨s1, e1, ho1, h71, hd1, hm1, hout1, -⟩ := (writeAll_failsAt (natToBits 8 x.val) hw h).1
          (by rw [List.length_append, natToBits_length, List.length_nil]; omega)
        refine ⟨s1, by rw [e1, andThen_raised], by rw [OnlyDecode, ho1], h71, hd1, hm1, ?_, by rw [ho1]; rfl,
          by rw [ho1]; exact hc, by rw [ho1]⟩
        rw [hout1, List.length_nil, Nat.add_zero, List.take_append_of_le_length (by omega), symBits,
          List.flatMap_nil, List.append_nil]
        exact List.take_prefix _ _
      | leaf _ _ _ l _ _ hwk =>
        obtain ⟨s1, e1, ho1, hw1, hb1, h1⟩ := (writeAll_failsAt (natToBits 8 y.val) hw h).2
          (by rw [List.length_append, natToBits_length, List.length_cons]; omega)
        have hl1 := outBits_length s1
        have hlt1 := s1.wcnt.isLt
        rw [hb1, List.length_append, natToBits_length] at hl1
        have hr1 : inRest s1 = inRest s := by rw [ho1]; rfl
        have hbl : bitsLeft s1 = bitsLeft s := by rw [← inRest_length, hr1, inRest_length]
        have hm : s.out.length + (y :: l).length = s1.out.length + l.length := by
          rw [List.length_cons]; omega
        rw [hm] at h1 ⊢
        obtain ⟨t, e, ho, h7, hd, hlen, hout, hi, hcur, hds⟩ := ih (s := { s1 with cur := root }) hw1
          (by
            rw [show bitsLeft { s1 with cur := root } = bitsLeft s from hbl]
            simp only [hroot, Bool.false_eq_true, if_false]
            rw [hc] at hn
            simp only [loneByteLeaf, hy, ne_eq, not_false_eq_true, decide_true, if_true] at hn
            omega)
          h1 (by rw [fetchesNeverFail, ho1]; exact hf) hwk (by rw [← hr, ← hr1]; rfl)
        refine ⟨t, by rw [e1, andThen_ok, e], ?_, h7, hd, hlen, ?_, ?_, hcur, ?_⟩
        · exact OnlyDecode.trans (t := { s1 with cur := root }) (by rw [OnlyDecode, ho1]) ho
        · rw [symBits_cons, ← List.append_assoc, ← hb1]
          exact hout
        · rw [hi]
          rw [ho1]
        · rw [hds]
          rw [ho1]
    | node a b v =>
      cases hwk with
      | bit _ _ _ c q _ _ hwk =>
        rw [decodeLoop_node root n hc]
        rcases readBit_cases s with ⟨c', rest', d, hr', e⟩ | ⟨h0, d, e⟩ | ⟨d, -, hd, e⟩
        · rw [hr'] at hr
          simp only [List.cons_append, List.cons.injEq] at hr
          obtain ⟨rfl, hr⟩ := hr
          rw [e, andThen_ok]
          have hrest : (inBits s).drop (s.inPos + 1) = rest' := by
            have := congrArg (List.drop 1) hr'
            rw [inRest, List.drop_drop] at this
            exact this
          have hl : bitsLeft s = bitsLeft { s with inPos := s.inPos + 1, fetchFails := s.fetchFails.drop d } + 1 := by
            rw [← inRest_length, ← inRest_length, hr', inRest, ← hrest]; rfl
          obtain ⟨t, e', ho, h7, hd', hlen, hout, hi, hcur, hds⟩ := ih
            (s := { s with inPos := s.inPos + 1, fetchFails := s.fetchFails.drop d, cur := if c' then b else a }) hw
            (by
              rw [hc] at hn
              simp only [loneByteLeaf, Bool.false_eq_true, if_false] at hn
              have := turns_le (if c' then b else a)
              change 2 * bitsLeft { s with inPos := s.inPos + 1, fetchFails := s.fetchFails.drop d } +
                (if loneByteLeaf (if c' then b else a) = true then 2 else 1) ≤ n
              omega)
            h (neverFail_drop hf d) hwk (by
              change (inBits s).drop (s.inPos + 1) = _
              rw [hrest, hr])
          refine ⟨t, e', ho, h7, hd', hlen, hout, ?_, hcur, hds⟩
          rw [hi, List.length_cons]
          change s.inPos + 1 + q.length = _
          omega
        · have := congrArg List.length hr
          rw [inRest_length, h0, List.cons_append, List.length_cons] at this
          omega
        · exact absurd hd (no_draw hf)

end Sys2Proof.Machine
end

