-- ==== Sys2Proof/Laws/Header.lean ====
section
/-!
SUPPORT. The serialized form of a tree, and what reading a header can do (30_encoding R68, 43_header R140 to
R146).
-/

namespace Sys2Proof.Machine

/-! ### The serialized form -/

/-- WRHDR's body writes Ser(t) (P-R140). -/
theorem writeTree_eq (t : Tree) (s : State) : writeTree t s = writeAll (treeBits t) s := by
  induction t generalizing s with
  | leaf x w => rfl
  | node a b w iha ihb =>
    simp only [writeTree, treeBits, writeAll]
    congr 1
    funext _ s
    rw [writeAll_append, iha]
    congr 1
    funext _ s
    exact ihb s

theorem natToBits_sym_inj {x y : Sym} (h : natToBits symW x.val = natToBits symW y.val) : x = y := by
  have := congrArg bitsToNat h
  rw [bitsToNat_natToBits, bitsToNat_natToBits] at this
  have hx := x.isLt
  have hy := y.isLt
  simp only [symW] at this
  apply Fin.ext
  omega

/-- A bit sequence starts with the serialized form of at most one tree shape. -/
theorem treeBits_append_inj {t u : Tree} {x y : List Bool} (h : treeBits t ++ x = treeBits u ++ y) :
    unweighted t = unweighted u ∧ x = y := by
  induction t generalizing u x y with
  | leaf p w =>
    cases u with
    | leaf q v =>
      simp only [treeBits, List.cons_append, List.cons.injEq, true_and] at h
      obtain ⟨h1, h2⟩ := List.append_inj h (by simp)
      exact ⟨by rw [unweighted, unweighted, natToBits_sym_inj h1], h2⟩
    | node a b v => simp [treeBits] at h
  | node a b w iha ihb =>
    cases u with
    | leaf q v => simp [treeBits] at h
    | node c d v =>
      simp only [treeBits, List.cons_append, List.cons.injEq, true_and, List.append_assoc] at h
      obtain ⟨h1, h2⟩ := iha h
      obtain ⟨h3, h4⟩ := ihb h2
      exact ⟨by rw [unweighted, unweighted, h1, h3], h4⟩

theorem treeSyms_eq_of_unweighted {t u : Tree} (h : unweighted t = unweighted u) : treeSyms t = treeSyms u := by
  rw [← treeSyms_unweighted t, h, treeSyms_unweighted]

theorem treeOk_iff (t : Tree) : treeOk t = true ↔ (treeSyms t).Nodup ∧ loneByteLeaf t = false := by
  simp [treeOk]

/-! ### One token -/

/-- A token's bits in the stream (R65, R66). -/
def tokenBits : Token → List Bool
  | .leaf f => false :: natToBits symW f.toNat
  | .node => [true]

/-- A token has at least its tag bit. -/
theorem tokenBits_pos (t : Token) : 0 < (tokenBits t).length := by cases t <;> simp [tokenBits]

/-- Everything reading one token can do: the token at IN_POS, its bits consumed; or MalformedHeader, where
the bits left hold no token; or IoFailure. -/
theorem fetchToken_cases (s : State) :
    (∃ t rest d, (∀ f, t = .leaf f → f.toNat ≤ 256) ∧ inRest s = tokenBits t ++ rest ∧
      fetchToken s = .ok t
        { s with inPos := s.inPos + (tokenBits t).length, fetchFails := s.fetchFails.drop d }) ∨
    (∃ e k d, decodeBits (inRest s) = .error e ∧ k ≤ bitsLeft s ∧ fetchToken s =
      .raised .malformedHeader { s with inPos := s.inPos + k, fetchFails := s.fetchFails.drop d }) ∨
    (∃ k d, k ≤ bitsLeft s ∧ s.fetchFails[d]? = some true ∧ fetchToken s =
      .raised .ioFailure { s with inPos := s.inPos + k, fetchFails := s.fetchFails.drop (d + 1) }) := by
  unfold fetchToken
  rcases readBit_cases s with ⟨b, rest, d, hr, e⟩ | ⟨h0, d, e⟩ | ⟨d, -, hd, e⟩
  · rw [e]
    cases b with
    | true => exact .inl ⟨.node, rest, d, by simp, hr, rfl⟩
    | false =>
      simp only [andThen_ok]
      generalize hs' : ({ s with inPos := s.inPos + 1, fetchFails := s.fetchFails.drop d } : State) = s'
      have hr' : inRest s' = rest := by
        have : inRest s' = (inRest s).drop 1 := by subst hs'; simp [inRest, inBits, List.drop_drop]
        rw [this, hr]
        rfl
      have hb' : bitsLeft s = bitsLeft s' + 1 := by rw [← inRest_length, ← inRest_length, hr, hr']; rfl
      have hlen : rest.length = bitsLeft s' := by rw [← hr', inRest_length]
      have hff : s'.fetchFails = s.fetchFails.drop d := by subst hs'; rfl
      have hpos : s'.inPos = s.inPos + 1 := by subst hs'; rfl
      have hframe : ∀ p ff, ({ s' with inPos := p, fetchFails := ff } : State) =
          { s with inPos := p, fetchFails := ff } := by subst hs'; intros; rfl
      rcases readBits_cases symW s' with ⟨h9, d', e'⟩ | ⟨h9, d', e'⟩ | ⟨k, d', -, hk, -, hd', e'⟩
      · rw [e', andThen_ok]
        have hl9 : (rest.take symW).length = symW := by simp; omega
        have hlt := bitsToNat_lt (rest.take symW)
        rw [hl9] at hlt
        have hn : (BitVec.ofNat 9 (bitsToNat (rest.take symW))).toNat = bitsToNat (rest.take symW) := by
          rw [BitVec.toNat_ofNat]; exact Nat.mod_eq_of_lt hlt
        rw [hr', hframe, hpos, hff, List.drop_drop]
        simp only [decodeToken, Bool.false_eq_true, if_false, hn]
        by_cases hle : bitsToNat (rest.take symW) ≤ 256
        · refine .inl ⟨.leaf (BitVec.ofNat 9 (bitsToNat (rest.take symW))), rest.drop symW, d + d', ?_, ?_, ?_⟩
          · intro f hf
            cases hf
            rw [hn]
            exact hle
          · have := natToBits_bitsToNat (rest.take symW)
            rw [hl9] at this
            rw [hr, tokenBits, hn, this, List.cons_append, List.take_append_drop]
          · rw [if_pos hle]
            simp only [tokenBits, List.length_cons, natToBits_length]
            congr 2
        · refine .inr (.inl ⟨.reservedSymbol, 1 + symW, d + d', ?_, by omega, ?_⟩)
          · rw [hr]
            simp only [decodeBits, decodeToken, Bool.false_eq_true, if_false, hn, if_neg hle]
            rw [if_neg (by omega)]
          · rw [if_neg hle, Nat.add_assoc]
      · rw [e', andThen_ok, hframe, hpos, hff, List.drop_drop]
        refine .inr (.inl ⟨.endOfBits, 1 + bitsLeft s', d + d', ?_, by omega, by rw [Nat.add_assoc]⟩)
        rw [hr]
        simp only [decodeBits]
        rw [if_pos (by omega)]
      · rw [e', andThen_raised, hframe, hpos, hff, List.drop_drop]
        refine .inr (.inr ⟨1 + k, d + d', by omega, ?_, by rw [Nat.add_assoc, Nat.add_assoc]⟩)
        rw [← hd', hff, List.getElem?_drop]
  · rw [e, andThen_ok]
    refine .inr (.inl ⟨.endOfBits, 0, d, ?_, by omega, rfl⟩)
    have : inRest s = [] := List.length_eq_zero_iff.1 (by rw [inRest_length, h0])
    rw [this]
    rfl
  · rw [e, andThen_raised]
    exact .inr (.inr ⟨0, d, by omega, hd, rfl⟩)

/-! ### The traversal stack -/

/-- The bits a traversal stack stands for: those read since the header began. -/
def stackBits : List Frame → List Bool
  | [] => []
  | .needFirst :: st => stackBits st ++ [true]
  | .needSecond a :: st => stackBits st ++ true :: treeBits a

/-- Every complete sub-tree on the stack has only weights 0 (43_header R145). -/
def stackUnweighted : List Frame → Prop
  | [] => True
  | .needFirst :: st => stackUnweighted st
  | .needSecond a :: st => unweighted a = a ∧ stackUnweighted st

/-- What plugging a complete sub-tree into the stack keeps, if the stack stays. -/
theorem plug_inl {t : Tree} {st st' : List Frame} (h : plug t st = .inl st') :
    stackBits st' = stackBits st ++ treeBits t ∧
      (stackSyms st').Perm (treeSyms t ++ stackSyms st) ∧
      (unweighted t = t → stackUnweighted st → stackUnweighted st') := by
  induction st generalizing t with
  | nil => cases h
  | cons f st ih =>
    cases f with
    | needFirst =>
      simp only [plug, Sum.inl.injEq] at h
      subst h
      exact ⟨by simp [stackBits], by simp [stackSyms], fun h1 h2 => ⟨h1, h2⟩⟩
    | needSecond a =>
      simp only [plug] at h
      obtain ⟨h1, h2, h3⟩ := ih h
      refine ⟨by simp [h1, stackBits, treeBits], ?_, fun ht hst => h3 (by rw [unweighted, hst.1, ht]) hst.2⟩
      refine h2.trans ?_
      simp only [treeSyms_node, stackSyms, ← List.append_assoc]
      exact List.Perm.append_right _ List.perm_append_comm

/-- What plugging keeps, if the tree is complete. -/
theorem plug_inr {t T : Tree} {st : List Frame} (h : plug t st = .inr T) :
    treeBits T = stackBits st ++ treeBits t ∧ (treeSyms T).Perm (treeSyms t ++ stackSyms st) ∧
      (unweighted t = t → stackUnweighted st → unweighted T = T) ∧
      (loneByteLeaf T = true → st = [] ∧ T = t) := by
  induction st generalizing t with
  | nil =>
    simp only [plug, Sum.inr.injEq] at h
    subst h
    exact ⟨by simp [stackBits], by simp [stackSyms], fun h _ => h, fun _ => ⟨rfl, rfl⟩⟩
  | cons f st ih =>
    cases f with
    | needFirst => cases h
    | needSecond a =>
      simp only [plug] at h
      obtain ⟨h1, h2, h3, h4⟩ := ih h
      refine ⟨by simp [h1, stackBits, treeBits], ?_,
        fun ht hst => h3 (by rw [unweighted, hst.1, ht]) hst.2, fun hl => ?_⟩
      · refine h2.trans ?_
        simp only [treeSyms_node, stackSyms, ← List.append_assoc]
        exact List.Perm.append_right _ List.perm_append_comm
      · obtain ⟨-, rfl⟩ := h4 hl
        simp [loneByteLeaf] at hl

theorem stackBits_snoc (st : List Frame) (f : Frame) : stackBits (st ++ [f]) = stackBits [f] ++ stackBits st := by
  induction st with
  | nil => simp [stackBits]
  | cons g st ih => cases g <;> simp [stackBits, ih]

theorem stackSyms_snoc (st : List Frame) (f : Frame) : stackSyms (st ++ [f]) = stackSyms st ++ stackSyms [f] := by
  induction st with
  | nil => simp [stackSyms]
  | cons g st ih => cases g <;> simp [stackSyms, ih]

/-- Where a tree's serialized form continues the bits of a stack, a sub-tree's comes next, and its symbols and
the stack's are all the tree's. -/
theorem stack_next {st : List Frame} {x rest : List Bool} {T : Tree}
    (h : stackBits st ++ x = treeBits T ++ rest) :
    ∃ t y, x = treeBits t ++ y ∧ (treeSyms t ++ stackSyms st).Subperm (treeSyms T) ∧
      (st = [] → t = T) := by
  induction st using List.reverseRecOn generalizing T rest with
  | nil => exact ⟨T, rest, by simpa [stackBits] using h, by simp [stackSyms, List.Subperm.refl], fun _ => rfl⟩
  | append_singleton st f ih =>
    rw [stackBits_snoc, List.append_assoc] at h
    cases T with
    | leaf p w => cases f <;> simp [stackBits, treeBits] at h
    | node A B w =>
      cases f with
      | needFirst =>
        simp only [stackBits, treeBits, List.nil_append, List.cons_append, List.cons.injEq, true_and,
          List.append_assoc] at h
        obtain ⟨t, y, h1, h2, -⟩ := ih h
        refine ⟨t, y, h1, ?_, by simp⟩
        rw [stackSyms_snoc, treeSyms_node]
        simp only [stackSyms, List.append_nil]
        exact h2.trans (List.sublist_append_left _ _).subperm
      | needSecond a =>
        simp only [stackBits, treeBits, List.nil_append, List.cons_append, List.cons.injEq, true_and,
          List.append_assoc] at h
        obtain ⟨hu, h⟩ := treeBits_append_inj h
        obtain ⟨t, y, h1, h2, -⟩ := ih h
        refine ⟨t, y, h1, ?_, by simp⟩
        rw [stackSyms_snoc, treeSyms_node, ← treeSyms_eq_of_unweighted hu]
        simp only [stackSyms, List.append_nil]
        rw [← List.append_assoc]
        exact (List.Subperm.append h2 (List.Subperm.refl _)).trans List.perm_append_comm.subperm

/-! ### A token's effect -/

/-- SEEN and the stack agree (R24 (b)). -/
abbrev hdrOk (h : HdrRead) : Prop := h.seen.Nodup ∧ (stackSyms h.stack).Perm h.seen

theorem symOperand_toNat {f : BitVec 9} (h : f.toNat ≤ 256) : (symOperand f).val = f.toNat :=
  Nat.mod_eq_of_lt (by omega)

theorem leafToken_bits {f : BitVec 9} (h : f.toNat ≤ 256) :
    treeBits (.leaf (symOperand f) 0) = tokenBits (.leaf f) := by
  simp [treeBits, tokenBits, symOperand_toNat h]

/-- Everything a token can do to a header read: it goes on, or the tree is complete, or MalformedHeader,
where no tree stands at these bits. -/
theorem applyToken_cases {t : Token} (ht : ∀ f, t = .leaf f → f.toNat ≤ 256) {h : HdrRead} (hh : hdrOk h)
    (s : State) :
    (∃ h', applyToken t h s = .ok (some h') s ∧ hdrOk h' ∧
      stackBits h'.stack = stackBits h.stack ++ tokenBits t ∧
      (stackUnweighted h.stack → stackUnweighted h'.stack)) ∨
    (∃ T, applyToken t h s = .ok none { s with tree := some T, cur := T, dstate := .walking } ∧
      treeBits T = stackBits h.stack ++ tokenBits t ∧ treeOk T = true ∧
      (stackUnweighted h.stack → unweighted T = T)) ∨
    (applyToken t h s = .raised .malformedHeader s ∧
      ¬ ∃ T rest rest', treeOk T = true ∧ stackBits h.stack ++ (tokenBits t ++ rest) = treeBits T ++ rest') := by
  cases t with
  | node => exact .inl ⟨⟨.needFirst :: h.stack, h.seen⟩, rfl, hh, rfl, fun h => h⟩
  | leaf f =>
    have hf := ht f rfl
    simp only [applyToken, leafToken, if_neg (Nat.not_lt.2 hf)]
    have hnext : ∀ {T : Tree} {rest rest' : List Bool}, treeOk T = true →
        stackBits h.stack ++ (tokenBits (.leaf f) ++ rest) = treeBits T ++ rest' →
        symOperand f ∉ stackSyms h.stack ∧ (h.stack = [] → loneByteLeaf (.leaf (symOperand f) 0) = false) := by
      intro T rest rest' hT he
      rw [treeOk_iff] at hT
      obtain ⟨t, y, h1, h2, h3⟩ := stack_next he
      rw [← leafToken_bits hf] at h1
      have hu := (treeBits_append_inj h1).1
      have hs := treeSyms_eq_of_unweighted hu
      rw [← hs] at h2
      have hnd : ([symOperand f] ++ stackSyms h.stack).Nodup := by
        obtain ⟨l, hl, hsub⟩ := h2
        exact hl.nodup_iff.1 (hT.1.sublist hsub)
      refine ⟨?_, fun hst => ?_⟩
      · simp only [List.singleton_append, List.nodup_cons] at hnd
        exact hnd.1
      · rw [h3 hst] at hu
        have := hT.2
        cases T with
        | leaf p w => simp only [unweighted, Tree.leaf.injEq, and_true] at hu; rw [hu]; exact this
        | node a b w => simp [unweighted] at hu
    by_cases hseen : symOperand f ∈ h.seen
    · refine .inr (.inr ⟨by simp [hseen], ?_⟩)
      rintro ⟨T, rest, rest', hT, he⟩
      exact (hnext hT he).1 (hh.2.mem_iff.2 hseen)
    · rw [if_neg (by simpa using hseen)]
      cases hp : plug (.leaf (symOperand f) 0) h.stack with
      | inl st =>
        obtain ⟨h1, h2, h3⟩ := plug_inl hp
        refine .inl ⟨⟨st, symOperand f :: h.seen⟩, rfl, ⟨List.nodup_cons.2 ⟨hseen, hh.1⟩, ?_⟩, ?_, h3 rfl⟩
        · exact h2.trans (hh.2.cons _)
        · rw [h1, leafToken_bits hf]
      | inr T =>
        obtain ⟨h1, h2, h3, h4⟩ := plug_inr hp
        simp only [finishHeader]
        by_cases hl : loneByteLeaf T = true
        · refine .inr (.inr ⟨by rw [if_pos hl], ?_⟩)
          rintro ⟨T', rest, rest', hT, he⟩
          obtain ⟨hst, rfl⟩ := h4 hl
          rw [(hnext hT he).2 hst] at hl
          cases hl
        · refine .inr (.inl ⟨T, by rw [if_neg hl], by rw [h1, leafToken_bits hf], ?_, h3 rfl⟩)
          rw [treeOk_iff]
          refine ⟨?_, by simpa using hl⟩
          rw [h2.nodup_iff]
          refine List.nodup_cons.2 ⟨fun hm => hseen (hh.2.mem_iff.1 hm), ?_⟩
          exact hh.2.nodup_iff.2 hh.1

/-! ### The header -/

/-- Everything reading a header can do, with turns enough: the tree whose serialized form stands there is read
and consumed; or MalformedHeader, where no tree's does; or IoFailure at a fetch that fails. -/
theorem readHeader_cases {n : Nat} {h : HdrRead} (hh : hdrOk h) {s : State} (hn : bitsLeft s < n) :
    (∃ T used rest d, inRest s = used ++ rest ∧ treeBits T = stackBits h.stack ++ used ∧
      treeOk T = true ∧ (stackUnweighted h.stack → unweighted T = T) ∧
      readHeader n h s = .ok () { s with
        inPos := s.inPos + used.length, fetchFails := s.fetchFails.drop d,
        tree := some T, cur := T, dstate := .walking }) ∨
    (∃ k d, k ≤ bitsLeft s ∧
      (¬ ∃ T rest, treeOk T = true ∧ stackBits h.stack ++ inRest s = treeBits T ++ rest) ∧
      readHeader n h s = .raised .malformedHeader { s with
        inPos := s.inPos + k, fetchFails := s.fetchFails.drop d }) ∨
    (∃ k d, k ≤ bitsLeft s ∧ s.fetchFails[d]? = some true ∧
      readHeader n h s = .raised .ioFailure { s with
        inPos := s.inPos + k, fetchFails := s.fetchFails.drop (d + 1) }) := by
  induction n generalizing h s with
  | zero => omega
  | succ n ih =>
    rw [readHeader]
    rcases fetchToken_cases s with ⟨t, rest, d, ht, hr, e⟩ | ⟨er, k, d, hr, hk, e⟩ | ⟨k, d, hk, hd, e⟩
    · rw [e, andThen_ok]
      generalize hs' : ({ s with
        inPos := s.inPos + (tokenBits t).length, fetchFails := s.fetchFails.drop d } : State) = s'
      have hr' : inRest s' = rest := by
        have : inRest s' = (inRest s).drop (tokenBits t).length := by
          subst hs'; simp [inRest, inBits, List.drop_drop]
        rw [this, hr, List.drop_left]
      have hb : bitsLeft s = (tokenBits t).length + bitsLeft s' := by
        rw [← inRest_length, ← inRest_length, hr, hr', List.length_append]
      have hpos := tokenBits_pos t
      rcases applyToken_cases ht hh s' with ⟨h', e', hh', hbits, hu⟩ | ⟨T, e', hbits, hok, hu⟩ | ⟨e', hno⟩
      · rw [e', andThen_ok]
        rcases ih hh' (s := s') (by omega) with ⟨T, used, rest', d', h1, h2, h3, h4, e''⟩ |
          ⟨k, d', hk, hno, e''⟩ | ⟨k, d', hk, hd', e''⟩
        · refine .inl ⟨T, tokenBits t ++ used, rest', d + d', ?_, ?_, h3, fun h => h4 (hu h), ?_⟩
          · rw [hr, ← hr', h1, List.append_assoc]
          · rw [h2, hbits, List.append_assoc]
          · simp only [e'']
            subst hs'
            simp only [List.drop_drop, List.length_append, Nat.add_assoc]
        · refine .inr (.inl ⟨(tokenBits t).length + k, d + d', by omega, ?_, ?_⟩)
          · rintro ⟨T, rest', hT, he⟩
            refine hno ⟨T, rest', hT, ?_⟩
            rw [← he, hr, hbits, hr', List.append_assoc]
          · simp only [e'']
            subst hs'
            simp only [List.drop_drop, Nat.add_assoc]
        · refine .inr (.inr ⟨(tokenBits t).length + k, d + d', by omega, ?_, ?_⟩)
          · have hff : s'.fetchFails = s.fetchFails.drop d := by subst hs'; rfl
            rw [← hd', hff, List.getElem?_drop]
          · simp only [e'']
            subst hs'
            simp only [List.drop_drop, Nat.add_assoc]
      · rw [e', andThen_ok]
        refine .inl ⟨T, tokenBits t, rest, d, hr, hbits, hok, hu, ?_⟩
        subst hs'
        rfl
      · rw [e', andThen_raised]
        refine .inr (.inl ⟨(tokenBits t).length, d, by omega, ?_, by subst hs'; rfl⟩)
        rintro ⟨T, rest', hT, he⟩
        exact hno ⟨T, rest, rest', hT, by rw [← hr, he]⟩
    · rw [e, andThen_raised]
      refine .inr (.inl ⟨k, d, hk, ?_, rfl⟩)
      rintro ⟨T, rest, hT, he⟩
      obtain ⟨t, y, h1, -, -⟩ := stack_next he
      cases t with
      | leaf p w =>
        have hp := p.isLt
        have := decodeBits_leaf (f := BitVec.ofNat 9 p.val)
          (by rw [BitVec.toNat_ofNat, Nat.mod_eq_of_lt (by omega)]; omega) y
        rw [BitVec.toNat_ofNat, Nat.mod_eq_of_lt (by omega)] at this
        rw [h1, treeBits, this] at hr
        cases hr
      | node a b w => rw [h1] at hr; simp [treeBits, decodeBits] at hr
    · rw [e, andThen_raised]
      exact .inr (.inr ⟨k, d, hk, hd, rfl⟩)

/-! ### The header where a fetch fails -/

/-- The same state with `i` for IN and an environment that fails no fetch. -/
abbrev elsewhere (i : List Byte) (s : State) : State := { s with input := i, fetchFails := [] }

/-- `i` reaches position `p` and holds the bits of IN before it. -/
abbrev SameBefore (i : List Byte) (p : Nat) (s : State) : Prop :=
  p ≤ 8 * i.length ∧ (bytesBits i).take p = (inBits s).take p

theorem SameBefore.slice {i : List Byte} {p q n : Nat} {s : State} (h : SameBefore i p s) (hq : q + n ≤ p) :
    ((bytesBits i).drop q).take n = ((inBits s).drop q).take n := by
  have := congrArg (fun l => (l.drop q).take n) h.2
  simpa [List.drop_take, List.take_take, show min n (p - q) = n by omega] using this

theorem sameBefore_bytes {i : List Byte} {m : Nat} {s : State} (h : i.take m = s.input.take m) (hi : m ≤ i.length) :
    SameBefore i (8 * m) s := by
  have hb : ∀ l : List Byte, (bytesBits l).take (8 * m) = bytesBits (l.take m) := by
    intro l
    by_cases hl : m ≤ l.length
    · conv_lhs => rw [← List.take_append_drop m l, bytesBits_append]
      exact List.take_left' (by rw [bytesBits_length, List.length_take]; omega)
    · rw [List.take_of_length_le (l := l) (by omega)]
      exact List.take_of_length_le (by rw [bytesBits_length]; omega)
  exact ⟨by omega, by rw [inBits, hb, hb, h]⟩

theorem readBit_elsewhere {i : List Byte} {s : State} {b : Bool} (h : (bytesBits i)[s.inPos]? = some b) :
    readBit (elsewhere i s) = .ok (some b) { elsewhere i s with inPos := s.inPos + 1 } := by
  rw [readBit_eq, if_neg (by simp)]
  change (match (bytesBits i)[s.inPos]? with | none => _ | some b => _) = _
  rw [h]
  simp [fetched]

theorem readBits_elsewhere (n : Nat) (i : List Byte) (s : State) : readBits n (elsewhere i s) =
    if n ≤ 8 * i.length - s.inPos then
      .ok (some (bitsToNat (((bytesBits i).drop s.inPos).take n))) { elsewhere i s with inPos := s.inPos + n }
    else .ok none { elsewhere i s with inPos := s.inPos + (8 * i.length - s.inPos) } := by
  obtain ⟨d, e⟩ := readBits_neverFail n (s := elsewhere i s) rfl
  rw [e, List.drop_nil]
  rfl

/-- The nine symbol bits of a token, as it is then told (R65, R67). -/
def leafRun (v : Nat) (u : State) : Run Token :=
  match decodeToken false (BitVec.ofNat 9 v) with
  | .ok t => .ok t u
  | .error _ => .raised .malformedHeader u

theorem leafRun_cases {l : List Bool} (h : l.length = symW) :
    ((BitVec.ofNat 9 (bitsToNat l)).toNat ≤ 256 ∧
      (∀ u, leafRun (bitsToNat l) u = .ok (.leaf (BitVec.ofNat 9 (bitsToNat l))) u) ∧
      tokenBits (.leaf (BitVec.ofNat 9 (bitsToNat l))) = false :: l) ∨
    ((∀ u, leafRun (bitsToNat l) u = .raised .malformedHeader u) ∧
      ∀ y, decodeBits (false :: (l ++ y)) = .error .reservedSymbol) := by
  have hlt := bitsToNat_lt l
  rw [h] at hlt
  have hn : (BitVec.ofNat 9 (bitsToNat l)).toNat = bitsToNat l := by
    rw [BitVec.toNat_ofNat]; exact Nat.mod_eq_of_lt hlt
  simp only [leafRun, decodeToken, Bool.false_eq_true, if_false, hn]
  by_cases hle : bitsToNat l ≤ 256
  · refine .inl ⟨hle, fun u => by rw [if_pos hle], ?_⟩
    have := natToBits_bitsToNat l
    rw [h] at this
    rw [tokenBits, hn, this]
  · refine .inr ⟨fun u => by rw [if_neg hle], fun y => ?_⟩
    simp only [decodeBits, decodeToken, Bool.false_eq_true, if_false]
    rw [if_neg (by simp; omega), List.take_append_of_le_length (by omega), List.take_of_length_le (by omega), hn,
      if_neg hle]

/-- Where no fetch fails, reading one token consumes a bit, if there is one, whether it ends in a token or not. -/
theorem fetchToken_elsewhere_pos (i : List Byte) (s : State) :
    (∀ t u, fetchToken (elsewhere i s) = .ok t u → s.inPos < u.inPos) ∧
    ∀ k u, fetchToken (elsewhere i s) = .raised k u → min (s.inPos + 1) (8 * i.length) ≤ u.inPos := by
  refine ⟨fun t u hu => ?_, fun k u hu => ?_⟩
  · rcases fetchToken_cases (elsewhere i s) with ⟨t', _, _, -, -, e'⟩ | ⟨_, _, _, -, -, e'⟩ | ⟨_, _, -, -, e'⟩ <;>
      rw [hu] at e' <;> cases e'
    have := tokenBits_pos t
    simp only
    omega
  · cases hb : (bytesBits i)[s.inPos]? with
    | none =>
      have hlen := List.getElem?_eq_none_iff.1 hb
      rw [bytesBits_length] at hlen
      rcases fetchToken_cases (elsewhere i s) with ⟨_, _, _, -, -, e'⟩ | ⟨_, _, _, -, -, e'⟩ | ⟨_, _, -, -, e'⟩ <;>
        rw [hu] at e' <;> cases e' <;> simp only <;> omega
    | some b =>
      rw [fetchToken, readBit_elsewhere hb, andThen_ok] at hu
      cases b with
      | true => cases hu
      | false =>
        simp only at hu
        rcases readBits_cases symW { elsewhere i s with inPos := s.inPos + 1 } with
          ⟨-, d, e⟩ | ⟨-, d, e⟩ | ⟨k, d, -, -, -, -, e⟩ <;> rw [e] at hu
        · rw [andThen_ok] at hu
          simp only at hu
          split at hu <;> cases hu
          simp only
          omega
        · cases hu
          simp only
          omega
        · cases hu
          simp only
          omega

/-- Reading one token on both sides of the fetch that fails: a token before it, and what is none before it, are
read as where no fetch fails and IN is `i`; else it is IoFailure there, and where no fetch fails and IN is `i` a
bit is read there, if there is one. -/
theorem fetchToken_failsAt {s : State} {p : Nat} {ds : List Bool} (h : fetchFailsAt s p ds)
    {i : List Byte} (hi : SameBefore i p s) :
    (∃ t ff, (∀ f, t = .leaf f → f.toNat ≤ 256) ∧ (inRest s).take (p - s.inPos) =
        tokenBits t ++ (inRest { s with inPos := s.inPos + (tokenBits t).length, fetchFails := ff }).take
          (p - (s.inPos + (tokenBits t).length)) ∧
      fetchToken s = .ok t { s with inPos := s.inPos + (tokenBits t).length, fetchFails := ff } ∧
      fetchToken (elsewhere i s) = .ok t { elsewhere i s with inPos := s.inPos + (tokenBits t).length } ∧
      fetchFailsAt { s with inPos := s.inPos + (tokenBits t).length, fetchFails := ff } p ds) ∨
    (∃ k ff, s.inPos + k ≤ p ∧ (∀ y, decodeBits ((inRest s).take (p - s.inPos) ++ y) = .error .reservedSymbol) ∧
      fetchToken s = .raised .malformedHeader { s with inPos := s.inPos + k, fetchFails := ff } ∧
      fetchToken (elsewhere i s) = .raised .malformedHeader { elsewhere i s with inPos := s.inPos + k }) ∨
    (fetchToken s = .raised .ioFailure { s with inPos := p, fetchFails := ds } ∧
      (∀ t u, fetchToken (elsewhere i s) = .ok t u → p < u.inPos) ∧
      ∀ k u, fetchToken (elsewhere i s) = .raised k u → min (p + 1) (8 * i.length) ≤ u.inPos) := by
  rcases readBit_failsAt h with ⟨rfl, e⟩ | ⟨hlt, b, ff, hr, e, h'⟩
  · exact .inr (.inr ⟨by rw [fetchToken, e, andThen_raised], fetchToken_elsewhere_pos i s⟩)
  · have hb : (bytesBits i)[s.inPos]? = some b := by
      have := congrArg List.head? (hi.slice (q := s.inPos) (n := 1) hlt)
      rw [show (inBits s).drop s.inPos = inRest s from rfl, hr] at this
      simpa [List.head?_take, List.head?_drop] using this
    have e0 := readBit_elsewhere hb
    obtain ⟨j, hj⟩ : ∃ j, p - s.inPos = j + 1 := ⟨p - s.inPos - 1, by omega⟩
    have hj' : p - (s.inPos + 1) = j := by omega
    cases b with
    | true =>
      refine .inl ⟨.node, ff, by simp, ?_, ?_, ?_, h'⟩
      · rw [hj, hr, List.take_succ_cons]
        change _ = [true] ++ ((inBits s).drop (s.inPos + 1)).take (p - (s.inPos + 1))
        rw [hj']
        rfl
      · rw [fetchToken, e]
        rfl
      · rw [fetchToken, e0]
        rfl
    | false =>
      have hbl : bitsLeft { s with inPos := s.inPos + 1, fetchFails := ff } = 8 * s.input.length - (s.inPos + 1) := rfl
      have hps : p ≤ 8 * s.input.length := by obtain ⟨k, -, -, hl⟩ := h; exact hl
      have he : fetchToken s = (readBits symW { s with inPos := s.inPos + 1, fetchFails := ff }).andThen fun r u =>
          match r with
          | none => .raised .malformedHeader u
          | some v => leafRun v u := by rw [fetchToken, e]; rfl
      have he0 : fetchToken (elsewhere i s) =
          (readBits symW (elsewhere i { s with inPos := s.inPos + 1 })).andThen fun r u =>
          match r with
          | none => .raised .malformedHeader u
          | some v => leafRun v u := by rw [fetchToken, e0]; rfl
      rw [readBits_elsewhere] at he0
      obtain ⟨hlow, hhigh⟩ := readBits_failsAt symW h'
      by_cases h9 : p < s.inPos + 1 + symW
      · refine .inr (.inr ⟨by rw [he, hlow h9, andThen_raised], fun t u hu => ?_, fun k u hu => ?_⟩)
        all_goals
          rw [he0] at hu
          split at hu <;> rw [andThen_ok] at hu <;> simp only at hu
        · unfold leafRun at hu
          split at hu <;> cases hu
          exact h9
        · cases hu
        · unfold leafRun at hu
          split at hu <;> cases hu
          exact (Nat.min_le_left _ _).trans h9
        · cases hu
          change _ ≤ s.inPos + 1 + (8 * i.length - (s.inPos + 1))
          omega
      · obtain ⟨ff', e', h''⟩ := hhigh (by simp only; omega)
        rw [e', andThen_ok] at he
        have hpi := hi.1
        rw [if_pos (by simp only; omega), andThen_ok] at he0
        have hr' : inRest { s with inPos := s.inPos + 1, fetchFails := ff } = (inBits s).drop (s.inPos + 1) := rfl
        rw [hr'] at he
        simp only at he0
        rw [hi.slice (by omega)] at he0
        generalize hl : ((inBits s).drop (s.inPos + 1)).take symW = l at he he0
        have hlen : l.length = symW := by
          rw [← hl, List.length_take, List.length_drop]
          simp only [inBits, bytesBits_length]
          omega
        have htake : (inRest s).take (p - s.inPos) =
            false :: (l ++ ((inBits s).drop (s.inPos + 1 + symW)).take (p - (s.inPos + 1 + symW))) := by
          rw [hj, hr, List.take_succ_cons, ← hl]
          congr 1
          obtain ⟨i, rfl⟩ : ∃ i, j = symW + i := ⟨j - symW, by omega⟩
          rw [List.take_add, List.drop_drop]
          congr 2
          omega
        rcases leafRun_cases hlen with ⟨h1, h2, h3⟩ | ⟨h1, h2⟩
        · have hlt' : (tokenBits (.leaf (BitVec.ofNat 9 (bitsToNat l)))).length = 1 + symW := by
            rw [h3, List.length_cons, hlen]; omega
          refine .inl ⟨.leaf (BitVec.ofNat 9 (bitsToNat l)), ff', ?_, ?_, ?_, ?_, ?_⟩
          · intro f hf
            cases hf
            exact h1
          · rw [htake, hlt', h3, ← Nat.add_assoc]
            rfl
          · rw [he, hlt', ← Nat.add_assoc]
            exact h2 _
          · rw [he0, hlt', ← Nat.add_assoc]
            exact h2 _
          · rw [hlt', ← Nat.add_assoc]
            exact h''
        · refine .inr (.inl ⟨1 + symW, ff', by omega, fun y => ?_, ?_, ?_⟩)
          · rw [htake, List.cons_append, List.append_assoc]
            exact h2 _
          · rw [he, ← Nat.add_assoc]
            exact h1 _
          · rw [he0, ← Nat.add_assoc]
            exact h1 _

/-- A token's effect depends neither on IN nor on the reader. -/
theorem applyToken_reader (t : Token) (h : HdrRead) (s : State) (i : List Byte) (q : Nat)
    (ff : List Bool) :
    (applyToken t h s = .raised .malformedHeader s ∧
      applyToken t h { s with input := i, inPos := q, fetchFails := ff } =
        .raised .malformedHeader { s with input := i, inPos := q, fetchFails := ff }) ∨
    (∃ h', applyToken t h s = .ok (some h') s ∧
      applyToken t h { s with input := i, inPos := q, fetchFails := ff } =
        .ok (some h') { s with input := i, inPos := q, fetchFails := ff }) ∨
    (∃ T, applyToken t h s = .ok none { s with tree := some T, cur := T, dstate := .walking } ∧
      applyToken t h { s with input := i, inPos := q, fetchFails := ff } = .ok none { s with
        input := i, inPos := q, fetchFails := ff, tree := some T, cur := T, dstate := .walking }) := by
  cases t with
  | node => exact .inr (.inl ⟨_, rfl, rfl⟩)
  | leaf f =>
    simp only [applyToken, leafToken]
    split
    · exact .inl ⟨rfl, rfl⟩
    · split
      · exact .inl ⟨rfl, rfl⟩
      · cases plug (.leaf (symOperand f) 0) h.stack with
        | inl st => exact .inr (.inl ⟨_, rfl, rfl⟩)
        | inr T =>
          simp only [finishHeader]
          split
          · exact .inl ⟨rfl, rfl⟩
          · exact .inr (.inr ⟨T, rfl, rfl⟩)

/-- One turn of reading a header. -/
theorem readHeader_succ (n : Nat) (h : HdrRead) (s : State) : readHeader (n + 1) h s =
    (fetchToken s).andThen fun t s => (applyToken t h s).andThen fun r s =>
      match r with
      | none => .ok () s
      | some h' => readHeader n h' s := rfl

/-- Reading a header never moves the reader back, after a token or from the start. -/
theorem readHeader_inPos_le {n : Nat} : ∀ {h : HdrRead} {s t : State},
    (readHeader n h s = .ok () t ∨ ∃ k, readHeader n h s = .raised k t) → s.inPos ≤ t.inPos := by
  induction n with
  | zero => intro h s t ht; simp [readHeader] at ht
  | succ n ih =>
    intro h s t ht
    rw [readHeader] at ht
    rcases fetchToken_cases s with ⟨t', _, d, -, -, e⟩ | ⟨_, k, d, -, -, e⟩ | ⟨k, d, -, -, e⟩
    · rw [e, andThen_ok] at ht
      refine Nat.le_trans (m := s.inPos + (tokenBits t').length) (Nat.le_add_right _ _) ?_
      rcases applyToken_reader t' h { s with
          inPos := s.inPos + (tokenBits t').length, fetchFails := s.fetchFails.drop d } [] 0 [] with
        ⟨a, -⟩ | ⟨h', a, -⟩ | ⟨T, a, -⟩ <;> rw [a] at ht
      · rcases ht with ht | ⟨k, ht⟩ <;> cases ht
        exact Nat.le_refl _
      · exact ih ht
      · rcases ht with ht | ⟨k, ht⟩ <;> cases ht
        exact Nat.le_refl _
    · rw [e] at ht
      rcases ht with ht | ⟨_, ht⟩ <;> cases ht
      exact Nat.le_add_right _ _
    · rw [e] at ht
      rcases ht with ht | ⟨_, ht⟩ <;> cases ht
      exact Nat.le_add_right _ _

/-- Reading a header where the bits before the fetch that fails are a beginning, not the whole, of the serialized
form of a tree: IoFailure there. -/
theorem readHeader_failsInside {n p : Nat} {ds : List Bool} {h : HdrRead} (hh : hdrOk h) {s : State}
    (hn : bitsLeft s < n) (hf : fetchFailsAt s p ds) {T : Tree} {x : List Bool} (hT : treeOk T = true)
    (hx : x ≠ []) (he : stackBits h.stack ++ ((inRest s).take (p - s.inPos) ++ x) = treeBits T) :
    readHeader n h s = .raised .ioFailure { s with inPos := p, fetchFails := ds } := by
  induction n generalizing h s with
  | zero => omega
  | succ n ih =>
    rw [readHeader]
    rcases fetchToken_failsAt hf (i := s.input) ⟨by obtain ⟨_, -, -, hl⟩ := hf; exact hl, rfl⟩ with ⟨t, ff, ht, htake, e, -, hf'⟩ | ⟨k, ff, -, hd, -⟩ | ⟨e, -⟩
    · rw [e, andThen_ok]
      rw [htake, List.append_assoc] at he
      rcases applyToken_cases ht hh { s with inPos := s.inPos + (tokenBits t).length, fetchFails := ff } with
        ⟨h', e', hh', hbits, -⟩ | ⟨T', e', hbits, -⟩ | ⟨e', hno⟩
      · rw [e', andThen_ok]
        have hpos := tokenBits_pos t
        refine ih hh' ?_ hf' (by rw [hbits, List.append_assoc]; exact he)
        have hl : (tokenBits t).length ≤ bitsLeft s := by
          have := congrArg List.length htake
          rw [List.length_take, inRest_length, List.length_append] at this
          omega
        simp only [bitsLeft] at *
        omega
      · rw [← List.append_assoc, ← hbits, ← List.append_nil (treeBits T)] at he
        have := (treeBits_append_inj he).2
        simp [hx] at this
      · exact absurd ⟨T, _, [], hT, he.trans (List.append_nil _).symm⟩ hno
    · exfalso
      obtain ⟨u, y, h1, -, -⟩ := stack_next (T := T) (rest := []) (by rw [he, List.append_nil])
      have hd := hd x
      rw [h1] at hd
      cases u with
      | leaf q w =>
        have hq := q.isLt
        have := decodeBits_leaf (f := BitVec.ofNat 9 q.val)
          (by rw [BitVec.toNat_ofNat, Nat.mod_eq_of_lt (by omega)]; omega) y
        rw [BitVec.toNat_ofNat, Nat.mod_eq_of_lt (by omega)] at this
        rw [treeBits, this] at hd
        cases hd
      | node a b w => simp [treeBits, decodeBits] at hd
    · rw [e, andThen_raised]

/-- Reading a header where the reader's next FAIL meets it at `p`, against reading it where no fetch fails and IN is
`i`, which holds the same bits before `p`: it does the same, where that reads no bit at `p`; else IoFailure at `p`. -/
theorem readHeader_failsAt {n m p : Nat} {ds : List Bool} {i : List Byte} {h : HdrRead} {s : State}
    (hn : bitsLeft s < n) (hm : 8 * i.length - s.inPos < m) (hf : fetchFailsAt s p ds) (hi : SameBefore i p s) :
    (∃ t ff, t.inPos ≤ p ∧ t.input = i ∧
      ((readHeader m h (elsewhere i s) = .ok () t ∧
          readHeader n h s = .ok () { t with input := s.input, fetchFails := ff }) ∨
        ∃ k, readHeader m h (elsewhere i s) = .raised k t ∧
          readHeader n h s = .raised k { t with input := s.input, fetchFails := ff })) ∨
    (readHeader n h s = .raised .ioFailure { s with inPos := p, fetchFails := ds } ∧
      (∀ t, readHeader m h (elsewhere i s) = .ok () t → p < t.inPos) ∧
      ∀ k t, readHeader m h (elsewhere i s) = .raised k t → min (p + 1) (8 * i.length) ≤ t.inPos) := by
  induction n generalizing h s m with
  | zero => omega
  | succ n ih =>
    obtain ⟨m, rfl⟩ : ∃ j, m = j + 1 := ⟨m - 1, by omega⟩
    rcases fetchToken_failsAt hf hi with ⟨t, ff, -, htake, e, e0, hf'⟩ | ⟨k, ff, hk, -, e, e0⟩ | ⟨e, hok, hra⟩
    · have hle : s.inPos + (tokenBits t).length ≤ p := by
        have hb : p ≤ 8 * s.input.length ∧ s.inPos ≤ p := by obtain ⟨k, -, hk, hl⟩ := hf; omega
        have := congrArg List.length htake
        rw [List.length_take, inRest_length, bitsLeft, List.length_append] at this
        omega
      have hpos := tokenBits_pos t
      have hbl : bitsLeft { s with inPos := s.inPos + (tokenBits t).length, fetchFails := ff } =
          8 * s.input.length - (s.inPos + (tokenBits t).length) := rfl
      have hlen : p ≤ 8 * s.input.length := by obtain ⟨k, -, -, hl⟩ := hf; exact hl
      rw [readHeader_succ n h s, readHeader_succ m h (elsewhere i s), e, e0, andThen_ok, andThen_ok]
      rcases applyToken_reader t h { s with inPos := s.inPos + (tokenBits t).length, fetchFails := ff }
          i (s.inPos + (tokenBits t).length) [] with ⟨a, a0⟩ | ⟨h', a, a0⟩ | ⟨T, a, a0⟩
      · rw [a]
        simp only at a0
        rw [a0]
        exact .inl ⟨_, ff, hle, rfl, .inr ⟨_, rfl, rfl⟩⟩
      · rw [a]
        simp only at a0
        rw [a0]
        simp only [andThen_ok]
        exact ih (by rw [hbl]; simp only [bitsLeft] at hn; omega) (by simp only; omega) hf' hi
      · rw [a]
        simp only at a0
        rw [a0]
        exact .inl ⟨_, ff, hle, rfl, .inl ⟨rfl, rfl⟩⟩
    · rw [readHeader_succ n h s, readHeader_succ m h (elsewhere i s), e, e0]
      exact .inl ⟨_, ff, hk, rfl, .inr ⟨_, rfl, rfl⟩⟩
    · rw [readHeader_succ n h s, readHeader_succ m h (elsewhere i s), e]
      refine .inr ⟨rfl, ?_⟩
      cases e0 : fetchToken (elsewhere i s) with
      | hang => simp
      | raised k u => exact ⟨fun t ht => (by cases ht), fun _ t ht => (by cases ht; exact hra k u e0)⟩
      | ok t' u =>
        have hu := hok t' u e0
        rw [andThen_ok]
        suffices ∀ t, ((applyToken t' h u).andThen (fun r s => match r with
              | none => .ok () s
              | some h' => readHeader m h' s) = .ok () t ∨
            ∃ k, (applyToken t' h u).andThen (fun r s => match r with
              | none => .ok () s
              | some h' => readHeader m h' s) = .raised k t) → p < t.inPos from
          ⟨fun t ht => this t (.inl ht), fun k t ht => (Nat.min_le_left _ _).trans (this t (.inr ⟨k, ht⟩))⟩
        intro t ht
        refine hu.trans_le ?_
        rcases applyToken_reader t' h u [] 0 [] with ⟨a, -⟩ | ⟨h', a, -⟩ | ⟨T, a, -⟩ <;> rw [a] at ht
        · rcases ht with ht | ⟨k, ht⟩ <;> cases ht
          exact Nat.le_refl _
        · exact readHeader_inPos_le ht
        · rcases ht with ht | ⟨k, ht⟩ <;> cases ht
          exact Nat.le_refl _

end Sys2Proof.Machine
end

