-- ==== Sys2Proof/Laws/PerInstr.lean ====
section
/-!
SUPPORT. Statements about every instruction as syntax, one lemma per constructor. Family Width: the encoding
has the width spec/opcode_table.json gives the row.
-/

namespace Sys2Proof.Laws.Width

/-- The bits of an encoding in the order they travel or are numbered. -/
def wireLength : Wire → Nat
  | .word _ => 48
  | .token bits => bits.length

/-- The width of the row (spec/opcode_table.json: 48 for a command, 10 for HDR.LEAF, 1 for HDR.NODE). -/
def tableWidth : Instr → Nat
  | .hdrLeaf _ => 10
  | .hdrNode => 1
  | i => if i.isCommand then 48 else 0

/-- The encoding of an instruction is a word exactly for a command, and has its row's width. -/
def Statement (i : Instr) : Prop :=
  wireLength (encode i) = tableWidth i ∧ ((∃ w, encode i = .word w) ↔ i.isCommand = true)

theorem clr : Statement .clr := ⟨rfl, fun _ => rfl, fun _ => ⟨_, rfl⟩⟩
theorem rewind : Statement .rewind := ⟨rfl, fun _ => rfl, fun _ => ⟨_, rfl⟩⟩
theorem rdbit : Statement .rdbit := ⟨rfl, fun _ => rfl, fun _ => ⟨_, rfl⟩⟩
theorem rdbits (n : BitVec 6) : Statement (.rdbits n) := ⟨rfl, fun _ => rfl, fun _ => ⟨_, rfl⟩⟩
theorem wrbit (b : Bool) : Statement (.wrbit b) := ⟨rfl, fun _ => rfl, fun _ => ⟨_, rfl⟩⟩
theorem wrbits (n : BitVec 6) (v : BitVec 32) : Statement (.wrbits n v) :=
  ⟨rfl, fun _ => rfl, fun _ => ⟨_, rfl⟩⟩
theorem flush : Statement .flush := ⟨rfl, fun _ => rfl, fun _ => ⟨_, rfl⟩⟩
theorem freq : Statement .freq := ⟨rfl, fun _ => rfl, fun _ => ⟨_, rfl⟩⟩
theorem build : Statement .build := ⟨rfl, fun _ => rfl, fun _ => ⟨_, rfl⟩⟩
theorem mktab : Statement .mktab := ⟨rfl, fun _ => rfl, fun _ => ⟨_, rfl⟩⟩
theorem wrhdr : Statement .wrhdr := ⟨rfl, fun _ => rfl, fun _ => ⟨_, rfl⟩⟩
theorem encode : Statement .encode := ⟨rfl, fun _ => rfl, fun _ => ⟨_, rfl⟩⟩
theorem rdhdr : Statement .rdhdr := ⟨rfl, fun _ => rfl, fun _ => ⟨_, rfl⟩⟩
theorem decode : Statement .decode := ⟨rfl, fun _ => rfl, fun _ => ⟨_, rfl⟩⟩
theorem hdrLeaf (s : BitVec 9) : Statement (.hdrLeaf s) :=
  ⟨by simp [Sys2Proof.encode, wireLength, tableWidth, symW],
    by simp [Sys2Proof.encode, Instr.isCommand]⟩
theorem hdrNode : Statement .hdrNode :=
  ⟨rfl, by simp [Sys2Proof.encode, Instr.isCommand]⟩

end Sys2Proof.Laws.Width
end

