-- ==== Sys2Proof/Laws/TreeBuild.lean ====
section
/-!
SUPPORT. The key order, the extraction of the least entry, the merge loop and Q as BUILD starts with it
(42_tree_build R121 to R124).
-/

namespace Sys2Proof.Machine

/-! ### The key order (R122) -/

theorem keyLess_iff (a b : Entry) : keyLess a b = true ↔
    treeWeight a.tree < treeWeight b.tree ∨
      (treeWeight a.tree = treeWeight b.tree ∧
        (a.kind < b.kind ∨ (a.kind = b.kind ∧ a.order < b.order))) := by
  simp [keyLess]

theorem keyLess_trans {a b c : Entry} (h : keyLess a b = true) (h' : keyLess b c = true) :
    keyLess a c = true := by
  rw [keyLess_iff] at *
  omega

theorem keyLess_asymm {a b : Entry} (h : keyLess a b = true) (h' : keyLess b a = true) : False := by
  rw [keyLess_iff] at *
  omega

/-- What tells two entries of one Q apart: kind and order. -/
def tag (e : Entry) : Nat × Nat := (e.kind, e.order)

/-- The order is total on entries with different tags. -/
theorem keyLess_total {a b : Entry} (h : tag a ≠ tag b) (h' : ¬ keyLess a b = true) :
    keyLess b a = true := by
  rw [keyLess_iff] at *
  have : ¬ (a.kind = b.kind ∧ a.order = b.order) := fun e => h (Prod.ext e.1 e.2)
  omega

/-! ### Extraction of the least -/

theorem extractFrom_perm (e : Entry) (q : List Entry) :
    ((extractFrom e q).1 :: (extractFrom e q).2).Perm (e :: q) := by
  induction q generalizing e with
  | nil => exact List.Perm.refl _
  | cons x q ih =>
    simp only [extractFrom]
    split
    · exact (List.Perm.swap _ _ _).trans (((ih x).cons e))
    · exact (List.Perm.swap _ _ _).trans (((ih e).cons x).trans (List.Perm.swap _ _ _))

theorem extractFrom_length (e : Entry) (q : List Entry) : (extractFrom e q).2.length = q.length := by
  have := (extractFrom_perm e q).length_eq
  simpa using this

/-- The extracted entry is the least of Q. -/
theorem extractFrom_least {e : Entry} {q : List Entry} (hd : ((e :: q).map tag).Nodup) :
    ∀ x ∈ (extractFrom e q).2, keyLess (extractFrom e q).1 x = true := by
  induction q generalizing e with
  | nil => simp [extractFrom]
  | cons x q ih =>
    have hp : ∀ y : Entry, ∀ z ∈ y :: q, z = (extractFrom y q).1 ∨ z ∈ (extractFrom y q).2 := by
      intro y z hz
      have := (extractFrom_perm y q).mem_iff.2 hz
      simpa using this
    simp only [List.map_cons, List.nodup_cons, List.mem_cons, not_or] at hd
    have hex : tag x ≠ tag e := Ne.symm hd.1.1
    simp only [extractFrom]
    split
    · rename_i hlt
      have ih := ih (e := x) (by simpa using hd.2)
      intro y hy
      rcases List.mem_cons.1 hy with rfl | hy
      · rcases hp x x (by simp) with h | h
        · rw [← h]; exact hlt
        · exact keyLess_trans (ih x h) hlt
      · exact ih y hy
    · rename_i hlt
      have hlt := keyLess_total hex hlt
      have ih := ih (e := e) (List.nodup_cons.2 ⟨hd.1.2, hd.2.2⟩)
      intro y hy
      rcases List.mem_cons.1 hy with rfl | hy
      · rcases hp e e (by simp) with h | h
        · rw [← h]; exact hlt
        · exact keyLess_trans (ih e h) hlt
      · exact ih y hy

/-! ### The merge loop -/

/-- One turn of the loop, as an equation: the two least leave Q and their node enters it. -/
theorem mergeAll_step (n seq : Nat) (e x : Entry) (q : List Entry) :
    ∃ a b r, mergeAll (n + 1) seq e (x :: q) = mergeAll n (seq + 1) (mergeEntry seq a b) r ∧
      (a :: b :: r).Perm (e :: x :: q) ∧ r.length = q.length ∧
      (((e :: x :: q).map tag).Nodup →
        (∀ y ∈ b :: r, keyLess a y = true) ∧ ∀ y ∈ r, keyLess b y = true) := by
  have hp := extractFrom_perm e (x :: q)
  have hl := extractFrom_length e (x :: q)
  have hleast := @extractFrom_least e (x :: q)
  rw [mergeAll]
  generalize extractFrom e (x :: q) = m at *
  obtain ⟨a, l⟩ := m
  cases l with
  | nil => simp at hl
  | cons y r =>
    have hp' := extractFrom_perm y r
    have hl' := extractFrom_length y r
    simp only [List.length_cons, Nat.add_right_cancel_iff] at hl
    refine ⟨a, _, _, rfl, (hp'.cons a).trans hp, by rw [hl', hl], fun hd => ?_⟩
    have hd' : ((y :: r).map tag).Nodup := by
      have := ((hp.map tag).nodup_iff).2 hd
      simp only [List.map_cons, List.nodup_cons] at this
      simpa using this.2
    refine ⟨fun z hz => hleast hd z (hp'.mem_iff.1 hz), extractFrom_least hd'⟩

/-- The tags of Q stay distinct when the node number `seq` enters it. -/
theorem merge_tags {seq : Nat} {a b : Entry} {r q : List Entry} (hp : (a :: b :: r).Perm q)
    (hd : (q.map tag).Nodup) (hs : ∀ e ∈ q, e.kind = 1 → e.order < seq) :
    ((mergeEntry seq a b :: r).map tag).Nodup ∧
      ∀ e ∈ mergeEntry seq a b :: r, e.kind = 1 → e.order < seq + 1 := by
  have hd := ((hp.map tag).nodup_iff).2 hd
  simp only [List.map_cons, List.nodup_cons] at hd
  have hs' : ∀ e ∈ r, e.kind = 1 → e.order < seq := fun e he => hs e (hp.mem_iff.1 (by simp [he]))
  refine ⟨?_, ?_⟩
  · simp only [List.map_cons, List.nodup_cons]
    refine ⟨fun h => ?_, hd.2.2⟩
    obtain ⟨e, he, ht⟩ := List.mem_map.1 h
    simp only [tag, mergeEntry, Prod.mk.injEq] at ht
    have := hs' e he ht.1
    omega
  · intro e he hk
    rcases List.mem_cons.1 he with rfl | he
    · exact Nat.lt_succ_self _
    · have := hs' e he hk
      omega

/-- What the loop makes of Q: with enough turns one tree, on the leaves of Q's trees, of their total weight. -/
theorem mergeAll_spec {n seq : Nat} {e : Entry} {q : List Entry} (hn : q.length ≤ n) :
    ∃ t, mergeAll n seq e q = some t ∧
      (leaves t).Perm ((e :: q).flatMap fun x => leaves x.tree) ∧
      treeWeight t = ((e :: q).map fun x => treeWeight x.tree).sum ∧
      ((∀ x ∈ e :: q, weightsAdd x.tree) → weightsAdd t) := by
  induction n generalizing seq e q with
  | zero =>
    have : q = [] := List.length_eq_zero_iff.1 (by omega)
    subst this
    exact ⟨e.tree, by simp [mergeAll], by simp, by simp, fun h => h e (by simp)⟩
  | succ n ih =>
    cases q with
    | nil => exact ⟨e.tree, by simp [mergeAll], by simp, by simp, fun h => h e (by simp)⟩
    | cons x q =>
      obtain ⟨a, b, r, heq, hp, hl, -⟩ := mergeAll_step n seq e x q
      obtain ⟨t, ht, hleaves, hw, hadd⟩ := ih (seq := seq + 1) (e := mergeEntry seq a b) (q := r)
        (by simp only [List.length_cons] at hn; omega)
      refine ⟨t, heq.trans ht, hleaves.trans ?_, hw.trans ?_, fun h => hadd fun y hy => ?_⟩
      · refine List.Perm.trans ?_ (hp.flatMap_right fun x => leaves x.tree)
        simp [mergeEntry, leaves]
      · rw [← (hp.map fun x => treeWeight x.tree).sum_eq]
        simp only [mergeEntry, List.map_cons, List.sum_cons, treeWeight]
        omega
      · rcases List.mem_cons.1 hy with rfl | hy
        · exact ⟨rfl, h a (hp.mem_iff.1 (by simp)), h b (hp.mem_iff.1 (by simp))⟩
        · exact h y (hp.mem_iff.1 (by simp [hy]))

/-- No node weighs more than the root. -/
theorem subtree_weight_le {t : Tree} (h : weightsAdd t) : ∀ u ∈ subtrees t, treeWeight u ≤ treeWeight t := by
  induction t with
  | leaf x w => simp [subtrees]
  | node a b w iha ihb =>
    intro u hu
    obtain ⟨hw, ha, hb⟩ := h
    simp only [subtrees, List.mem_cons, List.mem_append] at hu
    have : treeWeight (.node a b w) = w := rfl
    rcases hu with rfl | hu | hu
    · exact Nat.le_refl _
    · have := iha ha u hu; omega
    · have := ihb hb u hu; omega

/-! ### Q as BUILD starts with it (R121) -/

theorem byteSym_val {b : Nat} (h : b < 256) : (byteSym b).val = b :=
  Nat.mod_eq_of_lt (by omega)

theorem mem_initialQ (h : List (Nat × Nat)) (e : Entry) : e ∈ initialQ h ↔
    e = leafEntry 256 1 ∨
      ∃ x : Sym, x.val < 256 ∧ 1 ≤ histRead h x.val ∧ e = leafEntry x (histRead h x.val) := by
  simp only [initialQ, List.mem_append, List.mem_map, List.mem_filter, List.mem_range, decide_eq_true_eq,
    List.mem_singleton]
  constructor
  · rintro (⟨b, ⟨hb, hc⟩, rfl⟩ | rfl)
    · exact .inr ⟨byteSym b, by rw [byteSym_val hb]; exact ⟨hb, hc, rfl⟩⟩
    · exact .inl rfl
  · rintro (rfl | ⟨x, hx, hc, rfl⟩)
    · exact .inr rfl
    · exact .inl ⟨x.val, ⟨hx, hc⟩, by rw [show byteSym x.val = x from Fin.ext (byteSym_val hx)]⟩

theorem initialQ_symbols (h : List (Nat × Nat)) : ((initialQ h).map Entry.order).Nodup := by
  have hm : (initialQ h).map Entry.order =
      ((List.range 256).filter fun b => decide (1 ≤ histRead h b)) ++ [256] := by
    simp only [initialQ, List.map_append, List.map_map, List.map_cons, List.map_nil]
    congr 1
    refine (List.map_congr_left fun b hb => ?_).trans (List.map_id _)
    exact byteSym_val (List.mem_range.1 (List.mem_filter.1 hb).1)
  rw [hm, List.nodup_append]
  refine ⟨List.nodup_range.filter _, by simp, fun a ha b hb => ?_⟩
  have := List.mem_range.1 (List.mem_filter.1 ha).1
  simp only [List.mem_singleton] at hb
  omega

theorem initialQ_tags (h : List (Nat × Nat)) : ((initialQ h).map tag).Nodup := by
  have := initialQ_symbols h
  rw [show Entry.order = Prod.snd ∘ tag from rfl, ← List.map_map] at this
  exact List.Nodup.of_map _ this

theorem initialQ_kinds (h : List (Nat × Nat)) : ∀ e ∈ initialQ h, e.kind = 0 := by
  intro e he
  rcases (mem_initialQ h e).1 he with rfl | ⟨x, -, -, rfl⟩ <;> rfl

theorem initialQ_leaves (h : List (Nat × Nat)) :
    ((initialQ h).flatMap fun e => leaves e.tree) =
      (initialQ h).map fun e => (Fin.ofNat 257 e.order, treeWeight e.tree) := by
  have : ∀ q : List Entry, (∀ e ∈ q, ∃ x w, e = leafEntry x w) →
      (q.flatMap fun e => leaves e.tree) =
        q.map fun e => (Fin.ofNat 257 e.order, treeWeight e.tree) := by
    intro q
    induction q with
    | nil => intro; rfl
    | cons e q ih =>
      intro hq
      obtain ⟨x, w, rfl⟩ := hq _ List.mem_cons_self
      rw [List.flatMap_cons, ih fun e he => hq e (List.mem_cons_of_mem _ he), List.map_cons]
      simp [leafEntry, leaves, treeWeight]
  apply this
  intro e he
  rcases (mem_initialQ h e).1 he with rfl | ⟨x, -, -, rfl⟩
  · exact ⟨_, _, rfl⟩
  · exact ⟨_, _, rfl⟩

/-- The weights of Q's leaves add up to the total weight. -/
theorem initialQ_weight (h : List (Nat × Nat)) :
    ((initialQ h).map fun e => treeWeight e.tree).sum = totalWeight h := by
  have key : ∀ l : List Nat, ((l.filter fun b => decide (1 ≤ histRead h b)).map (histRead h)).sum =
      (l.map (histRead h)).sum := by
    intro l
    induction l with
    | nil => rfl
    | cons b l ih =>
      rw [List.filter_cons]
      split
      · simp [ih]
      · rename_i hb
        simp only [decide_eq_true_eq] at hb
        simp [ih]
        omega
  rw [totalWeight, ← key, initialQ, List.map_append, List.map_map, List.sum_append, Nat.add_comm]
  rfl

theorem initialQ_ne_nil (h : List (Nat × Nat)) : initialQ h ≠ [] := by simp [initialQ]

/-- BUILD's tree is the loop's on Q, with turns enough. -/
theorem huffman_eq (h : List (Nat × Nat)) :
    ∃ e q, initialQ h = e :: q ∧ huffman h = mergeAll q.length 0 e q := by
  cases hq : initialQ h with
  | nil => exact absurd hq (initialQ_ne_nil h)
  | cons e q => exact ⟨e, q, rfl, by rw [huffman, hq]⟩

end Sys2Proof.Machine
end

