-- ==== Sys2Proof/Tests/Slice0.lean ====
section
/-!
SUPPORT. Small tests. Expected values come from spec/95_test_vectors.md (the vector's id stands at each test)
or are written out by hand from the encoding tables; the last part shows, for every obligation that has
hypotheses, a state and operands that meet them.
-/

namespace Sys2Proof.Tests

open Sys2Proof.Machine Sys2Proof.Claims

/-! ### Helpers -/

/-- Whether an outcome is a next state with property `p`. -/
def after (o : Host.Outcome State Fault Refusal) (p : State → Bool) : Bool :=
  match o with
  | .next t => p t
  | .fault _ => false
  | .refused _ => false

theorem after_next {o : Host.Outcome State Fault Refusal} {p : State → Bool} (h : after o p = true) :
    ∃ t, o = .next t ∧ p t = true := by
  cases o with
  | next t => exact ⟨t, rfl, h⟩
  | fault r => cases h
  | refused r => cases h

/-- Reset with this IN attached. -/
def inp (l : List Nat) : State := { State.reset with input := l.map (BitVec.ofNat 8) }

def outNat (s : State) : List Nat := s.out.map BitVec.toNat

/-- BLD-7 and TAB-7: the tree and codes of "ab". -/
def treeAb : Tree := .node (.leaf 256 1) (.node (.leaf 0x61 1) (.leaf 0x62 1) 2) 3

/-- Program P7 after its MKTAB (cp = 9): IN = 61 62, rewound. -/
def built : State := { inp [0x61, 0x62] with
  hist := [(0x61, 1), (0x62, 1)]
  tree := some treeAb
  code := [(0x61, [true, false]), (0x62, [true, true]), (256, [false])]
  cValid := true }

/-- BLD-1 with weights 0: the tree of Scenario A as RDHDR leaves it. -/
def treeA0 : Tree := .node (.leaf 0x20 0) (.node (.leaf 0x6F 0) (.node (.leaf 0x49 0) (.leaf 256 0) 0) 0) 0

/-- Program P2 after RDHDR (cp = 1) on the given payload bytes. -/
def reading (l : List Nat) : State := { inp ([0x84, 0x11, 0xBE, 0x24, 0xA0] ++ l) with
  tree := some treeA0, cur := treeA0, dstate := .walking, inPos := 43 }

/-- The tree of HDR-A1: leaves 'A' and 'B', no sentinel, as RDHDR leaves it. -/
def treeNoEos : Tree := .node (.leaf 0x41 0) (.leaf 0x42 0) 0

/-! ### WellFormed: an ill-formed term for each check -/

theorem test_wf_rdbits_zero : (Instr.rdbits 0).wf = false := by decide
theorem test_wf_rdbits_33 : (Instr.rdbits 33).wf = false := by decide
theorem test_wf_wrbits_zero : (Instr.wrbits 0 7).wf = false := by decide
theorem test_wf_wrbits_33 : (Instr.wrbits 33 7).wf = false := by decide
theorem test_wf_leaf_257 : (Instr.hdrLeaf 257).wf = false := by decide
theorem test_wf_bounds : ([.rdbits 1, .rdbits 32, .wrbits 1 0, .wrbits 32 0xFFFFFFFF, .hdrLeaf 0,
    .hdrLeaf 256, .clr, .hdrNode] : List Instr).all Instr.wf = true := by decide

/-! ### Decoding: words written out field by field, OP (R62), Z, N, V (R61) -/

theorem test_decode_clr : decode (0b00000001#8 ++ 0b00#2 ++ 0b000000#6 ++ 0#32) = .ok .clr := by
  decide
theorem test_decode_rewind : decode (0b00000010#8 ++ 0b00#2 ++ 0b000000#6 ++ 0#32) = .ok .rewind := by
  decide
theorem test_decode_rdbit : decode (0b00010000#8 ++ 0b00#2 ++ 0b000000#6 ++ 0#32) = .ok .rdbit := by
  decide
theorem test_decode_rdbits : decode (0b00010001#8 ++ 0b00#2 ++ 0b100000#6 ++ 0#32) = .ok (.rdbits 32) := by
  decide
theorem test_decode_wrbit : decode (0b00010010#8 ++ 0b00#2 ++ 0b000000#6 ++ 0#31 ++ 0b1#1) =
    .ok (.wrbit true) := by decide
theorem test_decode_wrbits : decode (0b00010011#8 ++ 0b00#2 ++ 0b000011#6 ++ 0b11111101#32) =
    .ok (.wrbits 3 0xFD) := by decide
theorem test_decode_flush : decode (0b00010100#8 ++ 0b00#2 ++ 0b000000#6 ++ 0#32) = .ok .flush := by
  decide
theorem test_decode_freq : decode (0b00100000#8 ++ 0b00#2 ++ 0b000000#6 ++ 0#32) = .ok .freq := by
  decide
theorem test_decode_build : decode (0b00100001#8 ++ 0b00#2 ++ 0b000000#6 ++ 0#32) = .ok .build := by
  decide
theorem test_decode_mktab : decode (0b00100010#8 ++ 0b00#2 ++ 0b000000#6 ++ 0#32) = .ok .mktab := by
  decide
theorem test_decode_wrhdr : decode (0b00100011#8 ++ 0b00#2 ++ 0b000000#6 ++ 0#32) = .ok .wrhdr := by
  decide
theorem test_decode_encode : decode (0b00100100#8 ++ 0b00#2 ++ 0b000000#6 ++ 0#32) = .ok .encode := by
  decide
theorem test_decode_rdhdr : decode (0b00101000#8 ++ 0b00#2 ++ 0b000000#6 ++ 0#32) = .ok .rdhdr := by
  decide
theorem test_decode_decode : decode (0b00101001#8 ++ 0b00#2 ++ 0b000000#6 ++ 0#32) = .ok .decode := by
  decide

/-- CW-19 to CW-26: the illegal words, each by its name. -/
theorem test_decode_illegal :
    decode 0x110000000000 = .error .countOutOfRange ∧ decode 0x112100000000 = .error .countOutOfRange ∧
    decode 0x030000000000 = .error .unassignedOp ∧ decode 0x010000000001 = .error .unusedField ∧
    decode 0x114800000000 = .error .reservedZ ∧ decode 0x120000000002 = .error .unusedField ∧
    decode 0x000000000000 = .error .unassignedOp ∧ decode 0x110800000001 = .error .unusedField := by
  decide

/-- R65: the leaf token of 'A' is `0` and 65 in 9 bits, `001000001`. -/
theorem test_decode_leaf : decodeBits
    [false, false, false, true, false, false, false, false, false, true, true] =
    .ok (.hdrLeaf 65, [true]) := by decide
/-- R66: the internal-node token is `1`. -/
theorem test_decode_node : decodeBits [true, false] = .ok (.hdrNode, [false]) := by decide
/-- R67: symbol 257 is reserved. -/
theorem test_decode_reserved : decodeBits
    [false, true, false, false, false, false, false, false, false, true] = .error .reservedSymbol := by
  decide
/-- R68: nine bits after a tag 0 are needed. -/
theorem test_decode_short : decodeBits [false, true, false] = .error .endOfBits ∧
    decodeBits [] = .error .endOfBits := by decide

/-- Rows as the opcode table numbers them, and where `withFetchWord` places them. -/
theorem test_table_words :
    decodeTableWord 48 0x210000000000 = some .build ∧ decodeTableWord 16 0b0100000000 = some (.hdrLeaf 256) ∧
    decodeTableWord 8 1 = some .hdrNode ∧ decodeTableWord 16 0b0100000001 = none ∧
    decodeTableWord 48 0x030000000000 = none := by decide
theorem test_fetch_command : step (State.reset.withFetchWord 48 0x100000000000) =
    exec .rdbit { State.reset with cp := 1 } := by rfl
theorem test_fetch_leaf : after (step (State.reset.withFetchWord 16 0b0100000000)) (fun t =>
    decide (t.tree = some (.leaf 256 0) ∧ t.dstate = .walking ∧ t.hdr = none ∧ t.inPos = 10)) = true := by
  decide
theorem test_fetch_node : after (step (State.reset.withFetchWord 8 1)) (fun t =>
    decide (t.hdr = some ⟨[.needFirst], []⟩ ∧ t.inPos = 1 ∧ t.err = none)) = true := by decide

/-! ### One step of each instruction -/

/-- CTL-16: CLR discards the pending bits. -/
theorem test_clr : after (exec .clr { State.reset with
    out := [0xB8], wbuf := 0, wcnt := 5, inPos := 3, err := some .ioFailure }) (fun t =>
    decide (t.out = [] ∧ t.wcnt = 0 ∧ t.inPos = 0) && decide (status t = 0x0040)) = true := by decide
/-- R187: the host attaches the next IN. -/
theorem test_clr_attaches : after (exec .clr { inp [1] with nextIns := [[2], [3]] }) (fun t =>
    decide (t.input = [2] ∧ t.nextIns = [[3]])) = true := by decide
/-- BS-15. -/
theorem test_rewind : after (exec .rewind { inp [0x61, 0x62] with
    inPos := 16, hist := [(0x61, 1), (0x62, 1)] }) (fun t =>
    decide (t.inPos = 0 ∧ t.hist = [(0x61, 1), (0x62, 1)])) = true := by decide
/-- BS-1, the sixth and the ninth bit. -/
theorem test_rdbit : after (exec .rdbit { inp [0xA5] with inPos := 5 }) (fun t =>
    decide (t.res = ⟨false, 1⟩ ∧ t.inPos = 6)) = true ∧
    after (exec .rdbit { inp [0xA5] with inPos := 8 }) (fun t =>
      decide (t.res = ⟨true, 0⟩ ∧ t.inPos = 8 ∧ t.err = none)) = true := by decide
/-- IO-5. -/
theorem test_rdbit_fails : after (exec .rdbit { inp [0xA5] with fetchFails := [true] }) (fun t =>
    decide (t.res = ⟨false, 0⟩ ∧ t.inPos = 0 ∧ t.err = some .ioFailure)) = true := by decide
/-- BS-3: a read across five bytes. -/
theorem test_rdbits : after (exec (.rdbits 32) { inp [0x12, 0x34, 0x56, 0x78, 0x9A] with inPos := 1 })
    (fun t => decide (t.res = ⟨false, 0x2468ACF1⟩ ∧ t.inPos = 33)) = true := by decide
/-- BS-2: a short read is EOF and consumes the bits left. -/
theorem test_rdbits_short : after (exec (.rdbits 8) { inp [0x40, 0x00] with inPos := 10 }) (fun t =>
    decide (t.res = ⟨true, 0⟩ ∧ t.inPos = 16 ∧ t.err = none)) = true := by decide
/-- BS-7. -/
theorem test_wrbit : after (exec (.wrbit true) State.reset) (fun t =>
    decide (t.wbuf = 0x80 ∧ t.wcnt = 1 ∧ t.out = []) && decide (status t = 0x0240)) = true := by
  decide
/-- BS-14. -/
theorem test_wrbit_closed : after (exec (.wrbit true) { State.reset with wOpen := false }) (fun t =>
    decide (t.wbuf = 0) && decide (status t = 0x0005)) = true := by decide
/-- BS-8, the third command. -/
theorem test_wrbits : after (exec (.wrbits 9 256) { State.reset with wbuf := 0xB0, wcnt := 4 }) (fun t =>
    decide (t.out = [0xB8] ∧ t.wbuf = 0 ∧ t.wcnt = 5) && decide (status t = 0x0A40)) = true := by
  decide
/-- BS-10: the bits of V above bit 2 are ignored. -/
theorem test_wrbits_low : after (exec (.wrbits 3 0xFD) State.reset) (fun t =>
    decide (t.wbuf = 0xA0 ∧ t.wcnt = 3)) = true := by decide
/-- BS-9. -/
theorem test_flush : after (exec .flush { State.reset with out := [0xB8], wbuf := 0, wcnt := 5 }) (fun t =>
    decide (t.out = [0xB8, 0x00] ∧ t.wcnt = 0 ∧ t.wOpen = false) && decide (status t = 0)) = true := by
  decide
/-- IO-3. -/
theorem test_flush_fails : after (exec .flush { State.reset with
    out := [0xB8], wbuf := 0, wcnt := 5, putFails := [true] }) (fun t =>
    decide (t.out = [0xB8]) && decide (status t = 0x0A41)) = true := by decide
/-- FRQ-6: the counting starts at bit 1. -/
theorem test_freq : after (exec .freq { inp [0x61, 0x62, 0x63] with inPos := 1 }) (fun t =>
    decide (t.hist = [(0xC2, 1), (0xC4, 1)] ∧ t.inPos = 24 ∧ t.err = none)) = true := by decide
/-- FRQ-7. -/
theorem test_freq_overflow : after (exec .freq { inp [0x41, 0x41, 0x41, 0x41] with cfg := ⟨some 2⟩ })
    (fun t => decide (t.hist = [(0x41, 3)] ∧ t.inPos = 32) && decide (status t = 0x0046)) = true := by
  decide
/-- BLD-5: "abracadabra". -/
theorem test_build : after (exec .build { State.reset with
    hist := [(0x61, 5), (0x62, 2), (0x63, 1), (0x64, 1), (0x72, 2)] }) (fun t =>
    decide (t.tree = some (.node (.leaf 0x61 5)
      (.node (.node (.leaf 256 1) (.leaf 0x62 2) 3)
        (.node (.leaf 0x72 2) (.node (.leaf 0x63 1) (.leaf 0x64 1) 2) 4) 7) 12))) = true := by
  decide +kernel
/-- BLD-13. -/
theorem test_build_overflow : after (exec .build { State.reset with
    hist := [(0x41, 2), (0x42, 1)], cfg := ⟨some 2⟩ }) (fun t =>
    decide (t.tree = none) && decide (status t = 0x0046)) = true := by decide +kernel
/-- TAB-1. -/
theorem test_mktab : after (exec .mktab { State.reset with tree := some treeA0 }) (fun t =>
    decide (t.code = [(0x20, [false]), (0x49, [true, true, false]), (0x6F, [true, false]),
      (256, [true, true, true])] ∧ t.cValid = true)) = true := by decide
/-- CTL-3. -/
theorem test_mktab_refused : after (exec .mktab State.reset) (fun t => decide (status t = 0x0045)) = true := by
  decide
/-- P7, cp = 10. -/
theorem test_wrhdr : after (exec .wrhdr built) (fun t =>
    decide (outNat t = [0xA0, 0x11, 0x84, 0x62] ∧ t.wcnt = 0) && decide (status t = 0x0070)) = true := by
  decide
/-- IO-1: the third OutPut fails. -/
theorem test_wrhdr_fails : after (exec .wrhdr { State.reset with
    tree := some treeA0, putFails := [false, false, true] }) (fun t =>
    decide (outNat t = [0x84, 0x11] ∧ t.wbuf = 0xBE ∧ t.wcnt = 7 ∧ t.err = some .ioFailure)) = true := by
  decide
/-- P7, cp = 11. -/
theorem test_encode : after (exec .encode { built with out := [0xA0, 0x11, 0x84, 0x62] }) (fun t =>
    decide (outNat t = [0xA0, 0x11, 0x84, 0x62] ∧ t.wbuf = 0xB0) && decide (status t = 0x0A70)) = true := by
  decide
/-- ENC-15: no code for the sentinel. -/
theorem test_encode_no_sentinel : after (exec .encode { inp [0x88, 0x22, 0x12, 0x08] with
    tree := some treeNoEos, cur := treeNoEos, dstate := .walking, inPos := 21,
    code := [(0x41, [false]), (0x42, [true])], cValid := true }) (fun t =>
    decide (t.inPos = 32 ∧ t.wbuf = 0 ∧ t.out = []) && decide (status t = 0x02F4)) = true := by
  decide
/-- P6, cp = 1. -/
theorem test_rdhdr : after (exec .rdhdr (inp [0xA0, 0x02, 0x0A, 0x0A, 0x10])) (fun t =>
    decide (t.tree = some (.node (.leaf 256 0) (.leaf 0x41 0) 0) ∧ t.cur = .node (.leaf 256 0) (.leaf 0x41 0) 0 ∧
      t.inPos = 21) && decide (status t = 0x00D0)) = true := by decide
/-- DEC-16: a lone leaf that is not the sentinel's. -/
theorem test_rdhdr_malformed : after (exec .rdhdr (inp [0x10, 0x40])) (fun t =>
    decide (t.tree = none ∧ t.inPos = 10) && decide (status t = 0x0042)) = true := by decide
/-- P2, cp = 2. -/
theorem test_decode : after (exec .decode (reading [0x19, 0x43, 0x80])) (fun t =>
    decide (outNat t = [0x49, 0x20, 0x6F, 0x6F, 0x20, 0x20, 0x20] ∧ t.inPos = 57) &&
      decide (status t = 0x0150)) = true := by decide
/-- P5, cp = 2. -/
theorem test_decode_truncated : after (exec .decode (reading [0x19, 0x43])) (fun t =>
    decide (outNat t = [0x49, 0x20, 0x6F, 0x6F, 0x20, 0x20, 0x20] ∧ t.inPos = 56) &&
      decide (status t = 0x00D3)) = true := by decide
/-- P-R142: the second leaf of HDR-3 completes the tree. -/
theorem test_leaf : after (exec (.hdrLeaf 0x41) { State.reset with
    hdr := some ⟨[.needSecond (.leaf 256 0)], [256]⟩ }) (fun t =>
    decide (t.tree = some (.node (.leaf 256 0) (.leaf 0x41 0) 0) ∧ t.hdr = none)) = true := by decide
/-- R144 (c): a symbol seen twice. -/
theorem test_leaf_twice : after (exec (.hdrLeaf 256) { State.reset with
    hdr := some ⟨[.needSecond (.leaf 256 0)], [256]⟩ }) (fun t =>
    decide (t.tree = none ∧ t.hdr = none ∧ t.err = some .malformedHeader)) = true := by decide
/-- P-R142: an internal node's first child is read next. -/
theorem test_node : after (exec .hdrNode { State.reset with
    hdr := some ⟨[.needSecond (.leaf 256 0)], [256]⟩ }) (fun t =>
    decide (t.hdr = some ⟨[.needFirst, .needSecond (.leaf 256 0)], [256]⟩)) = true := by decide

/-! ### Every obligation's hypotheses are met somewhere -/

theorem test_hyp_ResetAndClrLeaveTheTable :
    ({ built with host := [.reset, .issue 0] } : State).hdr = none ∧
      ({ built with host := [.reset, .issue 0] } : State).host = .reset :: [.issue 0] := by decide

theorem test_hyp_ClrAttachesTheNextInput :
    (built.hdr = none ∧ built.nextIns = []) ∧
      ({ built with nextIns := [[], [1]] } : State).nextIns = [] :: [[1]] := by decide

theorem test_hyp_ErrorGateStopsEveryCommand :
    (Instr.decode.isCommand = true ∧ Instr.decode ≠ .clr ∧
      ({ built with err := some .ioFailure } : State).hdr = none ∧
      ({ built with err := some .ioFailure } : State).err ≠ none) ∧
    (decode 0x010000000001 = .error .unusedField ∧
      ({ built with err := some .ioFailure, host := [.issue 0x010000000001] } : State).host =
        .issue 0x010000000001 :: []) := by decide

/-- CTL-8, the second word. -/
theorem test_hyp_FirstErrorIsKept :
    ({ State.reset with err := some .illegalCommand, host := [.issue 0x010000000001] } : State).hdr = none ∧
    ∃ t, step { State.reset with err := some .illegalCommand, host := [.issue 0x010000000001] } = .next t ∧
      decide (t.err = some .illegalCommand) = true :=
  ⟨rfl, after_next (by decide)⟩

/-- One word for each clause of R64 (CW-19 to CW-26), and the words on each side of the limits of N. -/
theorem test_hyp_IllegalWordsRaiseIllegalCommand :
    (IllegalWord 0x000000000000 ∧ IllegalWord 0x030000000000 ∧ IllegalWord 0x114800000000 ∧
      IllegalWord 0x010000000001 ∧ IllegalWord 0x290100000000 ∧ IllegalWord 0x110800000001 ∧
      IllegalWord 0x120000000002 ∧ IllegalWord 0x110000000000 ∧ IllegalWord 0x112100000000 ∧
      IllegalWord 0x130000000000 ∧ IllegalWord 0x133F00000000) ∧
    (¬ IllegalWord 0x110100000000 ∧ ¬ IllegalWord 0x132000000000) ∧
    idle State.reset ∧ ({ State.reset with host := [.issue 0] } : State).host = .issue 0 :: [] := by
  refine ⟨⟨?_, ?_, ?_, ?_, ?_, ?_, ?_, ?_, ?_, ?_, ?_⟩, ⟨?_, ?_⟩, by decide, rfl⟩ <;> decide

theorem reset_inv : Inv State.reset :=
  ⟨by decide, by decide, by decide, by decide, trivial, by decide⟩

theorem reading_inv : Inv (reading [0x19, 0x43, 0x80]) :=
  ⟨by decide, by decide, by decide, by decide, trivial, by decide⟩

theorem built_inv : Inv built :=
  ⟨by decide, by decide, by decide, by decide, trivial, by decide⟩

/-- Refused, and accepted: one state for each row of the table of R190. -/
theorem test_hyp_PreconditionsRefuse :
    (¬ Precondition (.wrbit true) { State.reset with wOpen := false } ∧
      ¬ Precondition (.wrbits 9 256) { State.reset with wOpen := false } ∧
      ¬ Precondition .flush { State.reset with wOpen := false } ∧ ¬ Precondition .build built ∧
      ¬ Precondition .mktab State.reset ∧ ¬ Precondition .wrhdr State.reset ∧
      ¬ Precondition .encode State.reset ∧ ¬ Precondition .rdhdr built ∧ ¬ Precondition .decode built) ∧
    (Precondition .build State.reset ∧ Precondition .mktab built ∧ Precondition .wrhdr built ∧
      Precondition .encode built ∧ Precondition .rdhdr State.reset ∧
      Precondition .decode (reading [0x19, 0x43, 0x80])) ∧
    idle (reading [0x19, 0x43, 0x80]) ∧
    ∃ t, exec .decode (reading [0x19, 0x43, 0x80]) = .next t ∧ decide (t.err = none) = true := by
  refine ⟨?_, ?_, by decide, after_next (by decide)⟩ <;> unfold Precondition <;> decide

theorem test_hyp_StepRunsTheDecodedInstruction :
    (decode 0x210000000000 = .ok .build ∧
      ({ State.reset with host := [.issue 0x210000000000] } : State).host = .issue 0x210000000000 :: []) ∧
    decode 0x030000000000 = .error .unassignedOp ∧ State.reset.host = [] ∧
    (({ inp [0x40, 0x00] with hdr := some ⟨[], []⟩ } : State).hdr = some ⟨[], []⟩ ∧
      fetchesNeverFail (inp [0x40, 0x00]) ∧
      decodeBits (inRest (inp [0x40, 0x00])) = .ok (.hdrLeaf 256, List.replicate 6 false)) := by
  decide

theorem test_hyp_CommandsWaitForTheHeaderRead :
    (Instr.flush.isCommand = true ∧
      ({ State.reset with hdr := some ⟨[], []⟩ } : State).hdr = some ⟨[], []⟩) ∧
    (Instr.hdrNode.isCommand = false ∧ State.reset.hdr = none) := by decide

theorem test_hyp_CommandWordExamples : 255 < 256 ∧ 63 < 64 ∧ 2 ^ 32 - 1 < 2 ^ 32 := by decide

theorem test_hyp_DecodeOfEncodeIsTheInstruction :
    (Instr.rdbits 1).wf = true ∧ (Instr.wrbits 32 0xFFFFFFFF).wf = true ∧ (Instr.hdrLeaf 256).wf = true ∧
    encode (.hdrLeaf 256) = .token [false, true, false, false, false, false, false, false, false, false] := by
  decide

theorem test_hyp_EncodeOfDecodeIsTheWord : decode 0x1320DEADBEEF = .ok (.wrbits 32 0xDEADBEEF) := by decide

theorem test_hyp_RewindSetsInPosToZero : idle built := by decide

theorem test_hyp_RdbitReadsTheNextBit :
    (idle (inp [0xA5]) ∧ (inp [0xA5]).inPos % 8 = 0 ∧
      ({ inp [0xA5] with fetchFails := [true] } : State).fetchFails.head? = some true) ∧
    (¬ (({ inp [0xA5] with inPos := 7 } : State).inPos % 8 = 0 ∧ (inp [0xA5]).fetchFails.head? = some true) ∧
      ({ inp [0xA5] with inPos := 7 } : State).input[7 / 8]? = some 0xA5) ∧
    ({ inp [0xA5] with inPos := 8 } : State).inPos = 8 * (inp [0xA5]).input.length := by decide

theorem test_hyp_RdbitsReadsTheNextField :
    ((0 : BitVec 6).toNat = 0 ∧ 32 < (33 : BitVec 6).toNat) ∧
    (1 ≤ (32 : BitVec 6).toNat ∧ (32 : BitVec 6).toNat ≤ 32 ∧ fetchesNeverFail (inp [1, 2, 3, 4]) ∧
      (32 : BitVec 6).toNat ≤ (inRest (inp [1, 2, 3, 4])).length) ∧
    (1 ≤ (1 : BitVec 6).toNat ∧ (1 : BitVec 6).toNat ≤ 32 ∧ readerOk (inp []) ∧
      (inRest (inp [])).length < (1 : BitVec 6).toNat) ∧
    (fetchFailsAt { inp [1, 2, 3, 4] with inPos := 1, fetchFails := [false, true] } 16 [] ∧
      16 < 1 + (32 : BitVec 6).toNat) ∧
    fetchFailsAt { inp [1] with inPos := 8, fetchFails := [true, true] } 8 [true] := by
  refine ⟨by decide, by decide, by decide, ⟨⟨1, rfl, rfl, by decide⟩, by decide⟩, ?_⟩
  exact ⟨0, rfl, rfl, by decide⟩

theorem test_hyp_AlignedBytesPassUnchanged :
    (idle (inp [7, 8]) ∧ fetchesNeverFail (inp [7, 8]) ∧
      ({ inp [7, 8] with inPos := 8 } : State).inPos = 8 * 1 ∧ (inp [7, 8]).input[1]? = some 8) ∧
    (putsNeverFail State.reset ∧ State.reset.wOpen = true ∧ State.reset.wcnt = 0 ∧
      State.reset.wbuf = 0) := by decide

theorem test_hyp_ReaderAndWriterShareNoState :
    (idle State.reset ∧ ∃ t, exec (.rdbits 1) State.reset = .next t) ∧
    (∃ t r, readBits 0 State.reset = .ok r t) ∧
    (∃ t k, readBits 1 { State.reset with fetchFails := [true] } = .raised k t) ∧
    (∃ t, writeAll [true] State.reset = .ok () t) ∧
    (∃ t k, writeAll [true] { State.reset with wcnt := 7, putFails := [true] } = .raised k t) ∧
    (∃ t, flushWriter State.reset = .ok () t) ∧
    (∃ t k, flushWriter { State.reset with wcnt := 7, putFails := [true] } = .raised k t) :=
  ⟨⟨⟨rfl, rfl⟩, _, rfl⟩, ⟨_, _, rfl⟩, ⟨_, _, rfl⟩, ⟨_, rfl⟩, ⟨_, _, rfl⟩, ⟨_, rfl⟩, _, _, rfl⟩

theorem test_hyp_WrbitAppendsOneBit :
    ({ State.reset with wOpen := false } : State).wOpen = false ∧
    (idle State.reset ∧ State.reset.wOpen = true ∧ writerOk State.reset ∧ State.reset.wcnt ≠ 7) ∧
    (writerOk { State.reset with wbuf := 0xFE, wcnt := 7 } ∧
      ({ State.reset with wbuf := 0xFE, wcnt := 7 } : State).putFails.head? ≠ some true) ∧
    ({ State.reset with wbuf := 0xFE, wcnt := 7, putFails := [true] } : State).putFails.head? =
      some true := by decide

theorem test_hyp_WrbitsAppendsTheLowBits :
    ((0 : BitVec 6).toNat = 0 ∧ 32 < (63 : BitVec 6).toNat) ∧
    (1 ≤ (1 : BitVec 6).toNat ∧ (32 : BitVec 6).toNat ≤ 32 ∧ idle State.reset ∧
      State.reset.wOpen = true ∧ writerOk State.reset ∧ putsNeverFail State.reset) := by decide

/-- With three bits pending the put of the first byte fails: WRBITS 5 completes that byte, WRBITS 4 does not. -/
theorem test_hyp_WrbitsStopsAtThePut :
    putFailsAt { State.reset with wcnt := 3, putFails := [true] } 0 [] ∧
      writerOk { State.reset with wcnt := 3, putFails := [true] } ∧
      8 * (0 + 1) ≤ (outBits { State.reset with wcnt := 3 } ++
        (List.range 5).map (fun j => (0 : BitVec 32).getLsbD (5 - 1 - j))).length ∧
      (outBits { State.reset with wcnt := 3 } ++
        (List.range 4).map (fun j => (0 : BitVec 32).getLsbD (4 - 1 - j))).length < 8 * (0 + 1) :=
  ⟨⟨0, rfl, rfl⟩, by decide, by decide, by decide⟩

theorem test_hyp_WrbitsIgnoresTheHighBits :
    ∀ j, j < (3 : BitVec 6).toNat → (0xFD : BitVec 32).getLsbD j = (5 : BitVec 32).getLsbD j := by decide

theorem test_hyp_FlushPadsAndCloses :
    ({ State.reset with wOpen := false } : State).wOpen = false ∧ State.reset.wcnt = 0 ∧
    (({ State.reset with wbuf := 0x80, wcnt := 1 } : State).wcnt ≠ 0 ∧
      State.reset.putFails.head? ≠ some true ∧ writerOk { State.reset with wbuf := 0x80, wcnt := 1 }) ∧
    ({ State.reset with wcnt := 7, putFails := [true] } : State).putFails.head? = some true := by decide

/-- WEIGHT_W = 2: three bytes of one value reach the maximum 3 and still fit. -/
theorem test_hyp_FreqCountsEveryRemainingByte :
    idle (inp [0x41, 0x41, 0x41]) ∧ fetchesNeverFail (inp [0x41, 0x41, 0x41]) ∧
    readerOk (inp [0x41, 0x41, 0x41]) ∧
    CountsFit { inp [0x41, 0x41, 0x41] with cfg := ⟨some 2⟩ } (byteGroups (inRest (inp [0x41, 0x41, 0x41]))) ∧
    (fetchFailsAt { inp [0x41, 0x42] with fetchFails := [false, false, true] } 16 [] ∧
      CountsFit { inp [0x41, 0x42] with cfg := ⟨some 1⟩ } (byteGroups ((inRest (inp [0x41, 0x42])).take 16))) := by
  refine ⟨by decide, by decide, by decide, ?_, ⟨2, rfl, rfl, by decide⟩, ?_⟩ <;> unfold CountsFit <;>
    decide +kernel

/-- FRQ-1. -/
theorem test_hyp_FrequencyCorrectness :
    (inp [0x49, 0x20, 0x6F, 0x6F, 0x20, 0x20, 0x20]).hist = [] ∧
    (inp [0x49, 0x20, 0x6F, 0x6F, 0x20, 0x20, 0x20]).inPos = 0 ∧
    ∃ t, exec .freq (inp [0x49, 0x20, 0x6F, 0x6F, 0x20, 0x20, 0x20]) = .next t ∧
      decide (t.err = none ∧ t.hist = [(0x20, 4), (0x49, 1), (0x6F, 2)]) = true :=
  ⟨rfl, rfl, after_next (by decide)⟩

theorem test_hyp_CounterOverflowAtTheMaximum :
    (byteGroups (inRest (inp [0x41, 0x41, 0x41, 0x41])) = [0x41, 0x41, 0x41] ++ 0x41 :: [] ∧
      CountsFit { inp [0x41, 0x41, 0x41, 0x41] with cfg := ⟨some 2⟩ } [0x41, 0x41, 0x41] ∧
      histRead (inp []).hist 0x41 + [0x41, 0x41, 0x41].count 0x41 = 2 ^ 2 - 1) ∧
    ∃ t, exec .freq { inp [0x41] with cfg := ⟨none⟩ } = .next t ∧ decide (t.err = none) = true := by
  refine ⟨⟨by decide, ?_, by decide⟩, after_next (by decide)⟩
  unfold CountsFit
  decide +kernel

theorem test_hyp_BuildMakesOneLeafPerSymbol :
    idle State.reset ∧ State.reset.tree = none ∧
      weightOverflows State.reset.cfg (totalWeight State.reset.hist) = false := by decide +kernel

/-- HIST['a'] = 1: Q is the two leaves, in either order. -/
theorem test_hyp_BuildMergesTheTwoLeast :
    (∃ t, exec .build { State.reset with hist := [(0x61, 1)] } = .next t ∧
      decide (t.tree = some (.node (.leaf 0x61 1) (.leaf 256 1) 2)) = true) ∧
    StartsAs [(0x61, 1)] [leafEntry 256 1, leafEntry 0x61 1] ∧
    Merges 0 [leafEntry 256 1, leafEntry 0x61 1] (.node (.leaf 0x61 1) (.leaf 256 1) 2) 1 ∧
    KeyBefore (leafEntry 0x61 1) (leafEntry 256 1) := by
  have hkey : KeyBefore (leafEntry 0x61 1) (leafEntry 256 1) := .inr ⟨rfl, .inr ⟨rfl, by decide⟩⟩
  refine ⟨after_next (by decide +kernel), ⟨by decide, fun e => ?_⟩, ?_, hkey⟩
  · constructor
    · intro he
      simp only [List.mem_cons, List.not_mem_nil, or_false] at he
      rcases he with rfl | rfl
      · exact .inl rfl
      · exact .inr ⟨0x61, by decide, by decide, rfl⟩
    · rintro (rfl | ⟨x, hx, hc, rfl⟩)
      · exact List.mem_cons_self
      · have hv : x.val = 0x61 := by
          by_contra hne
          simp [histRead, tableGet, Ne.symm hne] at hc
        rw [show x = 0x61 from Fin.ext hv]
        exact List.mem_cons_of_mem _ List.mem_cons_self
  · refine .merge 0 _ (leafEntry 0x61 1) (leafEntry 256 1) [] _ _ (List.Perm.swap _ _ _) ?_ (by simp)
      (.root 1 ⟨1, 0, .node (.leaf 0x61 1) (.leaf 256 1) 2⟩)
    intro x hx
    rw [List.mem_singleton.1 hx]
    exact hkey

/-- WEIGHT_W = 2: BLD-13 and BLD-14. -/
theorem test_hyp_BuildChecksTheTotalWeight :
    2 ^ 2 - 1 < 1 + ((List.range 256).map (histRead [(0x41, 2), (0x42, 1)])).sum ∧
    1 + ((List.range 256).map (histRead [(0x41, 1), (0x42, 1)])).sum ≤ 2 ^ 2 - 1 := by decide +kernel

theorem test_hyp_OneSymbolGivesTwoLeaves :
    ((0x41 : Sym).val < 256 ∧ weightOverflows State.reset.cfg (1 + 1) = false ∧
      ∀ b, b < 256 → histRead [(0x41, 1)] b = if b = (0x41 : Sym).val then 1 else 0) ∧
    (1 < 3 ∧ weightOverflows State.reset.cfg (3 + 1) = false ∧
      ∀ b, b < 256 → histRead [(0x41, 3)] b = if b = (0x41 : Sym).val then 3 else 0) := by decide +kernel

theorem test_hyp_BuiltTreeIsOptimal :
    idle { built with tree := none } ∧
    (∃ t, exec .build { built with tree := none } = .next t ∧ decide (t.tree = some treeAb) = true) ∧
    (leaves (.node (.leaf 0x62 1) (.node (.leaf 0x61 1) (.leaf 256 1) 2) 3)).Perm (leaves treeAb) :=
  ⟨by decide, after_next (by decide +kernel), by decide⟩

theorem test_hyp_BuildIsDeterminedByTheCounts :
    (∀ b, b < 256 → histRead [(0x61, 1), (0x62, 1)] b = histRead built.hist b) ∧
    ∃ t, exec .build { State.reset with hist := [(0x61, 1), (0x62, 1)], inPos := 16 } = .next t ∧
      decide (t.tree = some treeAb) = true :=
  ⟨by decide +kernel, after_next (by decide +kernel)⟩

theorem test_hyp_MktabRecordsThePaths :
    State.reset.tree = none ∧ built.tree = some treeAb ∧ (treeSyms treeAb).Nodup := by decide

theorem test_hyp_CodesArePrefixFree :
    (follow treeAb [true, false] = some (.leaf 0x61 1) ∧
      follow treeAb ([true, false] ++ []) = some (.leaf 0x61 1)) ∧
    ((treeSyms treeAb).Nodup ∧ 0x61 ≠ 0x62 ∧ codeRead (codeTable treeAb) 0x61 = some [true, false] ∧
      codeRead (codeTable treeAb) 0x62 = some [true, true]) := by decide

theorem test_hyp_TreeBounds :
    (treeSyms treeAb).Nodup ∧ follow treeAb [true, true] = some (.leaf 0x62 1) ∧
      codeRead (codeTable treeAb) 256 = some [false] := by decide

theorem test_hyp_WrhdrAppendsTheHeader :
    State.reset.tree = none ∧ ({ built with wOpen := false } : State).wOpen = false ∧
    (built.tree = some treeAb ∧ built.wOpen = true ∧ writerOk built ∧ putsNeverFail built) := by decide

/-- IO-1, whose third put fails, within the header's 43 bits; and a sixth put, beyond them. -/
theorem test_hyp_WrhdrStopsAtThePut :
    (putFailsAt { reading [] with putFails := [false, false, true] } 2 [] ∧
      8 * (2 + 1) ≤ (outBits (reading []) ++ treeBits treeA0).length ∧
      ∃ t, exec .wrhdr { reading [] with putFails := [false, false, true] } = .next t ∧
        decide (outNat t = [0x84, 0x11] ∧ t.wbuf = 0xBE ∧ t.wcnt = 7 ∧ t.err = some .ioFailure) = true) ∧
    (putFailsAt { reading [] with putFails := [false, false, false, false, false, true] } 5 [] ∧
      (outBits (reading []) ++ treeBits treeA0).length < 8 * (5 + 1)) :=
  ⟨⟨⟨2, rfl, rfl⟩, by decide, after_next (by decide)⟩, ⟨5, rfl, rfl⟩, by decide⟩

/-- Two trees of one shape, with different weights. -/
theorem test_hyp_HeaderIsSelfDelimiting :
    treeBits treeAb ++ [true] = treeBits (unweighted treeAb) ++ [true] ∧ treeAb ≠ unweighted treeAb := by
  decide

/-- DEC-2: the lone sentinel's leaf and six padding bits. -/
theorem test_hyp_HeaderReadBackIsTheTree :
    idle (inp [0x40, 0x00]) ∧ (inp [0x40, 0x00]).tree = none ∧ (inp [0x40, 0x00]).dstate = .readingTree ∧
    fetchesNeverFail (inp [0x40, 0x00]) ∧ treeOk (.leaf 256 1) = true ∧
    inRest (inp [0x40, 0x00]) = treeBits (.leaf 256 1) ++ List.replicate 6 false ∧
    ∃ t, exec .build (inp [0x40, 0x00]) = .next t ∧ decide (t.tree = some (.leaf 256 1)) = true :=
  ⟨by decide, by decide, by decide, by decide, by decide, by decide +kernel, after_next (by decide +kernel)⟩

theorem test_hyp_RdhdrConsumesExactlyItsTree :
    ∃ t, exec .rdhdr (inp [0x40, 0x00]) = .next t ∧ decide (t.err = none ∧ t.inPos = 10) = true :=
  after_next (by decide)

/-- DEC-23 and IO-4. -/
theorem test_hyp_MalformedHeaderWhenNoTreeStands :
    (idle (inp [0x40]) ∧ (inp [0x40]).tree = none ∧ (inp [0x40]).dstate = .readingTree ∧
      fetchesNeverFail (inp [0x40])) ∧
    (∃ t, exec .rdhdr (inp [0x40]) = .next t ∧ decide (t.err = some .malformedHeader) = true) ∧
    ∃ t, exec .rdhdr { inp [0x40, 0x00] with fetchFails := [true] } = .next t ∧
      decide (t.err = some .ioFailure) = true :=
  ⟨by decide, after_next (by decide), after_next (by decide)⟩

/-- The second fetch fails inside the sentinel's header; IN = 40 00, whose header ends beyond it and before a third
fetch; and IO-4. -/
theorem test_hyp_MalformedHeader_failingFetch :
    (fetchFailsAt { inp [0x40, 0x00] with fetchFails := [false, true] } 8 [] ∧
      (inRest (inp [0x40, 0x00])).take 8 ++ [false, false] = treeBits (.leaf 256 0)) ∧
    fetchFailsAt { inp [0x40, 0x00] with fetchFails := [false, false, true, true] } 16 [true] ∧
    (∃ t, exec .rdhdr (inp [0x40, 0x00]) = .next t ∧ decide (8 < t.inPos ∧ t.inPos < 16) = true) ∧
    fetchFailsAt { inp [0x40, 0x00] with fetchFails := [true] } 0 [] ∧
    ∃ t, exec .rdhdr { inp [0x40, 0x00] with fetchFails := [true] } = .next t ∧
      decide (t.inPos = 0 ∧ status t = 0x0041) = true :=
  ⟨⟨⟨1, rfl, rfl, by decide⟩, by decide⟩, ⟨2, rfl, rfl, by decide⟩, after_next (by decide), ⟨0, rfl, rfl, by decide⟩,
    after_next (by decide)⟩

/-- A header of 32 bits ends exactly at the fetch that fails, with IN ending there and not; and IN = 41, which ends at
it inside a symbol: told by 41 00, on which RDHDR goes on beyond it. -/
theorem test_hyp_MalformedHeader_atTheFetch :
    (fetchFailsAt { inp [0xA0, 0x11, 0x84, 0x62] with fetchFails := [false, false, false, false, true] } 32 [] ∧
      ∃ t, exec .rdhdr (inp [0xA0, 0x11, 0x84, 0x62]) = .next t ∧
        decide (t.inPos = 32 ∧ t.err = none) = true) ∧
    (∃ t, exec .rdhdr (inp [0xA0, 0x11, 0x84, 0x62, 0x00]) = .next t ∧ decide (t.inPos ≤ 32) = true) ∧
    (fetchFailsAt { inp [0x41] with fetchFails := [false, true] } 8 [] ∧
      ∃ t, exec .rdhdr (inp [0x41, 0x00]) = .next t ∧ decide (8 < t.inPos) = true) ∧
    ∃ t, exec .rdhdr { inp [0x41] with fetchFails := [false, true] } = .next t ∧
      decide (t.inPos = 8 ∧ t.err = some .ioFailure) = true :=
  ⟨⟨⟨4, rfl, rfl, by decide⟩, after_next (by decide)⟩, after_next (by decide),
    ⟨⟨1, rfl, rfl, by decide⟩, after_next (by decide)⟩, after_next (by decide)⟩

theorem test_hyp_LeafTokenExtendsTheHeader :
    256 < (257 : BitVec 9).toNat ∧ (256 : Sym).val = (256 : BitVec 9).toNat ∧
    (256 : Sym) ∈ [(256 : Sym)] ∧ (0x41 : Sym) ∉ [(256 : Sym)] ∧ (0x41 : Sym) ≠ 256 ∧
    plug (.node (.leaf 256 0) (.leaf 0x41 0) 0) [.needFirst] =
      .inl [.needSecond (.node (.leaf 256 0) (.leaf 0x41 0) 0)] ∧
    plug (.node (.leaf 256 0) (.leaf 0x41 0) 0) [] = .inr (.node (.leaf 256 0) (.leaf 0x41 0) 0) ∧
    ({ State.reset with hdr := some ⟨[.needSecond (.leaf 256 0)], [256]⟩ } : State).hdr =
      some ⟨.needSecond (.leaf 256 0) :: [], [256]⟩ := by decide

theorem test_hyp_NodeTokenOpensANode :
    ({ State.reset with hdr := some ⟨[], []⟩ } : State).hdr = some ⟨[], []⟩ := by decide

theorem test_hyp_RdhdrIsItsTokens :
    idle (inp [0xA0, 0x02]) ∧ (inp [0xA0, 0x02]).tree = none ∧
      (inp [0xA0, 0x02]).dstate = .readingTree := by decide

theorem test_hyp_EncodeAppendsThePayload :
    idle built ∧ built.cValid = true ∧ built.wOpen = true ∧ writerOk built ∧ readerOk built ∧
    fetchesNeverFail built ∧ putsNeverFail built ∧
    payload built.code (byteGroups (inRest built)) = some [true, false, true, true, false] := by
  decide

/-- A byte without a code after one with; and every byte coded but not the sentinel. -/
theorem test_hyp_MissingCodesAreUnencodable :
    (byteGroups (inRest (inp [0x61, 0x63])) = [0x61] ++ 0x63 :: [] ∧
      codesOf built.code [0x61] = some [true, false] ∧ codeRead built.code 0x63 = none) ∧
    (codesOf [(0x61, [false])] (byteGroups (inRest (inp [0x61]))) = some [false] ∧
      codeRead [(0x61, [false])] 256 = none) := by decide

/-- DEC-1: the payload of Scenario A and its seven padding bits. -/
theorem test_hyp_DecodeOfAPayloadGivesTheBytes :
    idle (reading [0x19, 0x43, 0x80]) ∧ (reading [0x19, 0x43, 0x80]).dstate = .walking ∧
    (reading [0x19, 0x43, 0x80]).wOpen = true ∧ (reading [0x19, 0x43, 0x80]).tree = some treeA0 ∧
    (reading [0x19, 0x43, 0x80]).cur = treeA0 ∧ treeOk treeA0 = true ∧
    writerOk (reading [0x19, 0x43, 0x80]) ∧ fetchesNeverFail (reading [0x19, 0x43, 0x80]) ∧
    putsNeverFail (reading [0x19, 0x43, 0x80]) ∧
    (payload (codeTable treeA0) (([0x49, 0x20, 0x6F, 0x6F, 0x20, 0x20, 0x20] : List Byte).map BitVec.toNat)).map
      (· ++ List.replicate 7 false) = some (inRest (reading [0x19, 0x43, 0x80])) := by decide

/-- DEC-7: the input ends two bits into the sentinel's code; and a tree without the sentinel's leaf. -/
theorem test_hyp_TruncatedPayloadAtAnInternalNode :
    (Inv { inp [0xA0] with tree := some treeNoEos, cur := treeNoEos, dstate := .walking } ∧
      256 ∉ treeSyms treeNoEos) ∧
    follow treeA0 [true, true] = some (.node (.leaf 0x49 0) (.leaf 256 0) 0) ∧
    (codesOf (codeTable treeA0) (([0x49, 0x20, 0x6F, 0x6F, 0x20, 0x20, 0x20] : List Byte).map BitVec.toNat)).map
      (· ++ [true, true]) = some (inRest (reading [0x19, 0x43])) := by
  refine ⟨⟨⟨by decide, by decide, by decide, ?_, trivial, by decide⟩, by decide⟩, by decide, by decide⟩
  exact ⟨by decide, by decide, by decide, by decide, fun _ _ => rfl, by decide⟩

/-- DEC-1 and DEC-18. -/
theorem test_hyp_NoFlippedPayloadBitIsSilent :
    Inv (reading [0x19, 0x43, 0x80]) ∧ idle (reading [0x09, 0x43, 0x80]) ∧
    (reading [0x19, 0x43, 0x80]).tree = (reading [0x09, 0x43, 0x80]).tree ∧
    (∃ t, exec .decode (reading [0x19, 0x43, 0x80]) = .next t ∧ decide (t.err = none) = true) ∧
    ∃ t, exec .decode (reading [0x09, 0x43, 0x80]) = .next t ∧
      decide (t.err = none ∧ outNat t = [0x20, 0x6F, 0x20, 0x6F, 0x6F, 0x20, 0x20, 0x20]) = true :=
  ⟨reading_inv, by decide, by decide, after_next (by decide), after_next (by decide)⟩

/-- A fetch that fails after the first byte; and, with three bits pending, the put of exactly the last bit. -/
theorem test_hyp_EncodeStopsAtAFailure :
    (fetchFailsAt { built with fetchFails := [false, true] } 8 [] ∧
      codesOf built.code (byteGroups ((inRest built).take 8)) = some [true, false]) ∧
    (putFailsAt { built with wcnt := 3, putFails := [true] } 0 [] ∧ writerOk { built with wcnt := 3 } ∧
      8 * (0 + 1) ≤ (outBits { built with wcnt := 3 } ++
        encodeBits built.code (byteGroups (inRest built))).length) :=
  ⟨⟨⟨1, rfl, rfl, by decide⟩, by decide⟩, ⟨0, rfl, rfl⟩, by decide, by decide⟩

/-- IO-2, which ends in STATUS 0x00D1; and the put of its second byte. -/
theorem test_hyp_DecodeStopsAtAFailure :
    (fetchFailsAt { reading [0x19, 0x43, 0x80] with fetchFails := [true] } 48 [] ∧
      codesOf (codeTable treeA0) (([0x49, 0x20] : List Byte).map BitVec.toNat) = some [true, true, false, false] ∧
      follow treeA0 [true] = some (.node (.leaf 0x6F 0) (.node (.leaf 0x49 0) (.leaf 256 0) 0) 0) ∧
      (inRest (reading [0x19, 0x43, 0x80])).take (48 - 43) = [true, true, false, false] ++ [true]) ∧
    (∃ t, exec .decode { reading [0x19, 0x43, 0x80] with fetchFails := [true] } = .next t ∧
      decide (outNat t = [0x49, 0x20] ∧ t.inPos = 48 ∧ status t = 0x00D1) = true) ∧
    (putFailsAt { reading [0x19, 0x43, 0x80] with putFails := [false, true] } (0 + ([0x49] : List Byte).length) [] ∧
      (inRest (reading [0x19, 0x43, 0x80])).take 4 = [true, true, false, false]) :=
  ⟨⟨⟨0, rfl, rfl, by decide⟩, by decide, by decide, by decide⟩, after_next (by decide +kernel), ⟨1, rfl, rfl⟩,
    by decide⟩

theorem test_hyp_EveryCommandEnds :
    (Inv built ∧ built.hdr = none ∧ Instr.encode.isCommand = true) ∧
    (Inv { State.reset with hdr := some ⟨[], []⟩ } ∧ Instr.hdrNode.isCommand = false) :=
  ⟨⟨built_inv, rfl, rfl⟩,
    ⟨by decide, by decide, by decide, by decide, ⟨rfl, rfl, rfl, List.nodup_nil, .refl _⟩, by decide⟩, rfl⟩

theorem test_hyp_StepKeepsTheInvariant :
    Inv (reading [0x19, 0x43, 0x80]) ∧
    ∃ t, step ((reading [0x19, 0x43, 0x80]).withFetchWord 48 0x290000000000) = .next t ∧
      decide (t.dstate = .done) = true :=
  ⟨reading_inv, after_next (by decide)⟩

theorem test_hyp_NoHiddenStateSurvivesACommand :
    ∃ t, exec .rdhdr (inp [0x40, 0x00]) = .next t ∧ decide (t.hdr = none) = true :=
  after_next (by decide)

theorem test_hyp_TreeIsWrittenOnce :
    Instr.mktab ≠ .clr ∧ built.tree = some treeAb ∧
    ∃ t, exec .mktab built = .next t ∧ decide (t.tree = some treeAb) = true :=
  ⟨by decide, by decide, after_next (by decide)⟩

/-- ENC-1: COMPRESS of Scenario A, IN attached before; and P3, the empty IN attached by CLR. -/
theorem test_hyp_CompressedStreamLayout :
    (AttachedByClr { State.reset with nextIns := [[]], input := [7] } [] ∧
      ∃ t, runAll compress { State.reset with nextIns := [[]], input := [7] } = .next t ∧
        decide (t.err = none ∧ outNat t = [0x40, 0x00]) = true) ∧
    (inp [0x49, 0x20, 0x6F, 0x6F, 0x20, 0x20, 0x20]).hdr = none ∧
    AttachedByClr (inp [0x49, 0x20, 0x6F, 0x6F, 0x20, 0x20, 0x20]) [0x49, 0x20, 0x6F, 0x6F, 0x20, 0x20, 0x20] ∧
    ∃ t, runAll compress (inp [0x49, 0x20, 0x6F, 0x6F, 0x20, 0x20, 0x20]) = .next t ∧
      decide (t.err = none ∧ outNat t = [0x84, 0x11, 0xBE, 0x24, 0xA0, 0x19, 0x43, 0x80]) = true :=
  ⟨⟨.inl ⟨[], rfl⟩, after_next (by decide +kernel)⟩, rfl, .inr ⟨rfl, rfl⟩, after_next (by decide +kernel)⟩

/-- P3: the empty input, with the smallest WEIGHT_W that has room for the sentinel's weight. -/
theorem test_hyp_DecompressOfCompressIsTheInput :
    fetchesNeverFail (inp []) ∧ putsNeverFail (inp []) ∧
    weightOverflows ⟨some 1⟩ ((inp []).input.length + 1) = false ∧
    (∃ t, runAll compress { inp [] with cfg := ⟨some 1⟩ } = .next t ∧
      decide (t.err = none ∧ outNat t = [0x40, 0x00]) = true) ∧
    ∃ t, runAll decompress (inp [0x40, 0x00]) = .next t ∧ decide (t.err = none ∧ t.out = []) = true :=
  ⟨by decide, by decide, by decide, after_next (by decide +kernel), after_next (by decide +kernel)⟩

/-- P1 and P2: Scenario A, each CLR attaching its operation's IN in place of another. -/
theorem test_hyp_RoundTripOfAttachedInputs :
    weightOverflows State.reset.cfg (([0x49, 0x20, 0x6F, 0x6F, 0x20, 0x20, 0x20] : List Byte).length + 1) = false ∧
    (∃ t, runAll compress
        { inp [1] with nextIns := [[0x49, 0x20, 0x6F, 0x6F, 0x20, 0x20, 0x20], [2]] } = .next t ∧
      decide (t.err = none ∧ t.nextIns = [[2]] ∧
        outNat t = [0x84, 0x11, 0xBE, 0x24, 0xA0, 0x19, 0x43, 0x80]) = true) ∧
    ∃ t, runAll decompress
        { inp [1] with nextIns := [[0x84, 0x11, 0xBE, 0x24, 0xA0, 0x19, 0x43, 0x80]] } = .next t ∧
      decide (t.err = none ∧ outNat t = [0x49, 0x20, 0x6F, 0x6F, 0x20, 0x20, 0x20]) = true :=
  ⟨by decide +kernel, after_next (by decide +kernel), after_next (by decide +kernel)⟩

end Sys2Proof.Tests
end

section
/-!
PROOFS. The reset table (10_state R26) and the layout of STATUS (10_state R20).
-/

namespace Sys2Proof.Machine

open Sys2Proof.Claims

/-! ### STATUS, field by field

A field is reached by passing over the fields below it, as many as `iterate` counts. -/

theorem status_err (s : State) : (status s).extractLsb' 0 4 = BitVec.ofNat 4 (errCode s.err) :=
  BitVec.extractLsb'_append_eq_right

/-- A one-bit field stands in the lowest bit of what is left when the fields below it are passed over. -/
theorem getLsbD_append_ofBool {v : Nat} (x : BitVec v) (b : Bool) : (x ++ BitVec.ofBool b).getLsbD 0 = b :=
  BitVec.getLsbD_append.trans (BitVec.getLsbD_ofBool b 0)

theorem status_tValid (s : State) : (status s).getLsbD 4 = tValid s := by
  rw [status]
  iterate 1 rw [BitVec.getLsbD_append, if_neg (by decide)]
  exact getLsbD_append_ofBool _ _

theorem status_cValid (s : State) : (status s).getLsbD 5 = s.cValid := by
  rw [status]
  iterate 2 rw [BitVec.getLsbD_append, if_neg (by decide)]
  exact getLsbD_append_ofBool _ _

theorem status_wOpen (s : State) : (status s).getLsbD 6 = s.wOpen := by
  rw [status]
  iterate 3 rw [BitVec.getLsbD_append, if_neg (by decide)]
  exact getLsbD_append_ofBool _ _

theorem status_dstate (s : State) : (status s).extractLsb' 7 2 = BitVec.ofNat 2 (dstateCode s.dstate) := by
  rw [status]
  iterate 4 rw [BitVec.extractLsb'_append_eq_of_le (by decide)]
  exact BitVec.extractLsb'_append_eq_right

theorem status_wcnt (s : State) : (status s).extractLsb' 9 3 = BitVec.ofNat 3 s.wcnt.val := by
  rw [status]
  iterate 5 rw [BitVec.extractLsb'_append_eq_of_le (by decide)]
  exact BitVec.extractLsb'_append_eq_right

theorem status_top (s : State) : (status s).extractLsb' 12 4 = 0 := by
  rw [status]
  iterate 6 rw [BitVec.extractLsb'_append_eq_of_le (by decide)]
  exact BitVec.extractLsb'_eq_self

theorem status_reset : status State.reset = 0x0040 := by decide

/-- STATUS shows none of the fields that CLR carries over. -/
theorem status_clear (s : State) : status (clear s) = 0x0040 := by
  rw [clear_eq]
  exact status_reset

/-- Settles O8: one lemma per field of STATUS; the codes of ERR and DSTATE are those of the model. -/
theorem statusLayout : Obligations.StatusLayout := by
  refine ⟨fun s => ⟨?err, status_tValid s, status_cValid s, status_wOpen s, ?dstate, ?wcnt, status_top s,
    rfl⟩, status_reset⟩
  case err => rw [status_err]; rcases s.err with _ | _ | _ <;> rfl
  case dstate => rw [status_dstate]; cases s.dstate <;> rfl
  case wcnt => rw [status_wcnt, BitVec.toNat_ofNat, Nat.mod_eq_of_lt s.wcnt.isLt]

/-! ### The reset table -/

/-- `clear` gives every field the table names its reset value, whatever the inputs it carries over. -/
theorem atReset_clear (s : State) : AtReset (clear s) := by
  simp [AtReset, status_clear]

/-- The reset state is a cleared state. -/
theorem clear_reset : clear State.reset = State.reset := rfl

/-- A reset event between commands clears the state left when the host has moved on. -/
theorem step_reset_event {s : State} {rest : List HostAction} (hh : s.hdr = none)
    (ha : s.host = .reset :: rest) : step s = .next (clear { s with host := rest }) := by
  simp [step, hh, takeAction, ha, stepAction]

/-- Settles O1: a reset event and CLR both run `clear`, and the reset state is `clear` of itself. -/
theorem resetAndClrLeaveTheTable : Obligations.ResetAndClrLeaveTheTable :=
  ⟨clear_reset ▸ atReset_clear State.reset,
    fun s hh => ⟨clear s, exec_clr hh, atReset_clear s⟩,
    fun s rest hh ha => ⟨clear { s with host := rest }, step_reset_event hh ha, atReset_clear _⟩⟩

end Sys2Proof.Machine
end

section
/-!
PROOFS. Fields of the bit streams (20_memory R53).
-/

namespace Sys2Proof.Machine

/-! ### A field in two pieces -/

/-- A summand `c` of the start value passes through the loop of P-R91 unread, shifted by every bit. -/
theorem readBitsFrom_add_start (n c v : Nat) (s : State) : readBitsFrom n (c + v) s =
    (readBitsFrom n v s).andThen fun r t => .ok (r.map fun u => c * 2 ^ n + u) t := by
  induction n generalizing c v s with
  | zero => simp [readBitsFrom]
  | succ n ih =>
    rw [readBitsFrom, readBitsFrom, andThen_assoc]
    congr 1
    funext r t
    cases r with
    | none => rfl
    | some b =>
      have hstart : 2 * (c + v) + b.toNat = c * 2 + (2 * v + b.toNat) := by omega
      have hshift : c * 2 * 2 ^ n = c * 2 ^ (n + 1) := by rw [Nat.pow_succ', Nat.mul_assoc]
      simp only [hstart, ih, hshift]

/-- The loop of P-R91 started at `v` is ReadBits with `v` in front of the value. -/
theorem readBitsFrom_eq_readBits (n v : Nat) (s : State) : readBitsFrom n v s =
    (readBits n s).andThen fun r t => .ok (r.map fun u => v * 2 ^ n + u) t :=
  readBitsFrom_add_start n v 0 s

/-- `m + n` turns of the loop of P-R91 are `m` turns and, if none of them met the end of IN, `n` more. -/
theorem readBitsFrom_add (m n v : Nat) (s : State) : readBitsFrom (m + n) v s =
    (readBitsFrom m v s).andThen fun r t => r.elim (.ok none t) fun u => readBitsFrom n u t := by
  induction m generalizing v s with
  | zero => simp [readBitsFrom]
  | succ m ih =>
    rw [Nat.succ_add, readBitsFrom, readBitsFrom, andThen_assoc]
    congr 1
    funext r t
    cases r with
    | none => rfl
    | some b => exact ih (2 * v + b.toNat) t

/-- Settles O18: the reading loop and the bits written are both split at the border of the two pieces. -/
theorem splitFieldsMoveTheSameBits : Obligations.SplitFieldsMoveTheSameBits := by
  refine ⟨fun m n s => ?read, fun m n v s => ?write⟩
  case read =>
    rw [readBits, readBitsFrom_add, ← readBits]
    congr 1
    funext r t
    cases r with
    | none => rfl
    | some v => exact readBitsFrom_eq_readBits n v t
  case write => rw [writeBits, natToBits_add, writeAll_append]; rfl

end Sys2Proof.Machine
end

section
/-!
PROOFS. Legal and illegal command words (30_encoding R64, R75) and the header grammar (30_encoding R68).
-/

namespace Sys2Proof

open Sys2Proof.Claims

/-! ### When a format rejects a word -/

/-- What stands behind a check is rejected exactly when the check fails or the rest rejects. -/
theorem check_rejects_iff {c : Prop} [Decidable c] {x : Except DecodeError Instr} {d : DecodeError} :
    (∃ e, (if c then x else .error d) = .error e) ↔ ¬ c ∨ ∃ e, x = .error e := by
  by_cases hc : c <;> simp [hc]

theorem not_ok_rejects (i : Instr) : ¬ ∃ e : DecodeError, Except.ok i = .error e := nofun

theorem not_countLegal_iff (n : BitVec 6) : ¬ countLegal n = true ↔ n.toNat = 0 ∨ 32 < n.toNat := by
  rw [countLegal_iff]
  omega

/-- V[31:1] = 0 says that V is 0 or 1. -/
theorem extractLsb'_one_eq_zero (v : BitVec 32) : v.extractLsb' 1 31 = 0 ↔ v.toNat / 2 = 0 := by
  rw [bitVec_eq_zero, BitVec.extractLsb'_toNat, Nat.shiftRight_eq_div_pow, Nat.pow_one,
    Nat.mod_eq_of_lt (by omega)]

theorem formatC0_rejects_iff (w : CmdWord) (i : Instr) :
    (∃ e, formatC0 w i = .error e) ↔ (nField w).toNat ≠ 0 ∨ (vField w).toNat ≠ 0 := by
  rw [formatC0, check_rejects_iff, or_iff_left (not_ok_rejects _), bitVec_eq_zero, bitVec_eq_zero,
    not_and_or]

theorem formatCN_rejects_iff (w : CmdWord) (i : BitVec 6 → Instr) : (∃ e, formatCN w i = .error e) ↔
    (vField w).toNat ≠ 0 ∨ (nField w).toNat = 0 ∨ 32 < (nField w).toNat := by
  rw [formatCN, check_rejects_iff, check_rejects_iff, or_iff_left (not_ok_rejects _), bitVec_eq_zero,
    not_countLegal_iff]

theorem formatCB_rejects_iff (w : CmdWord) (i : Bool → Instr) :
    (∃ e, formatCB w i = .error e) ↔ (nField w).toNat ≠ 0 ∨ (vField w).toNat / 2 ≠ 0 := by
  rw [formatCB, check_rejects_iff, or_iff_left (not_ok_rejects _), bitVec_eq_zero,
    extractLsb'_one_eq_zero, not_and_or]

theorem formatCNV_rejects_iff (w : CmdWord) (i : BitVec 6 → BitVec 32 → Instr) :
    (∃ e, formatCNV w i = .error e) ↔ (nField w).toNat = 0 ∨ 32 < (nField w).toNat := by
  rw [formatCNV, check_rejects_iff, or_iff_left (not_ok_rejects _), not_countLegal_iff]

/-! ### The illegal words -/

/-- The fields the decoder takes from a word are the numbers R64 speaks of. -/
theorem illegalWord_iff_fields (w : CmdWord) : IllegalWord w ↔
    IllegalFields (opField w).toNat (zField w).toNat (nField w).toNat (vField w).toNat := by
  rw [opField_toNat, zField_toNat, nField_toNat, vField_toNat]

/-- With Z = 00, a word is rejected exactly when its OP is unassigned or the format of its OP rejects it. -/
theorem decodeOp_rejects_iff (w : CmdWord) : (∃ e, decodeOp w = .error e) ↔
    IllegalFields (opField w).toNat 0 (nField w).toNat (vField w).toNat := by
  rcases decodeOp_cases w with ⟨hop, hd⟩ | ⟨p, hp, hop, hd⟩ | ⟨hop, hd⟩ | ⟨hop, hd⟩ | ⟨hop, hd⟩ <;> rw [hd]
  · exact ⟨fun _ => .inl hop, fun _ => ⟨_, rfl⟩⟩
  · rw [formatC0_rejects_iff, hop]
    simp only [List.mem_cons, List.not_mem_nil, or_false] at hp
    rcases hp with rfl | rfl | rfl | rfl | rfl | rfl | rfl | rfl | rfl | rfl | rfl <;> simp [IllegalFields]
  · rw [formatCN_rejects_iff, hop]
    simp [IllegalFields]
  · rw [formatCB_rejects_iff, hop]
    simp [IllegalFields]
  · rw [formatCNV_rejects_iff, hop]
    simp [IllegalFields]

/-- The decoder rejects exactly the illegal words of R64. -/
theorem decode_rejects_iff (w : CmdWord) : (∃ e, decode w = .error e) ↔ IllegalWord w := by
  rw [illegalWord_iff_fields, decode, check_rejects_iff, decodeOp_rejects_iff, bitVec_eq_zero]
  by_cases hz : (zField w).toNat = 0
  · rw [hz]
    exact or_iff_right (by simp)
  · exact iff_of_true (.inl hz) (.inr (.inl hz))

namespace Machine

/-- Between commands, a word the decoder rejects goes through the gate alone, once the host has moved on. -/
theorem step_rejected_word {s : State} {w : CmdWord} {rest : List HostAction} {e : DecodeError}
    (hh : s.hdr = none) (ha : s.host = .issue w :: rest) (hd : decode w = .error e) :
    step s = illegalWord { s with host := rest, cp := s.cp + 1 } := by
  simp only [step, hh, takeAction, ha, stepAction, hd]

/-- Between commands and free of error, an illegal word raises IllegalCommand. -/
theorem illegalWord_idle {s : State} (h : idle s) :
    illegalWord s = .next { s with err := some .illegalCommand } :=
  command_idle h false _

/-- Settles O5: the decoder rejects the illegal words, and what it rejects passes the open gate to
IllegalCommand. -/
theorem illegalWordsRaiseIllegalCommand : Obligations.IllegalWordsRaiseIllegalCommand := by
  refine fun w => ⟨decode_rejects_iff w, fun hw s rest hidle ha => ?_⟩
  obtain ⟨e, hd⟩ := (decode_rejects_iff w).2 hw
  rw [step_rejected_word hidle.1 ha hd]
  exact illegalWord_idle hidle

end Machine

/-! ### Command words as numbers -/

/-- Settles O11: the fields lie apart in the word, and the examples are computed. -/
theorem commandWordExamples : Obligations.CommandWordExamples :=
  ⟨fun _ _ _ hop hn hv => packWord_toNat hop hn hv, by decide⟩

namespace Machine

/-! ### The header grammar -/

/-- A node's tag bit makes up for the one bit that two sub-trees' headers fall short of 11 bits a leaf. -/
theorem treeBits_length_add_one (t : Tree) : (treeBits t).length + 1 = 11 * (leaves t).length := by
  induction t with
  | leaf x w => simp [treeBits, leaves]
  | node a b w iha ihb =>
    simp only [treeBits, leaves, List.length_cons, List.length_append]
    omega

/-- Settles O38: the grammar is that of `treeBits`, and its first bits tell a tree's shape and symbols. -/
theorem headerIsSelfDelimiting : Obligations.HeaderIsSelfDelimiting :=
  ⟨fun _ _ => rfl, fun _ _ _ => rfl, fun t => Nat.eq_sub_of_add_eq (treeBits_length_add_one t),
    fun _ _ _ _ => treeBits_append_inj⟩

end Machine
end Sys2Proof
end

section
/-!
PROOFS. The reader's commands REWIND, RDBIT and RDBITS (40_bitstream R94, R95, R99), and that reader and
writer share no state (40_bitstream R101).
-/

namespace Sys2Proof.Machine

/-! ### A command from an idle state -/

/-- Between commands and free of error, a command that may run runs its body. -/
theorem command_runs {ready : Bool} {s : State} (h : idle s) (hr : ready = true) (body : State → Run Unit) :
    command ready s body = finish (body s) := by
  rw [command_idle h, if_pos hr]

/-- Between commands and free of error, a command that may not run raises IllegalCommand. -/
theorem command_refuses {ready : Bool} {s : State} (h : idle s) (hr : ready = false)
    (body : State → Run Unit) : command ready s body = .next { s with err := some .illegalCommand } := by
  rw [command_idle h, if_neg (by simp [hr])]

/-- Between commands an error raised changes ERR alone (60_exceptions R207). -/
theorem finish_raised_of_hdr {s : State} {k : ErrKind} (hh : s.hdr = none) :
    finish (.raised k s) = .next { s with err := some k } := by
  rw [finish_raised, raise_of_hdr hh]

/-- A count of 0 or above 32 is not legal (30_encoding R64). -/
theorem countLegal_eq_false {n : BitVec 6} (h : n.toNat = 0 ∨ 32 < n.toNat) : countLegal n = false :=
  Bool.eq_false_iff.2 ((not_countLegal_iff n).2 h)

/-! ### The reader's commands -/

theorem exec_rewind {s : State} (h : idle s) : exec .rewind s = .next { s with inPos := 0 } := by
  rw [exec, execRewind, command_runs h rfl, finish_ok]

/-- Settles O15: the word's fields are those of REWIND, and its body sets IN_POS. -/
theorem rewindSetsInPosToZero : Obligations.RewindSetsInPosToZero :=
  ⟨rfl, fun _ => exec_rewind⟩

theorem exec_rdbit {s : State} (h : idle s) : exec .rdbit s = finish ((readBit s).andThen fun r t =>
    .ok () { t with res := readResult (r.map Bool.toNat) }) := by
  rw [exec, execRdbit, command_runs h rfl]

theorem exec_rdbits {s : State} (h : idle s) {n : BitVec 6} (h1 : 1 ≤ n.toNat) (h32 : n.toNat ≤ 32) :
    exec (.rdbits n) s = finish ((readBits n.toNat s).andThen fun r t =>
      .ok () { t with res := readResult r }) := by
  rw [exec, execRdbits, command_runs h ((countLegal_iff n).2 ⟨h1, h32⟩), countOperand]

theorem exec_rdbits_illegal {s : State} (h : idle s) {n : BitVec 6} (hn : n.toNat = 0 ∨ 32 < n.toNat) :
    exec (.rdbits n) s = .next { s with err := some .illegalCommand } := by
  rw [exec, execRdbits, command_refuses h (countLegal_eq_false hn)]

/-! ### RDBIT -/

/-- ReadBit at a byte boundary whose fetch fails. -/
theorem readBit_fails {s : State} (ha : s.inPos % 8 = 0) (hf : s.fetchFails.head? = some true) :
    readBit s = .raised .ioFailure { s with fetchFails := s.fetchFails.tail } := by
  rw [readBit_eq, if_pos ⟨ha, hf⟩, fetched, if_pos ha]

/-- ReadBit where no fetch fails and a byte stands at IN_POS. -/
theorem readBit_byte {s : State} {b : Byte} (hn : ¬ (s.inPos % 8 = 0 ∧ s.fetchFails.head? = some true))
    (hb : s.input[s.inPos / 8]? = some b) : readBit s =
      .ok (some (streamBit b (s.inPos % 8))) { fetched s with inPos := s.inPos + 1 } := by
  rw [readBit_eq, if_neg hn, inBits, bytesBits_getElem?, hb]
  rfl

/-- ReadBit where no fetch fails, at the end of IN. -/
theorem readBit_end {s : State} (hn : ¬ (s.inPos % 8 = 0 ∧ s.fetchFails.head? = some true))
    (he : s.inPos = 8 * s.input.length) :
    readBit s = .ok none { s with fetchFails := s.fetchFails.tail } := by
  have hnone : (inBits s)[s.inPos]? = none := List.getElem?_eq_none (by simp [inBits, he])
  rw [readBit_eq, if_neg hn, hnone, fetched, if_pos (by omega)]

/-- RES after a bit read. -/
theorem readResult_bit (b : Bool) : readResult (some b.toNat) = ⟨false, if b then 1 else 0⟩ := by
  cases b <;> rfl

/-- Settles O16: RDBIT is ReadBit and RES, and ReadBit has three ends. -/
theorem rdbitReadsTheNextBit : Obligations.RdbitReadsTheNextBit := by
  refine ⟨rfl, fun s h => ⟨fun ha hf => ?fails, fun hn => ⟨fun b hb => ?byte, fun he => ?atEnd⟩⟩⟩ <;>
    rw [exec_rdbit h]
  case fails =>
    rw [readBit_fails ha hf]
    exact finish_raised_of_hdr h.1
  case byte =>
    rw [readBit_byte hn hb, andThen_ok, finish_ok, Option.map_some, readResult_bit]
    rfl
  case atEnd => rw [readBit_end hn he]; rfl

/-! ### RDBITS -/

/-- What RDBITS with a legal N does on any environment: it gives a value or EOF, or it raises IoFailure at a
byte boundary inside the field. -/
theorem rdbits_ends {s : State} (h : idle s) {n : BitVec 6} (h1 : 1 ≤ n.toNat) (h32 : n.toNat ≤ 32) :
    ∃ t, exec (.rdbits n) s = .next t ∧
      t = { s with inPos := t.inPos, res := t.res, fetchFails := t.fetchFails, err := t.err } ∧
      (t.err = none ∨ (t.err = some .ioFailure ∧ t.res = s.res ∧ s.inPos ≤ t.inPos ∧
        t.inPos < s.inPos + n.toNat ∧ t.inPos % 8 = 0)) := by
  rw [exec_rdbits h h1 h32]
  rcases readBits_cases n.toNat s with ⟨-, d, e⟩ | ⟨-, d, e⟩ | ⟨k, d, hk, -, ha, -, e⟩ <;> rw [e]
  · exact ⟨_, rfl, rfl, .inl h.2⟩
  · exact ⟨_, rfl, rfl, .inl h.2⟩
  · exact ⟨_, finish_raised_of_hdr h.1, rfl, .inr ⟨rfl, rfl, Nat.le_add_right _ _, Nat.add_lt_add_left hk _, ha⟩⟩

/-- Settles O17: RDBITS is ReadBits and RES, so each clause is what ReadBits does on that environment. -/
theorem rdbitsReadsTheNextField : Obligations.RdbitsReadsTheNextField := by
  refine ⟨rfl, fun n s h => ⟨exec_rdbits_illegal h, fun h1 h32 => ⟨fun hf hle => ?full,
    fun hf hr hlt => ?short, fun p ds hp hlt => ?fails, rdbits_ends h h1 h32⟩⟩⟩
  case full =>
    obtain ⟨d, e⟩ := readBits_neverFail n.toNat hf
    rw [inRest_length] at hle
    rw [exec_rdbits h h1 h32, e, if_pos hle]
    exact ⟨d, rfl⟩
  case short =>
    obtain ⟨d, e⟩ := readBits_neverFail n.toNat hf
    rw [inRest_length] at hlt
    have hend : s.inPos + bitsLeft s = 8 * s.input.length := Nat.add_sub_cancel' hr
    rw [exec_rdbits h h1 h32, e, if_neg (Nat.not_le.2 hlt), hend]
    exact ⟨d, rfl⟩
  case fails =>
    rw [exec_rdbits h h1 h32, (readBits_failsAt n.toNat hp).1 hlt]
    exact finish_raised_of_hdr h.1

/-! ### Frames -/

/-- A command that reads by `r` and then writes RES changes nothing but the reader, RES and ERR. -/
theorem readThenRes_frame {α : Type} {r : Run (Option α)} {f : Option α → Res} {s t : State}
    (hh : s.hdr = none)
    (hr : ∀ u, ((∃ a, r = .ok a u) ∨ ∃ k, r = .raised k u) → OnlyReader s u)
    (h : finish (r.andThen fun a u => .ok () { u with res := f a }) = .next t) :
    t = { s with inPos := t.inPos, res := t.res, fetchFails := t.fetchFails, err := t.err } := by
  cases r with
  | ok a u =>
    have hu := hr u (.inl ⟨a, rfl⟩)
    cases h
    rw [hu]
  | raised k u =>
    have hu := hr u (.inr ⟨k, rfl⟩)
    have hn : u.hdr = none := by rw [hu]; exact hh
    cases h
    rw [raise_of_hdr hn, hu]
  | hang => cases h

theorem rdbit_frame {s t : State} (h : idle s) (he : exec .rdbit s = .next t) :
    t = { s with inPos := t.inPos, res := t.res, fetchFails := t.fetchFails, err := t.err } := by
  rw [exec_rdbit h] at he
  exact readThenRes_frame (f := fun r => readResult (r.map Bool.toNat)) h.1
    (fun _ => readBit_onlyReader) he

theorem rdbits_frame {n : BitVec 6} {s t : State} (h : idle s) (he : exec (.rdbits n) s = .next t) :
    t = { s with inPos := t.inPos, res := t.res, fetchFails := t.fetchFails, err := t.err } := by
  by_cases hn : n.toNat = 0 ∨ 32 < n.toNat
  · rw [exec_rdbits_illegal h hn] at he
    cases he
    rfl
  · rw [exec_rdbits h (by omega) (by omega)] at he
    exact readThenRes_frame h.1 (fun _ => readBits_onlyReader) he

/-- FLUSH's body in one piece (P-R98). -/
theorem flushWriter_eq (s : State) : flushWriter s =
    if s.wcnt = 0 then .ok () { s with wOpen := false }
    else if s.putFails.head? = some true then .raised .ioFailure { s with putFails := s.putFails.tail }
    else .ok () { s with out := s.out ++ [s.wbuf], wbuf := 0, wcnt := 0, wOpen := false,
                         putFails := s.putFails.tail } := by
  unfold flushWriter outPut
  by_cases hd : s.putFails.head? = some true <;> simp [hd]

/-- FLUSH's body touches only the writer, in every state. -/
theorem flushWriter_onlyWriter {s t : State}
    (h : flushWriter s = .ok () t ∨ ∃ k, flushWriter s = .raised k t) :
    t = { s with out := t.out, wbuf := t.wbuf, wcnt := t.wcnt, wOpen := t.wOpen,
                 putFails := t.putFails } := by
  rw [flushWriter_eq] at h
  split at h
  case isTrue => rcases h with h | ⟨k, h⟩ <;> cases h; rfl
  case isFalse => split at h <;> rcases h with h | ⟨k, h⟩ <;> cases h <;> rfl

/-- Settles O20: each clause is the frame of the operation it names. -/
theorem readerAndWriterShareNoState : Obligations.ReaderAndWriterShareNoState := by
  refine ⟨?commands, fun _ _ _ r h => readBits_onlyReader (h.imp_left fun e => ⟨r, e⟩),
    fun _ _ _ => writeAll_onlyWriter, fun _ _ => flushWriter_onlyWriter⟩
  rintro s t i (rfl | ⟨n, rfl⟩) h he
  · exact rdbit_frame h he
  · exact rdbits_frame h he

end Sys2Proof.Machine
end

section
/-!
PROOFS. The writer's commands WRBIT, WRBITS and FLUSH (40_bitstream R96, R97, R98).
-/

namespace Sys2Proof.Machine

open Sys2Proof.Claims

/-! ### The writer's commands from an idle state -/

/-- Free of error, WBUF holds zeros below the pending bits (10_state R16). -/
theorem wbufOk_of_idle {s : State} (h : idle s) (hw : writerOk s) : wbufOk s :=
  hw.1 (by simp [h.2])

theorem exec_wrbit {s : State} (h : idle s) (ho : s.wOpen = true) (b : Bool) :
    exec (.wrbit b) s = finish (writeBit b s) :=
  command_runs h ho _

theorem exec_wrbit_closed {s : State} (h : idle s) (ho : s.wOpen = false) (b : Bool) :
    exec (.wrbit b) s = .next { s with err := some .illegalCommand } :=
  command_refuses h ho _

/-- Bits N - 1 down to 0 of V (40_bitstream R97). -/
abbrev lowBits (n : Nat) (v : BitVec 32) : List Bool := (List.range n).map fun j => v.getLsbD (n - 1 - j)

/-- WRBITS writes the low bits of V one after the other. -/
theorem exec_wrbits {s : State} (h : idle s) (ho : s.wOpen = true) {n : BitVec 6} (h1 : 1 ≤ n.toNat)
    (h32 : n.toNat ≤ 32) (v : BitVec 32) :
    exec (.wrbits n v) s = finish (writeAll (lowBits n.toNat v) s) := by
  have hbits : natToBits n.toNat v.toNat = lowBits n.toNat v := natToBits_eq_map _ _
  rw [← hbits]
  exact command_runs h (by rw [(countLegal_iff n).2 ⟨h1, h32⟩, ho]; rfl) _

theorem exec_wrbits_illegal {s : State} (h : idle s) {n : BitVec 6}
    (hn : n.toNat = 0 ∨ 32 < n.toNat ∨ s.wOpen = false) (v : BitVec 32) :
    exec (.wrbits n v) s = .next { s with err := some .illegalCommand } := by
  refine command_refuses h (Bool.and_eq_false_iff.2 ?_) _
  exact (or_assoc.2 hn).imp_left countLegal_eq_false

theorem exec_flush {s : State} (h : idle s) (ho : s.wOpen = true) :
    exec .flush s = finish (flushWriter s) :=
  command_runs h ho _

theorem exec_flush_closed {s : State} (h : idle s) (ho : s.wOpen = false) :
    exec .flush s = .next { s with err := some .illegalCommand } :=
  command_refuses h ho _

/-! ### What an operation of the writer leaves -/

theorem OnlyWriter.err_eq {s t : State} (h : OnlyWriter s t) : t.err = s.err := by rw [h]

/-- An error raised where only the writer has changed. -/
theorem OnlyWriter.raise_eq {s t : State} (h : OnlyWriter s t) (hh : s.hdr = none) (k : ErrKind) :
    raise k t = { s with out := t.out, wbuf := t.wbuf, wcnt := t.wcnt, putFails := t.putFails,
                         err := some k } := by
  have hn : t.hdr = none := by rw [h]; exact hh
  rw [raise_of_hdr hn, h]

/-! ### WRBIT -/

/-- Below seven pending bits no byte is put. -/
theorem writeBit_below_seven {b : Bool} {s t : State} (h7 : s.wcnt ≠ 7) (e : writeBit b s = .ok () t) :
    t.out = s.out ∧ t.wcnt.val = s.wcnt.val + 1 ∧ t.putFails = s.putFails := by
  have hlt : s.wcnt.val + 1 < 8 := by omega
  rw [writeBit_eq, if_neg h7] at e
  cases e
  exact ⟨rfl, by rw [Fin.val_add_one_of_lt' hlt], rfl⟩

/-- At seven pending bits a put that is not refused takes the whole byte. -/
theorem writeBit_at_seven {b : Bool} {s t : State} (h7 : s.wcnt = 7) (e : writeBit b s = .ok () t) :
    t.out.length = s.out.length + 1 ∧ t.wcnt = 0 ∧ t.wbuf = 0 := by
  rw [writeBit_eq, if_pos h7] at e
  split at e
  · cases e
  · cases e
    exact ⟨by simp, rfl, rfl⟩

/-- WriteBit where no byte is completed, or none is refused. -/
theorem writeBit_writes (b : Bool) {s : State} (hw : wbufOk s)
    (hp : s.wcnt ≠ 7 ∨ s.putFails.head? ≠ some true) :
    ∃ t, writeBit b s = .ok () t ∧ OnlyWriter s t ∧ outBits t = outBits s ++ [b] := by
  rcases writeBit_cases b hw with ⟨t, e, ho, -, hb, -⟩ | ⟨_, -, -, h7, -, -, -, hf⟩
  · exact ⟨t, e, ho, hb⟩
  · rw [← List.head?_eq_getElem?] at hf
    exact absurd hf (hp.resolve_left (not_not.2 h7))

/-- WriteBit where the byte it completes is refused: WBUF keeps the byte. -/
theorem writeBit_refused (b : Bool) {s : State} (hw : wbufOk s) (h7 : s.wcnt = 7)
    (hf : s.putFails.head? = some true) :
    ∃ t, writeBit b s = .raised .ioFailure t ∧ OnlyWriter s t ∧ t.wcnt = s.wcnt ∧ t.out = s.out ∧
      byteBits t.wbuf = pending s ++ [b] := by
  rcases writeBit_cases b hw with ⟨t, e, -⟩ | ⟨t, e, ho, -, h7', hout, hb, -⟩
  · rw [writeBit_eq, if_pos h7, if_pos hf] at e
    cases e
  · rw [hout, outBits, List.append_assoc] at hb
    exact ⟨t, e, ho, h7'.trans h7.symm, hout, List.append_cancel_left hb⟩

/-- Settles O21: WRBIT is WriteBit, which writes the bit or is refused the byte the bit completes. -/
theorem wrbitAppendsOneBit : Obligations.WrbitAppendsOneBit := by
  refine ⟨rfl, fun b s h => ⟨fun ho => exec_wrbit_closed h ho b, fun ho hok =>
    ⟨fun hp => ?writes, fun h7 hf => ?refused⟩⟩⟩ <;> rw [exec_wrbit h ho]
  case writes =>
    obtain ⟨t, e, hout, hb⟩ := writeBit_writes b (wbufOk_of_idle h hok) hp
    exact ⟨t, by rw [e]; rfl, hb, hout, fun h7 => writeBit_below_seven h7 e,
      fun h7 => writeBit_at_seven h7 e⟩
  case refused =>
    obtain ⟨t, e, ht, hcnt, hout, hb⟩ := writeBit_refused b (wbufOk_of_idle h hok) h7 hf
    refine ⟨raise .ioFailure t, by rw [e]; rfl, rfl, hout, hb, ?_⟩
    rw [ht.raise_eq h.1, hcnt, hout]

/-! ### WRBITS -/

/-- The first `k` of the low bits of V. -/
theorem lowBits_take {n k : Nat} (hk : k ≤ n) (v : BitVec 32) :
    (lowBits n v).take k = (List.range k).map fun j => v.getLsbD (n - 1 - j) := by
  rw [← List.map_take, List.take_range, Nat.min_eq_left hk]

section
variable {s : State} {i : Instr} {l : List Bool} (h : idle s) (hw : wbufOk s)
  (hi : exec i s = finish (writeAll l s))
include h hw hi

/-- A command that writes the bits `l`, on an environment whose puts never fail. -/
theorem writeCommand_neverFail (hp : putsNeverFail s) :
    ∃ t, exec i s = .next t ∧ t.err = none ∧ outBits t = outBits s ++ l ∧ OnlyWriter s t := by
  obtain ⟨t, e, ht, -, hb, -⟩ := writeAll_neverFail l hw hp
  exact ⟨t, by rw [hi, e]; rfl, ht.err_eq.trans h.2, hb, ht⟩

/-- A command that writes the bits `l`, on any environment. -/
theorem writeCommand_frame : ∃ t, exec i s = .next t ∧
    t = { s with out := t.out, wbuf := t.wbuf, wcnt := t.wcnt, putFails := t.putFails, err := t.err } ∧
    (t.err = none ∨ (t.err = some .ioFailure ∧ ∃ k, k < l.length ∧
      bytesBits t.out ++ byteBits t.wbuf = outBits s ++ l.take (k + 1))) := by
  rcases writeAll_cases l hw with ⟨t, e, ht, -⟩ | ⟨t, k, -, e, ht, hk, -, hb, -⟩
  · refine ⟨t, by rw [hi, e]; rfl, ?_, .inl (ht.err_eq.trans h.2)⟩
    rw [ht]
  · exact ⟨raise .ioFailure t, by rw [hi, e]; rfl, ht.raise_eq h.1 _, .inr ⟨rfl, k, hk, hb⟩⟩

/-- A command that writes the bits `l` stops at the put that fails. -/
theorem writeCommand_stopsAtThePut : StopsAtThePut i s l := by
  refine fun m ds hm => ⟨fun hle => ?_, fun hlt => ?_⟩
  · obtain ⟨t, e, ht, hcnt, hds, -, hout, hbuf⟩ := (writeAll_failsAt l hw hm).1 hle
    refine ⟨raise .ioFailure t, by rw [hi, e]; rfl, hout, hbuf, ?_⟩
    rw [ht.raise_eq h.1, hcnt, hds]
  · obtain ⟨t, e, ht, -, hb, hm'⟩ := (writeAll_failsAt l hw hm).2 hlt
    exact ⟨t, by rw [hi, e]; rfl, ht.err_eq.trans h.2, hb, ht, hm'⟩

end

/-- Settles O22: WRBITS writes the low bits of V as a bit sequence, so each clause is what such a command does
on that environment. -/
theorem wrbitsAppendsTheLowBits : Obligations.WrbitsAppendsTheLowBits := by
  refine ⟨rfl, fun n v s h => ⟨fun hn => exec_wrbits_illegal h hn v, fun h1 h32 ho hok => ?_⟩⟩
  have hw := wbufOk_of_idle h hok
  have hi := exec_wrbits h ho h1 h32 v
  refine ⟨writeCommand_neverFail h hw hi, ?anyEnv, writeCommand_stopsAtThePut h hw hi⟩
  obtain ⟨t, e, ht, hend⟩ := writeCommand_frame h hw hi
  refine ⟨t, e, ht, hend.imp_right fun ⟨hio, k, hk, hb⟩ => ⟨hio, k, ?_⟩⟩
  have hk : k < n.toNat := by simpa using hk
  exact ⟨hk, by rw [hb, lowBits_take hk]⟩

/-! ### FLUSH -/

/-- The byte put by FLUSH is the pending bits and zeros (20_memory R47). -/
theorem flushed_bits {s : State} (hw : wbufOk s) (h0 : s.wcnt ≠ 0) :
    bytesBits (s.out ++ [s.wbuf]) = outBits s ++ List.replicate (8 - s.wcnt.val) false := by
  have hpad : byteBits s.wbuf = pending s ++ List.replicate (8 - s.wcnt.val) false :=
    flush_pad s.wcnt s.wbuf.toFin hw h0
  rw [bytesBits_append, bytesBits_cons, hpad, bytesBits_nil, List.append_nil, outBits, List.append_assoc]

/-- Settles O24: the three ends of FLUSH's body, and the padding of the byte it puts. -/
theorem flushPadsAndCloses : Obligations.FlushPadsAndCloses := by
  refine ⟨rfl, fun s h => ⟨exec_flush_closed h, fun ho => ⟨fun h0 => ?empty,
    fun h0 hp hok => ⟨?put, flushed_bits (wbufOk_of_idle h hok) h0⟩, fun h0 hf => ?refused⟩⟩⟩ <;>
    rw [exec_flush h ho, flushWriter_eq]
  case empty => rw [if_pos h0, finish_ok]
  case put => rw [if_neg h0, if_neg hp, finish_ok]
  case refused =>
    rw [if_neg h0, if_pos hf]
    exact finish_raised_of_hdr h.1

end Sys2Proof.Machine
end

section
/-!
PROOFS. FREQ: the bytes counted, the counts of a whole IN, and the full counter (41_frequency R110, R113,
R114).
-/

namespace Sys2Proof.Machine

open Sys2Proof.Claims

/-! ### Counters with room and full counters -/

/-- Counters that fit after the bytes `l` had room for each of them. -/
theorem roomFor_of_countsFit {s : State} {l : List Nat} (h : CountsFit s l) (hl : ∀ b ∈ l, b < 256) :
    roomFor s.cfg l s.hist :=
  roomFor_of_fits fun b hb => h b (hl b hb)

theorem counterFull_iff {cfg : Config} {w c : Nat} (hw : cfg.weightW = some w) :
    counterFull cfg c = true ↔ c = 2 ^ w - 1 := by
  simp [counterFull, hw]

/-- With WEIGHT_W unbounded no counter is full. -/
theorem counterFull_unbounded {cfg : Config} (hw : cfg.weightW = none) (c : Nat) :
    counterFull cfg c = false := by
  simp [counterFull, hw]

/-- Where a byte finds its counter full there was not room for the whole sequence. -/
theorem not_roomFor_of_full {cfg : Config} {l l' : List Nat} {x : Nat} {h : List (Nat × Nat)}
    (hx : counterFull cfg (histRead (countAll l h) x) = true) : ¬ roomFor cfg (l ++ x :: l') h := by
  rw [roomFor_append]
  rintro ⟨-, hroom, -⟩
  rw [hx] at hroom
  cases hroom

/-! ### The ends of FREQ -/

theorem exec_freq {s : State} (h : idle s) : exec .freq s = finish (freqLoop (bitsLeft s + 1) s) := by
  rw [exec, execFreq, command_runs h rfl]

/-- The three ends of FREQ on any environment: all groups counted, a full counter, a fetch that fails. -/
theorem exec_freq_cases {s : State} (h : idle s) :
    (roomFor s.cfg (byteGroups (inRest s)) s.hist ∧ ∃ d, exec .freq s = .next { s with
      hist := countAll (byteGroups (inRest s)) s.hist, inPos := s.inPos + bitsLeft s,
      fetchFails := s.fetchFails.drop d }) ∨
    (∃ l x l' d, byteGroups (inRest s) = l ++ x :: l' ∧ roomFor s.cfg l s.hist ∧
      counterFull s.cfg (histRead (countAll l s.hist) x) = true ∧
      exec .freq s = .next { s with
        hist := countAll l s.hist, inPos := s.inPos + 8 * (l.length + 1),
        fetchFails := s.fetchFails.drop d, err := some .counterOverflow }) ∨
    (∃ l p d, s.fetchFails[d]? = some true ∧ exec .freq s = .next { s with
      hist := countAll l s.hist, inPos := p, fetchFails := s.fetchFails.drop (d + 1),
      err := some .ioFailure }) := by
  rw [exec_freq h]
  rcases freqLoop_cases (Nat.lt_succ_self (bitsLeft s)) with
    ⟨hroom, d, e⟩ | ⟨l, x, l', d, hl, hroom, hx, e⟩ | ⟨l, l', k, d, -, -, -, -, hd, e⟩
  · exact .inl ⟨hroom, d, by rw [e, finish_ok]⟩
  · exact .inr (.inl ⟨l, x, l', d, hl, hroom, hx, by rw [e]; exact finish_raised_of_hdr h.1⟩)
  · exact .inr (.inr ⟨l, _, d, hd, by rw [e]; exact finish_raised_of_hdr h.1⟩)

/-- Where every group has room and no fetch fails, FREQ counts them all. -/
theorem exec_freq_countsAll {s : State} (h : idle s) (hf : fetchesNeverFail s)
    (hroom : roomFor s.cfg (byteGroups (inRest s)) s.hist) :
    ∃ d, exec .freq s = .next { s with
      hist := countAll (byteGroups (inRest s)) s.hist, inPos := s.inPos + bitsLeft s,
      fetchFails := s.fetchFails.drop d } := by
  rcases exec_freq_cases h with ⟨-, e⟩ | ⟨l, x, l', -, hl, -, hx, -⟩ | ⟨_, _, d, hd, -⟩
  · exact e
  · exact absurd (hl ▸ hroom) (not_roomFor_of_full hx)
  · exact absurd hd (no_draw hf)

/-- Where no fetch fails, FREQ stops at the first byte whose counter is full. -/
theorem exec_freq_full {s : State} (h : idle s) (hf : fetchesNeverFail s) {l l' : List Nat} {x : Nat}
    (hl : byteGroups (inRest s) = l ++ x :: l') (hroom : roomFor s.cfg l s.hist)
    (hx : counterFull s.cfg (histRead (countAll l s.hist) x) = true) :
    ∃ d, exec .freq s = .next { s with
      hist := countAll l s.hist, inPos := s.inPos + 8 * (l.length + 1),
      fetchFails := s.fetchFails.drop d, err := some .counterOverflow } := by
  rcases exec_freq_cases h with ⟨hall, -⟩ | ⟨m, y, m', d, hm, hroom', hy, e⟩ | ⟨_, _, d, hd, -⟩
  · exact absurd (hl ▸ hall) (not_roomFor_of_full hx)
  · obtain ⟨rfl, -⟩ := roomFor_first (hl.symm.trans hm) hroom hx hroom' hy
    exact ⟨d, e⟩
  · exact absurd hd (no_draw hf)

/-- Where the fetch at `p` fails, FREQ stops there with the groups read before it counted. -/
theorem exec_freq_failsAt {s : State} (h : idle s) {p : Nat} {ds : List Bool} (hp : fetchFailsAt s p ds)
    (hroom : roomFor s.cfg (byteGroups ((inRest s).take (p - s.inPos))) s.hist) :
    exec .freq s = .next { s with
      hist := countAll (byteGroups ((inRest s).take (p - s.inPos))) s.hist, inPos := p,
      fetchFails := ds, err := some .ioFailure } := by
  rw [exec_freq h, freqLoop_failsAt (Nat.lt_succ_self _) hp hroom]
  exact finish_raised_of_hdr h.1

/-- Settles O25: the counters after the loop are those before it and the groups counted, whether the loop ends
at the end of IN or at the fetch that fails. -/
theorem freqCountsEveryRemainingByte : Obligations.FreqCountsEveryRemainingByte := by
  refine ⟨rfl, fun s p ds h hp hfit => ?fails, fun s h hf hr hfit => ?neverFails⟩
  case fails =>
    have e := exec_freq_failsAt h hp (roomFor_of_countsFit hfit (byteGroups_lt _))
    exact ⟨_, e, fun b _ => histRead_countAll _ s.hist b, rfl⟩
  case neverFails =>
    obtain ⟨d, e⟩ := exec_freq_countsAll h hf (roomFor_of_countsFit hfit (byteGroups_lt _))
    exact ⟨_, e, fun b _ => histRead_countAll _ s.hist b, Nat.add_sub_cancel' hr, rfl⟩

/-! ### The counts of a whole IN -/

/-- The groups of the whole of IN are its bytes. -/
theorem byteGroups_inRest_start {s : State} (h0 : s.inPos = 0) :
    byteGroups (inRest s) = s.input.map BitVec.toNat := by
  rw [inRest, inBits, h0, List.drop_zero, ← List.append_nil (bytesBits _)]
  exact byteGroups_bytesBits s.input (by decide)

/-- FREQ that ends free of error has counted every group. -/
theorem exec_freq_hist {s t : State} (h : idle s) (he : exec .freq s = .next t) (ht : t.err = none) :
    t.hist = countAll (byteGroups (inRest s)) s.hist := by
  rcases exec_freq_cases h with ⟨-, d, e⟩ | ⟨l, x, l', d, -, -, -, e⟩ | ⟨l, p, d, -, e⟩ <;>
    cases he.symm.trans e
  · rfl
  · cases ht
  · cases ht

/-- The counts of numbers below `n` sum to how many there are. -/
theorem sum_count_range {n : Nat} {l : List Nat} (hl : ∀ b ∈ l, b < n) :
    ((List.range n).map fun b => l.count b).sum = l.length := by
  have hcard := Multiset.sum_count_eq_card (s := Finset.range n) (m := l)
    fun b hb => Finset.mem_range.2 (hl b hb)
  simpa [Finset.sum_eq_multiset_sum, Multiset.range] using hcard

/-- Settles O26: FREQ has counted every group into empty counters, and the groups are the bytes of IN. -/
theorem frequencyCorrectness : Obligations.FrequencyCorrectness := by
  intro s t h hempty h0 he ht
  have hhist := exec_freq_hist h he ht
  rw [byteGroups_inRest_start h0, hempty] at hhist
  have hlt : ∀ b ∈ s.input.map BitVec.toNat, b < 256 := by
    rw [← byteGroups_inRest_start h0]
    exact byteGroups_lt _
  have hread (b : Nat) : histRead t.hist b = (s.input.map BitVec.toNat).count b := by
    rw [hhist, histRead_countAll, histRead_nil, Nat.zero_add]
  refine ⟨?sum, fun b => ?count, ?keys⟩
  case sum => rw [List.map_congr_left fun b _ => hread b, sum_count_range hlt, List.length_map]
  case count => rw [hread, List.count_map_of_injective _ _ fun _ _ => BitVec.eq_of_toNat_eq]
  case keys =>
    rw [hhist]
    exact (histWf_iff.1 (countAll_wf _ rfl hlt)).2

/-! ### The full counter -/

/-- Settles O27: FREQ stops at the first full counter, and no counter is full where WEIGHT_W is unbounded. -/
theorem counterOverflowAtTheMaximum : Obligations.CounterOverflowAtTheMaximum := by
  refine ⟨fun s w l l' x h hf hw hl hfit hmax => ?atMax, fun s t h hw he => ?unbounded⟩
  case atMax =>
    have hlt : ∀ b ∈ l, b < 256 := fun b hb =>
      byteGroups_lt (inRest s) b (hl ▸ List.mem_append_left _ hb)
    have hx : counterFull s.cfg (histRead (countAll l s.hist) x) = true := by
      rw [counterFull_iff hw, histRead_countAll, hmax]
    obtain ⟨d, e⟩ := exec_freq_full h hf hl (roomFor_of_countsFit hfit hlt) hx
    exact ⟨_, e, rfl, fun b _ => histRead_countAll l s.hist b, rfl, rfl⟩
  case unbounded =>
    rcases exec_freq_cases h with ⟨-, d, e⟩ | ⟨l, x, -, -, -, -, hx, -⟩ | ⟨l, p, d, -, e⟩
    · cases he.symm.trans e
      simp [h.2]
    · rw [counterFull_unbounded hw] at hx
      cases hx
    · cases he.symm.trans e
      simp

end Sys2Proof.Machine
end

section
/-!
PROOFS. BUILD: the merge steps and the one tree they make, and what BUILD does with it (42_tree_build R120 to
R125, R129, R130).
-/

namespace Sys2Proof.Machine

open Sys2Proof.Claims

/-! ### The merge steps as a relation (R122, R123) -/

theorem keyBefore_asymm {a b : Entry} (h : KeyBefore a b) (h' : KeyBefore b a) : False :=
  keyLess_asymm ((keyLess_iff a b).2 h) ((keyLess_iff b a).2 h')

theorem keyBefore_weight_le {a b : Entry} (h : KeyBefore a b) : treeWeight a.tree ≤ treeWeight b.tree := by
  rcases h with h | ⟨h, -⟩
  · exact Nat.le_of_lt h
  · exact Nat.le_of_eq h

/-- A collection has one least entry, whatever order it is listed in. -/
theorem least_unique {a a' : Entry} {q q' : List Entry} (hp : (a :: q).Perm (a' :: q'))
    (ha : ∀ x ∈ q, KeyBefore a x) (ha' : ∀ x ∈ q', KeyBefore a' x) : a = a' ∧ q.Perm q' := by
  have heq : a = a' := by
    rcases List.mem_cons.1 (hp.mem_iff.1 List.mem_cons_self) with h | h
    · exact h
    rcases List.mem_cons.1 (hp.mem_iff.2 List.mem_cons_self) with h' | h'
    · exact h'.symm
    exact (keyBefore_asymm (ha _ h') (ha' _ h)).elim
  subst heq
  exact ⟨rfl, hp.cons_inv⟩

/-- The merge steps do not see in which order Q is listed. -/
theorem merges_perm {seq last : Nat} {q q' : List Entry} {t : Tree} (hp : q.Perm q')
    (h : Merges seq q t last) : Merges seq q' t last := by
  cases h with
  | root _ e =>
    rw [← List.singleton_perm.1 hp]
    exact .root seq e
  | merge _ _ a b rest _ _ hq ha hb hm => exact .merge seq q' a b rest t last (hp.symm.trans hq) ha hb hm

/-- The merge steps determine the tree and the last SEQ: each step takes the one least entry, twice. -/
theorem merges_unique {seq n n' : Nat} {q q' : List Entry} {t t' : Tree} (h : Merges seq q t n)
    (hp : q.Perm q') (h' : Merges seq q' t' n') : t = t' ∧ n = n' := by
  induction h generalizing q' t' n' with
  | root seq e =>
    have hq' := List.singleton_perm.1 hp
    cases h' with
    | root _ e' =>
      rw [List.cons.injEq] at hq'
      exact ⟨by rw [hq'.1], rfl⟩
    | merge _ _ a b rest _ _ hq =>
      have hlen := (hp.trans hq).length_eq
      simp at hlen
  | merge seq q a b rest t n hq ha hb _ ih =>
    cases h' with
    | root _ e' =>
      have hlen := (hq.symm.trans hp).length_eq
      simp at hlen
    | merge _ _ a' b' rest' _ _ hq' ha' hb' hm' =>
      obtain ⟨rfl, hp1⟩ := least_unique (hq.symm.trans (hp.trans hq')) ha ha'
      obtain ⟨rfl, hp2⟩ := least_unique hp1 hb hb'
      exact ih (hp2.cons _) hm'

/-- The loop of P-R120 makes the merge steps, one number of SEQ for each entry but the first. -/
theorem mergeAll_merges {n seq : Nat} {e : Entry} {q : List Entry} {t : Tree}
    (hd : ((e :: q).map tag).Nodup) (hs : ∀ x ∈ e :: q, x.kind = 1 → x.order < seq)
    (ht : mergeAll n seq e q = some t) : Merges seq (e :: q) t (seq + q.length) := by
  induction n generalizing seq e q with
  | zero =>
    cases q with
    | nil => cases ht; exact .root seq e
    | cons x q => cases ht
  | succ n ih =>
    cases q with
    | nil => cases ht; exact .root seq e
    | cons x q =>
      obtain ⟨a, b, r, heq, hp, hlen, hleast⟩ := mergeAll_step n seq e x q
      obtain ⟨ha, hb⟩ := hleast hd
      obtain ⟨hd', hs'⟩ := merge_tags hp hd hs
      have hm := ih hd' hs' (heq.symm.trans ht)
      rw [hlen, Nat.add_assoc, Nat.add_comm 1] at hm
      exact .merge seq _ a b r t _ hp.symm (fun y hy => (keyLess_iff a y).1 (ha y hy))
        (fun y hy => (keyLess_iff b y).1 (hb y hy)) hm

/-! ### The tree of a histogram -/

/-- The entries of Q at the start are those R121 names. -/
theorem startsAs_initialQ (h : List (Nat × Nat)) : StartsAs h (initialQ h) :=
  ⟨(initialQ_tags h).of_map _, mem_initialQ h⟩

/-- R121 fixes Q up to the order it is listed in. -/
theorem startsAs_perm {h : List (Nat × Nat)} {q q' : List Entry} (hq : StartsAs h q) (hq' : StartsAs h q') :
    q.Perm q' :=
  (List.perm_ext_iff_of_nodup hq.1 hq'.1).2 fun e => (hq.2 e).trans (hq'.2 e).symm

/-- The tree of a histogram: the merge steps make it from the starting leaves, and it has their symbols and
weights. -/
theorem huffman_spec (h : List (Nat × Nat)) : ∃ t, huffman h = some t ∧
    Merges 0 (initialQ h) t ((initialQ h).length - 1) ∧
    (leaves t).Perm ((initialQ h).flatMap fun e => leaves e.tree) ∧
    treeWeight t = totalWeight h ∧ weightsAdd t := by
  obtain ⟨e, q, hq, hh⟩ := huffman_eq h
  obtain ⟨t, ht, hleaves, hw, hadd⟩ := mergeAll_spec (seq := 0) (e := e) (Nat.le_refl q.length)
  have hkinds : ∀ x ∈ e :: q, x.kind = 1 → x.order < 0 := fun x hx hk => by
    rw [initialQ_kinds h x (hq ▸ hx)] at hk
    cases hk
  have hm := mergeAll_merges (hq ▸ initialQ_tags h) hkinds ht
  rw [← hq] at hleaves hw hadd
  refine ⟨t, hh.trans ht, ?merges, hleaves, hw.trans (initialQ_weight h), hadd fun x hx => ?leaf⟩
  case merges =>
    rw [Nat.zero_add] at hm
    rwa [hq]
  case leaf => rcases (mem_initialQ h x).1 hx with rfl | ⟨y, -, -, rfl⟩ <;> trivial

/-- The merge steps from any listing of the starting leaves end with the tree of the histogram. -/
theorem huffman_eq_of_merges {h : List (Nat × Nat)} {q : List Entry} {t : Tree} {n : Nat}
    (hq : StartsAs h q) (hm : Merges 0 q t n) : huffman h = some t := by
  obtain ⟨t', ht', hm', -⟩ := huffman_spec h
  rw [ht', (merges_unique hm (startsAs_perm hq (startsAs_initialQ h)) hm').1]

/-- The leaves of the trees of Q at the start: the sentinel's with weight 1 and one per byte value counted. -/
theorem mem_initialQ_leaves (h : List (Nat × Nat)) (x : Sym) (w : Nat) :
    (x, w) ∈ (initialQ h).flatMap (fun e => leaves e.tree) ↔
      (x = 256 ∧ w = 1) ∨ (x.val < 256 ∧ 1 ≤ w ∧ w = histRead h x.val) := by
  rw [List.mem_flatMap]
  constructor
  · rintro ⟨e, he, hx⟩
    rcases (mem_initialQ h e).1 he with rfl | ⟨y, hy, hc, rfl⟩ <;>
      obtain ⟨rfl, rfl⟩ := Prod.mk.inj (List.mem_singleton.1 hx)
    · exact .inl ⟨rfl, rfl⟩
    · exact .inr ⟨hy, hc, rfl⟩
  · rintro (⟨rfl, rfl⟩ | ⟨hx, hw, rfl⟩)
    · exact ⟨leafEntry 256 1, (mem_initialQ h _).2 (.inl rfl), List.mem_singleton.2 rfl⟩
    · exact ⟨leafEntry x (histRead h x.val), (mem_initialQ h _).2 (.inr ⟨x, hx, hw, rfl⟩),
        List.mem_singleton.2 rfl⟩

/-- No two of the starting leaves carry one symbol: the symbols are the numbers in the keys of Q. -/
theorem initialQ_leaves_nodup (h : List (Nat × Nat)) :
    (((initialQ h).flatMap fun e => leaves e.tree).map Prod.fst).Nodup := by
  apply List.Nodup.of_map Fin.val
  rw [initialQ_leaves, List.map_map, List.map_map,
    List.map_congr_left (g := Entry.order) fun e he => ?order]
  case order =>
    rcases (mem_initialQ h e).1 he with rfl | ⟨x, -, -, rfl⟩
    · rfl
    · exact Nat.mod_eq_of_lt x.isLt
  exact initialQ_symbols h

/-- The starting leaves, and so the tree, depend on the counters alone. -/
theorem huffman_congr {h h' : List (Nat × Nat)} (hc : ∀ b, b < 256 → histRead h b = histRead h' b) :
    huffman h = huffman h' := by
  obtain ⟨t, ht, hm, -⟩ := huffman_spec h
  have hq : StartsAs h' (initialQ h) :=
    ⟨(startsAs_initialQ h).1, fun e => by
      rw [mem_initialQ]
      refine or_congr Iff.rfl (exists_congr fun x => and_congr_right fun hx => ?_)
      rw [hc x.val hx]
      rfl⟩
  rw [ht, huffman_eq_of_merges hq hm]

/-! ### BUILD (R120) -/

theorem build_ready {s : State} (hn : s.tree = none) : (!tValid s) = true := by
  simp [tValid, hn]

/-- A total that does not fit is CounterOverflow (R130). -/
theorem exec_build_overflows {s : State} (h : idle s) (hn : s.tree = none)
    (ho : weightOverflows s.cfg (totalWeight s.hist) = true) :
    exec .build s = .next { s with err := some .counterOverflow } := by
  rw [exec, execBuild, command_runs h (build_ready hn), if_pos ho]
  exact finish_raised_of_hdr h.1

/-- Where the total fits, TREE becomes the tree of the histogram. -/
theorem exec_build_fits {s : State} (h : idle s) (hn : s.tree = none)
    (ho : weightOverflows s.cfg (totalWeight s.hist) = false) {t : Tree} (ht : huffman s.hist = some t) :
    exec .build s = .next { s with tree := some t } := by
  rw [exec, execBuild, command_runs h (build_ready hn), if_neg (Bool.eq_false_iff.1 ho), ht]
  rfl

/-- A tree that BUILD leaves is the tree of the histogram. -/
theorem huffman_of_exec_build {s t : State} {tr : Tree} (h : idle s) (hn : s.tree = none)
    (he : exec .build s = .next t) (ht : t.tree = some tr) : huffman s.hist = some tr := by
  obtain ⟨u, hu, -⟩ := huffman_spec s.hist
  cases ho : weightOverflows s.cfg (totalWeight s.hist) with
  | true =>
    cases he.symm.trans (exec_build_overflows h hn ho)
    cases hn.symm.trans ht
  | false =>
    cases he.symm.trans (exec_build_fits h hn ho hu)
    exact hu.trans ht

theorem weightOverflows_iff {cfg : Config} {w : Nat} (hw : cfg.weightW = some w) (total : Nat) :
    weightOverflows cfg total = true ↔ 2 ^ w - 1 < total := by
  simp [weightOverflows, hw]

/-- Settles O28: the leaves of BUILD's tree are those Q starts with. -/
theorem buildMakesOneLeafPerSymbol : Obligations.BuildMakesOneLeafPerSymbol := by
  intro s h hn ho
  obtain ⟨t, ht, -, hleaves, hw, hadd⟩ := huffman_spec s.hist
  refine ⟨t, exec_build_fits h hn ho ht, fun x w => ?mem, ?nodup, hadd, hw⟩
  case mem => rw [hleaves.mem_iff, mem_initialQ_leaves]
  case nodup => exact ((hleaves.map Prod.fst).nodup_iff).2 (initialQ_leaves_nodup s.hist)

/-- Settles O29: the loop makes the merge steps, which do not see the order of Q and determine the tree. -/
theorem buildMergesTheTwoLeast : Obligations.BuildMergesTheTwoLeast := by
  refine ⟨fun s t tr q h hn he ht hq => ?built, fun _ _ _ _ _ _ _ hm hm' => ?unique,
    fun _ _ => keyBefore_weight_le⟩
  case built =>
    obtain ⟨u, hu, hm, -⟩ := huffman_spec s.hist
    cases hu.symm.trans (huffman_of_exec_build h hn he ht)
    have hp := startsAs_perm (startsAs_initialQ s.hist) hq
    rw [← hp.length_eq]
    exact merges_perm hp hm
  case unique => exact merges_unique hm (List.Perm.refl _) hm'

/-- Settles O30: BUILD tests the total, which is the root's weight and so the greatest. -/
theorem buildChecksTheTotalWeight : Obligations.BuildChecksTheTotalWeight := by
  refine fun s w h hn hw => ⟨fun hgt => ?overflows, fun hle => ?fits⟩
  case overflows => exact exec_build_overflows h hn ((weightOverflows_iff hw _).2 hgt)
  case fits =>
    obtain ⟨t, ht, -, -, hroot, hadd⟩ := huffman_spec s.hist
    have ho : weightOverflows s.cfg (totalWeight s.hist) = false :=
      Bool.eq_false_iff.2 fun ho => Nat.not_lt.2 hle ((weightOverflows_iff hw _).1 ho)
    exact ⟨t, exec_build_fits h hn ho ht, fun u hu => (subtree_weight_le hadd u hu).trans (hroot.trans_le hle)⟩

/-- Settles O33: the starting leaves depend on the counters alone, and they determine the tree. -/
theorem buildIsDeterminedByTheCounts : Obligations.BuildIsDeterminedByTheCounts := by
  intro s s' t t' tr tr' h h' hn hn' hc he he' ht ht'
  have htr := huffman_of_exec_build h hn he ht
  rw [huffman_congr hc, huffman_of_exec_build h' hn' he' ht', Option.some.injEq] at htr
  subst htr
  exact ⟨rfl, rfl, rfl⟩

/-! ### One distinct input symbol (R125) -/

/-- One byte value `x` counted `c` times: Q starts with its leaf and the sentinel's. -/
theorem startsAs_one_symbol {h : List (Nat × Nat)} {x : Sym} {c : Nat} (hx : x.val < 256) (hc : 1 ≤ c)
    (hh : ∀ b, b < 256 → histRead h b = if b = x.val then c else 0) :
    StartsAs h [leafEntry x c, leafEntry 256 1] := by
  have hread : histRead h x.val = c := by rw [hh _ hx, if_pos rfl]
  refine ⟨?nodup, fun e => ?mem⟩
  case nodup =>
    rw [List.nodup_cons, List.mem_singleton]
    exact ⟨fun he => Nat.ne_of_lt hx (congrArg Entry.order he), List.nodup_singleton _⟩
  case mem =>
    rw [List.mem_cons, List.mem_singleton, or_comm]
    refine or_congr Iff.rfl ⟨fun he => ⟨x, hx, hread ▸ hc, hread.symm ▸ he⟩, ?_⟩
    rintro ⟨y, hy, hcy, rfl⟩
    have hyx : y = x := by
      by_contra hne
      rw [hh _ hy, if_neg fun hv => hne (Fin.ext hv)] at hcy
      cases hcy
    rw [hyx, hread]
    rfl

/-- The total weight is that of the starting leaves, in any order. -/
theorem totalWeight_of_startsAs {h : List (Nat × Nat)} {q : List Entry} (hq : StartsAs h q) :
    totalWeight h = (q.map fun e => treeWeight e.tree).sum := by
  rw [← initialQ_weight]
  exact ((startsAs_perm (startsAs_initialQ h) hq).map _).sum_eq

/-- Two entries are merged in one step, the one with the lesser key first. -/
theorem merges_pair {seq : Nat} {a b : Entry} (hab : KeyBefore a b) :
    Merges seq [a, b] (.node a.tree b.tree (treeWeight a.tree + treeWeight b.tree)) (seq + 1) :=
  .merge seq _ a b [] _ _ (List.Perm.refl _) (by simpa using hab) (by simp)
    (.root (seq + 1) (mergeEntry seq a b))

/-- Settles O31: Q starts with two leaves; at equal weights the byte's symbol is the lesser, else the
sentinel's weight is. -/
theorem oneSymbolGivesTwoLeaves : Obligations.OneSymbolGivesTwoLeaves := by
  intro s x c h hn hx hc hfits hh
  have hq := startsAs_one_symbol hx hc hh
  have ho : weightOverflows s.cfg (totalWeight s.hist) = false := by
    rw [totalWeight_of_startsAs hq]
    exact hfits
  have hne : x.val ≠ 256 := Nat.ne_of_lt hx
  rcases hc.eq_or_lt with rfl | hlt
  · have hm := merges_pair (seq := 0) (a := leafEntry x 1) (b := leafEntry 256 1) (.inr ⟨rfl, .inr ⟨rfl, hx⟩⟩)
    refine ⟨_, exec_build_fits h hn ho (huffman_eq_of_merges hq hm), fun _ => ⟨rfl, ?_⟩,
      fun hlt => absurd hlt (Nat.lt_irrefl 1)⟩
    simp [codeRead_codeTable, leafEntry, pathTo, hne]
  · have hm := merges_perm (List.Perm.swap _ _ _)
      (merges_pair (seq := 0) (a := leafEntry 256 1) (b := leafEntry x c) (.inl hlt))
    refine ⟨_, exec_build_fits h hn ho (huffman_eq_of_merges hq hm), fun h1 => absurd h1 (Nat.ne_of_gt hlt),
      fun _ => ⟨?_, ?_⟩⟩
    · simp [leafEntry, treeWeight, Nat.add_comm]
    · simp [codeRead_codeTable, leafEntry, pathTo, hne.symm]

end Sys2Proof.Machine
end

section
/-!
PROOFS. The tree BUILD makes minimizes the weighted sum of leaf depths (42_tree_build R127). A tree is compared
by the weights and depths of its leaves: their depths satisfy Kraft's inequality, and a merge step of the two
least weights loses nothing against any depths that do.
-/

namespace Sys2Proof.Machine

open Sys2Proof.Claims

/-! ### Weights with depths -/

/-- The weight and the depth of every leaf, for a tree whose root has depth `d`. -/
def leafDepths : Nat → Tree → List (Nat × Nat)
  | d, .leaf _ w => [(w, d)]
  | d, .node a b _ => leafDepths (d + 1) a ++ leafDepths (d + 1) b

/-- The weighted sum of depths. -/
def weightedDepth (l : List (Nat × Nat)) : Nat := (l.map fun e => e.1 * e.2).sum

/-- The sum of 2^(-depth) (42_tree_build R134). -/
def kraftSum (ds : List Nat) : ℚ := (ds.map fun d => (1 / 2) ^ d).sum

@[simp] theorem weightedDepth_cons (w d : Nat) (l : List (Nat × Nat)) :
    weightedDepth ((w, d) :: l) = w * d + weightedDepth l := rfl

theorem weightedDepth_perm {l l' : List (Nat × Nat)} (hp : l.Perm l') : weightedDepth l = weightedDepth l' :=
  (hp.map _).sum_eq

@[simp] theorem kraftSum_cons (d : Nat) (ds : List Nat) : kraftSum (d :: ds) = (1 / 2) ^ d + kraftSum ds := rfl

theorem kraftSum_perm {ds ds' : List Nat} (hp : ds.Perm ds') : kraftSum ds = kraftSum ds' :=
  (hp.map _).sum_eq

theorem depthCost_eq (d : Nat) (t : Tree) : depthCost d t = weightedDepth (leafDepths d t) := by
  induction t generalizing d with
  | leaf x w => rfl
  | node a b w iha ihb => simp [depthCost, leafDepths, weightedDepth, iha, ihb]

theorem leafDepths_weights (d : Nat) (t : Tree) : (leafDepths d t).map Prod.fst = (leaves t).map Prod.snd := by
  induction t generalizing d with
  | leaf x w => rfl
  | node a b w iha ihb => simp [leaves, leafDepths, iha, ihb]

/-- Kraft's equality for the leaves below a node of depth `d`. -/
theorem kraftSum_leafDepths (d : Nat) (t : Tree) : kraftSum ((leafDepths d t).map Prod.snd) = (1 / 2) ^ d := by
  induction t generalizing d with
  | leaf x w => simp [leafDepths, kraftSum]
  | node a b w iha ihb =>
    have hsplit : kraftSum ((leafDepths d (.node a b w)).map Prod.snd) =
        kraftSum ((leafDepths (d + 1) a).map Prod.snd) + kraftSum ((leafDepths (d + 1) b).map Prod.snd) := by
      simp [leafDepths, kraftSum]
    rw [hsplit, iha, ihb]
    ring

/-- Where internal nodes weigh what their children do, every leaf pays once for each node above it. -/
theorem depthCost_eq_internalWeight {t : Tree} (h : weightsAdd t) (d : Nat) :
    depthCost d t = d * treeWeight t + internalWeight t := by
  induction t generalizing d with
  | leaf x w => exact Nat.mul_comm w d
  | node a b w iha ihb =>
    obtain ⟨hw, ha, hb⟩ := h
    simp only [depthCost, internalWeight, iha ha, ihb hb, treeWeight, hw]
    ring

/-! ### The least weight at the greatest depth -/

/-- Exchanging depths pair by pair gives the least weight `a` the greatest depth, at no cost. -/
theorem exists_sunk (a d : Nat) {l : List (Nat × Nat)} (ha : ∀ e ∈ l, a ≤ e.1) :
    ∃ D l', l'.map Prod.fst = l.map Prod.fst ∧ (D :: l'.map Prod.snd).Perm (d :: l.map Prod.snd) ∧
      (∀ x ∈ l'.map Prod.snd, x ≤ D) ∧ a * D + weightedDepth l' ≤ a * d + weightedDepth l := by
  induction l with
  | nil => exact ⟨d, [], rfl, List.Perm.refl _, by simp, Nat.le_refl _⟩
  | cons e l ih =>
    obtain ⟨w, c⟩ := e
    obtain ⟨haw, hal⟩ := List.forall_mem_cons.1 ha
    obtain ⟨D, l', hw, hp, hmax, hcost⟩ := ih hal
    have hp' : (D :: c :: l'.map Prod.snd).Perm (d :: c :: l.map Prod.snd) :=
      (List.Perm.swap _ _ _).trans ((hp.cons c).trans (List.Perm.swap _ _ _))
    rcases Nat.le_total c D with hle | hle
    · refine ⟨D, (w, c) :: l', by simp [hw], hp', List.forall_mem_cons.2 ⟨hle, hmax⟩, ?_⟩
      simp only [weightedDepth_cons]
      omega
    · refine ⟨c, (w, D) :: l', by simp [hw], (List.Perm.swap _ _ _).trans hp',
        List.forall_mem_cons.2 ⟨hle, fun x hx => (hmax x hx).trans hle⟩, ?_⟩
      have hswap : a * c + w * D ≤ a * D + w * c := mul_add_mul_le_mul_add_mul haw hle
      simp only [weightedDepth_cons]
      omega

/-- The same where the weights are known up to order only. -/
theorem exists_least_deepest {l : List (Nat × Nat)} {a : Nat} {ws : List Nat}
    (hw : (l.map Prod.fst).Perm (a :: ws)) (ha : ∀ w ∈ ws, a ≤ w) :
    ∃ D l', (l'.map Prod.fst).Perm ws ∧ (D :: l'.map Prod.snd).Perm (l.map Prod.snd) ∧
      (∀ x ∈ l'.map Prod.snd, x ≤ D) ∧ a * D + weightedDepth l' ≤ weightedDepth l := by
  obtain ⟨⟨_, d⟩, he, rfl⟩ := List.mem_map.1 (hw.mem_iff.2 List.mem_cons_self)
  have hl := List.perm_cons_erase he
  have hws := ((hl.map Prod.fst).symm.trans hw).cons_inv
  obtain ⟨D, l', hw', hp, hmax, hcost⟩ := exists_sunk _ d fun e he' =>
    ha e.1 (hws.mem_iff.1 (List.mem_map_of_mem he'))
  refine ⟨D, l', hw' ▸ hws, hp.trans (hl.map Prod.snd).symm, hmax, hcost.trans_eq ?_⟩
  rw [weightedDepth_perm hl, weightedDepth_cons]

/-! ### The two least as siblings -/

/-- Depths up to `m` have a Kraft sum with denominator 2^m. -/
theorem kraftSum_eq_div {m : Nat} {ds : List Nat} (h : ∀ d ∈ ds, d ≤ m) :
    kraftSum ds = ((ds.map fun d => 2 ^ (m - d)).sum : Nat) / 2 ^ m := by
  induction ds with
  | nil => simp [kraftSum]
  | cons d ds ih =>
    obtain ⟨hd, hds⟩ := List.forall_mem_cons.1 h
    have hpow : (2 : ℚ) ^ m = 2 ^ (m - d) * 2 ^ d := by rw [← pow_add, Nat.sub_add_cancel hd]
    rw [kraftSum_cons, ih hds, List.map_cons, List.sum_cons, Nat.cast_add, add_div, Nat.cast_pow,
      Nat.cast_ofNat, hpow, one_div_pow]
    field_simp

/-- Kraft's inequality allows two siblings at the second greatest depth `m`: all terms but the one of the
greatest depth are multiples of 2^(-m), so their sum is 1 only if nothing is left for it. -/
theorem kraftSum_siblings {m D : Nat} {ds : List Nat} (hmax : ∀ d ∈ ds, d ≤ m)
    (h : kraftSum (D :: m :: ds) ≤ 1) : ∃ f, m = f + 1 ∧ kraftSum (f :: ds) ≤ 1 := by
  have hds := kraftSum_eq_div hmax
  generalize (ds.map fun d => 2 ^ (m - d)).sum = k at hds
  have hlt : k + 1 < 2 ^ m := by
    have hpos : (0 : ℚ) < (1 / 2) ^ D := by positivity
    have hdiv : ((k + 1 : Nat) : ℚ) / 2 ^ m < 1 := by
      rw [kraftSum_cons, kraftSum_cons, hds, one_div_pow 2 m] at h
      rw [Nat.cast_succ, add_div]
      linarith
    rw [div_lt_one (by positivity)] at hdiv
    exact_mod_cast hdiv
  obtain ⟨f, rfl⟩ : ∃ f, m = f + 1 := Nat.exists_eq_succ_of_ne_zero fun h0 => by simp [h0] at hlt
  have hle : ((k + 2 : Nat) : ℚ) ≤ 2 ^ (f + 1) := by exact_mod_cast hlt
  refine ⟨f, rfl, ?_⟩
  calc kraftSum (f :: ds) = ((k + 2 : Nat) : ℚ) / 2 ^ (f + 1) := by
        rw [kraftSum_cons, hds, one_div_pow, Nat.cast_add, pow_succ]
        push_cast
        field_simp
        ring
    _ ≤ 1 := div_le_one_of_le₀ hle (by positivity)

/-- A merge step on weights with depths: with `a` and `b` the two least weights, `a + b` in place of both saves
at least `a + b`. -/
theorem exists_merged {l : List (Nat × Nat)} {a b : Nat} {ws : List Nat}
    (hw : (l.map Prod.fst).Perm (a :: b :: ws)) (hk : kraftSum (l.map Prod.snd) ≤ 1)
    (ha : ∀ w ∈ b :: ws, a ≤ w) (hb : ∀ w ∈ ws, b ≤ w) :
    ∃ l', (l'.map Prod.fst).Perm ((a + b) :: ws) ∧ kraftSum (l'.map Prod.snd) ≤ 1 ∧
      a + b + weightedDepth l' ≤ weightedDepth l := by
  obtain ⟨D, l₁, hw₁, hp₁, hmax₁, hcost₁⟩ := exists_least_deepest hw ha
  obtain ⟨m, l₂, hw₂, hp₂, hmax₂, hcost₂⟩ := exists_least_deepest hw₁ hb
  have hmD : m ≤ D := hmax₁ m (hp₂.mem_iff.1 List.mem_cons_self)
  rw [← kraftSum_perm hp₁, ← kraftSum_perm (hp₂.cons D)] at hk
  obtain ⟨f, rfl, hk'⟩ := kraftSum_siblings hmax₂ hk
  refine ⟨(a + b, f) :: l₂, hw₂.cons _, hk', ?_⟩
  have haD : a * (f + 1) ≤ a * D := Nat.mul_le_mul_left a hmD
  calc a + b + weightedDepth ((a + b, f) :: l₂) = a * (f + 1) + (b * (f + 1) + weightedDepth l₂) := by
        rw [weightedDepth_cons]
        ring
    _ ≤ weightedDepth l := by omega

/-! ### Optimality -/

/-- The internal nodes that the merge steps make weigh at most what the weights of Q cost at any depths that
satisfy Kraft's inequality. -/
theorem merges_internalWeight_le {seq n : Nat} {q : List Entry} {t : Tree} (h : Merges seq q t n)
    {l : List (Nat × Nat)} (hw : (l.map Prod.fst).Perm (q.map fun e => treeWeight e.tree))
    (hk : kraftSum (l.map Prod.snd) ≤ 1) :
    internalWeight t ≤ (q.map fun e => internalWeight e.tree).sum + weightedDepth l := by
  induction h generalizing l with
  | root seq e => simp
  | merge seq q a b rest t n hq ha hb _ ih =>
    have hle {x : Entry} {r : List Entry} (hx : ∀ y ∈ r, KeyBefore x y) :
        ∀ w ∈ r.map fun e => treeWeight e.tree, treeWeight x.tree ≤ w :=
      List.forall_mem_map.2 fun y hy => keyBefore_weight_le (hx y hy)
    have hwab : (l.map Prod.fst).Perm
        (treeWeight a.tree :: treeWeight b.tree :: rest.map fun e => treeWeight e.tree) := hw.trans (hq.map _)
    obtain ⟨l', hw', hk', hcost⟩ := exists_merged hwab hk (hle ha) (hle hb)
    have hmerged := ih hw' hk'
    rw [(hq.map fun e => internalWeight e.tree).sum_eq]
    simp only [List.map_cons, List.sum_cons, internalWeight] at hmerged ⊢
    omega

/-- The starting leaves have no internal nodes. -/
theorem initialQ_internalWeight (h : List (Nat × Nat)) :
    ((initialQ h).map fun e => internalWeight e.tree).sum = 0 := by
  refine List.sum_eq_zero (List.forall_mem_map.2 fun e he => ?_)
  rcases (mem_initialQ h e).1 he with rfl | ⟨x, -, -, rfl⟩ <;> rfl

/-- The weights of the starting leaves are those of Q's entries. -/
theorem initialQ_leaf_weights (h : List (Nat × Nat)) :
    ((initialQ h).flatMap fun e => leaves e.tree).map Prod.snd =
      (initialQ h).map fun e => treeWeight e.tree := by
  rw [initialQ_leaves, List.map_map]
  rfl

/-- Settles O32: the cost of the built tree is the weight of its internal nodes, which is at most the cost of
any depths of its leaves that satisfy Kraft's inequality, as those of a tree do. -/
theorem builtTreeIsOptimal : Obligations.BuiltTreeIsOptimal := by
  intro s t tr h hn he ht
  obtain ⟨tr', htr, hm, hleaves, -, hadd⟩ := huffman_spec s.hist
  cases htr.symm.trans (huffman_of_exec_build h hn he ht)
  have hcost : depthCost 0 tr = internalWeight tr := by
    rw [depthCost_eq_internalWeight hadd, Nat.zero_mul, Nat.zero_add]
  refine ⟨fun u hu => ?minimal, hcost⟩
  have hw : ((leafDepths 0 u).map Prod.fst).Perm ((initialQ s.hist).map fun e => treeWeight e.tree) := by
    rw [leafDepths_weights, ← initialQ_leaf_weights]
    exact (hu.trans hleaves).map Prod.snd
  have hk : kraftSum ((leafDepths 0 u).map Prod.snd) ≤ 1 := by rw [kraftSum_leafDepths, pow_zero]
  have hle := merges_internalWeight_le hm hw hk
  rwa [initialQ_internalWeight, Nat.zero_add, ← depthCost_eq, ← hcost] at hle

end Sys2Proof.Machine
end

section
/-!
PROOFS. MKTAB and the codes it makes: paths to leaves, none the beginning of another (42_tree_build R128, R131,
R132).
-/

namespace Sys2Proof.Machine

/-! ### MKTAB (R131) -/

theorem exec_mktab {s : State} (h : idle s) {tr : Tree} (ht : s.tree = some tr) :
    exec .mktab s = .next { s with code := codeTable tr, cValid := true } := by
  rw [exec, execMktab, command_runs h (by rw [tValid, ht]; rfl), ht, finish_ok]

theorem exec_mktab_refused {s : State} (h : idle s) (hn : s.tree = none) :
    exec .mktab s = .next { s with err := some .illegalCommand } := by
  rw [exec, execMktab, command_refuses h (by rw [tValid, hn]; rfl)]

/-- Settles O34: an entry of the code table is the path to the symbol's one leaf. -/
theorem mktabRecordsThePaths : Obligations.MktabRecordsThePaths := by
  refine ⟨rfl, fun s h => ⟨exec_mktab_refused h, fun tr ht hnodup => ?_⟩⟩
  refine ⟨codeTable tr, exec_mktab h ht, fun x p => ?_⟩
  rw [codeRead_codeTable, pathTo_eq_some_iff hnodup]

/-! ### Prefixes (R128) -/

/-- Nothing stands below a leaf. -/
theorem follow_leaf_eq_some {x : Sym} {v : Nat} {q : List Bool} {u : Tree}
    (h : follow (.leaf x v) q = some u) : q = [] ∧ u = .leaf x v := by
  cases q with
  | nil =>
    rw [follow_nil, Option.some.injEq] at h
    exact ⟨rfl, h.symm⟩
  | cons c q => cases h

/-- A path on from a leaf's path leads to a leaf only where it is that path. -/
theorem follow_leaf_append {t : Tree} {p q : List Bool} {x y : Sym} {v w : Nat}
    (hp : follow t p = some (.leaf x v)) (hpq : follow t (p ++ q) = some (.leaf y w)) : q = [] ∧ x = y := by
  rw [follow_append, hp, Option.bind_some] at hpq
  obtain ⟨hq, hleaf⟩ := follow_leaf_eq_some hpq
  cases hleaf
  exact ⟨hq, rfl⟩

/-- Settles O35: a leaf has no descendants, and codes are paths to leaves. -/
theorem codesArePrefixFree : Obligations.CodesArePrefixFree := by
  refine ⟨fun _ _ _ _ _ _ _ => follow_leaf_append, fun t x y p q _ hne hx hy hpre => ?codes⟩
  case codes =>
    rw [codeRead_codeTable] at hx hy
    obtain ⟨x', v, rfl, hp⟩ := follow_pathTo hx
    obtain ⟨y', w, rfl, hq⟩ := follow_pathTo hy
    obtain ⟨r, rfl⟩ := hpre
    exact hne (congrArg Fin.val (follow_leaf_append hp hq).2)

end Sys2Proof.Machine
end

section
/-!
PROOFS. WRHDR and RDHDR: the header written is the serialized form of TREE, and the header read is that of the
tree RDHDR stores (43_header R140, R143, R145, R146).
-/

namespace Sys2Proof.Machine

/-! ### WRHDR (R140) -/

/-- WRHDR writes Ser(TREE) as a bit sequence. -/
theorem exec_wrhdr {s : State} (h : idle s) {tr : Tree} (ht : s.tree = some tr) (ho : s.wOpen = true) :
    exec .wrhdr s = finish (writeAll (treeBits tr) s) := by
  rw [exec, execWrhdr, command_runs h (by rw [tValid, ht, ho]; rfl), ht]
  exact congrArg finish (writeTree_eq tr s)

theorem exec_wrhdr_refused {s : State} (h : idle s) (hr : s.tree = none ∨ s.wOpen = false) :
    exec .wrhdr s = .next { s with err := some .illegalCommand } := by
  have hready : (tValid s && s.wOpen) = false :=
    Bool.and_eq_false_iff.2 (hr.imp_left fun hn => by rw [tValid, hn]; rfl)
  rw [exec, execWrhdr, command_refuses h hready]

/-- A command that writes the bits `l` only adds to OUT, and OUT then begins what was to be written. -/
theorem writeCommand_out {s t : State} {i : Instr} {l : List Bool} (hw : wbufOk s)
    (hi : exec i s = finish (writeAll l s)) (he : exec i s = .next t) :
    s.out <+: t.out ∧ bytesBits t.out <+: outBits s ++ l := by
  rcases finish_next (hi.symm.trans he) with e | ⟨k, u, e, rfl⟩
  · exact writeAll_out l hw (.inl e)
  · exact writeAll_out (t := u) l hw (.inr ⟨k, e⟩)

/-- Settles O37: WRHDR writes the tree's serialized form as a bit sequence, so each clause is what such a command
does on that environment. -/
theorem wrhdrAppendsTheHeader : Obligations.WrhdrAppendsTheHeader := by
  refine ⟨rfl, fun s h => ⟨exec_wrhdr_refused h, fun tr ht ho hok => ?_⟩⟩
  have hw := wbufOk_of_idle h hok
  have hi := exec_wrhdr h ht ho
  refine ⟨writeCommand_neverFail h hw hi, ?anyEnv, writeCommand_stopsAtThePut h hw hi⟩
  obtain ⟨t, e, hframe, hend⟩ := writeCommand_frame h hw hi
  obtain ⟨hkept, hbegin⟩ := writeCommand_out hw hi e
  exact ⟨t, e, hframe, hkept, hend.imp_right fun ⟨hio, _⟩ => ⟨hio, hbegin⟩⟩

/-! ### RDHDR (R142) -/

/-- Everything RDHDR can do where its precondition holds: the tree whose serialized form stands at IN_POS is
stored; or MalformedHeader, where no tree's does; or IoFailure at a fetch that fails. -/
theorem exec_rdhdr_cases {s : State} (h : idle s) (hn : s.tree = none) (hd : s.dstate = .readingTree) :
    (∃ T rest d, inRest s = treeBits T ++ rest ∧ treeOk T = true ∧ unweighted T = T ∧
      exec .rdhdr s = .next { s with
        inPos := s.inPos + (treeBits T).length, tree := some T, cur := T,
        dstate := .walking, fetchFails := s.fetchFails.drop d }) ∨
    (∃ k d, (¬ ∃ T rest, treeOk T = true ∧ inRest s = treeBits T ++ rest) ∧
      exec .rdhdr s = .next { s with
        inPos := s.inPos + k, fetchFails := s.fetchFails.drop d, err := some .malformedHeader }) ∨
    (∃ k d, s.fetchFails[d]? = some true ∧
      exec .rdhdr s = .next { s with
        inPos := s.inPos + k, fetchFails := s.fetchFails.drop (d + 1), err := some .ioFailure }) := by
  have hi : exec .rdhdr s = finish (readHeader (bitsLeft s + 1) ⟨[], []⟩ s) :=
    command_runs h (by rw [tValid, hn, hd]; rfl) _
  have hh : hdrOk ⟨[], []⟩ := ⟨List.nodup_nil, List.Perm.refl _⟩
  rw [hi]
  rcases readHeader_cases hh (Nat.lt_succ_self (bitsLeft s)) with
    ⟨T, used, rest, d, hr, hbits, hok, hu, e⟩ | ⟨k, d, -, hno, e⟩ | ⟨k, d, -, hfail, e⟩ <;> rw [e]
  · obtain rfl : treeBits T = used := hbits
    exact .inl ⟨T, rest, d, hr, hok, hu trivial, rfl⟩
  · exact .inr (.inl ⟨k, d, hno, finish_raised_of_hdr h.1⟩)
  · exact .inr (.inr ⟨k, d, hfail, finish_raised_of_hdr h.1⟩)

/-- RDHDR that leaves no error found TREE empty and the decoder in Reading-Tree (46_control R190). -/
theorem rdhdr_ready {s t : State} (h : idle s) (he : exec .rdhdr s = .next t) (ht : t.err = none) :
    s.tree = none ∧ s.dstate = .readingTree := by
  by_contra hc
  have hr : (!tValid s && decide (s.dstate = .readingTree)) = false := by
    rw [Bool.eq_false_iff]
    simpa [tValid] using hc
  cases he.symm.trans (command_refuses h hr _)
  cases ht

/-- The bits consumed, then the bits left. -/
theorem inRest_eq_append_consumed {s t : State} {l rest : List Bool} (hr : inRest s = l ++ rest)
    (hin : t.input = s.input) (hp : t.inPos = s.inPos + l.length) : inRest s = l ++ inRest t := by
  have hdrop : inRest t = (inRest s).drop l.length := by
    rw [inRest, inRest, List.drop_drop, inBits, inBits, hin, hp]
  rw [hdrop, hr, List.drop_left]

/-- Settles O40: of the ends of RDHDR only the one that stores a tree leaves no error. -/
theorem rdhdrConsumesExactlyItsTree : Obligations.RdhdrConsumesExactlyItsTree := by
  intro s t h he ht
  obtain ⟨hn, hd⟩ := rdhdr_ready h he ht
  rcases exec_rdhdr_cases h hn hd with ⟨T, rest, d, hr, hok, hu, e⟩ | ⟨k, d, -, e⟩ | ⟨k, d, -, e⟩ <;>
    cases he.symm.trans e
  · exact ⟨T, rfl, hu, hok, inRest_eq_append_consumed hr rfl rfl, rfl⟩
  · cases ht
  · cases ht

/-! ### Reading back (R146) -/

/-- BUILD's tree carries each symbol once, and the sentinel is among them. -/
theorem treeOk_of_huffman {hist : List (Nat × Nat)} {tr : Tree} (ht : huffman hist = some tr) :
    treeOk tr = true := by
  obtain ⟨u, hu, -, hleaves, -, -⟩ := huffman_spec hist
  cases hu.symm.trans ht
  refine (treeOk_iff tr).2 ⟨(hleaves.map Prod.fst).nodup_iff.2 (initialQ_leaves_nodup hist), ?lone⟩
  case lone =>
    have hsent : ((256 : Sym), 1) ∈ leaves tr :=
      hleaves.mem_iff.2 ((mem_initialQ_leaves hist 256 1).2 (.inl ⟨rfl, rfl⟩))
    cases tr with
    | leaf x w =>
      obtain ⟨rfl, -⟩ := Prod.mk.inj (List.mem_singleton.1 hsent)
      rfl
    | node a b w => rfl

/-- Where the serialized form of a tree stands and no fetch fails, RDHDR stores that tree with every weight 0. -/
theorem exec_rdhdr_reads {s : State} (h : idle s) (hn : s.tree = none) (hd : s.dstate = .readingTree)
    (hf : fetchesNeverFail s) {tr : Tree} {rest : List Bool} (hok : treeOk tr = true)
    (hr : inRest s = treeBits tr ++ rest) :
    ∃ d, exec .rdhdr s = .next { s with
      inPos := s.inPos + (treeBits tr).length, tree := some (unweighted tr), cur := unweighted tr,
      dstate := .walking, fetchFails := s.fetchFails.drop d } := by
  rcases exec_rdhdr_cases h hn hd with ⟨T, rest', d, hr', -, hu, e⟩ | ⟨k, d, hno, -⟩ | ⟨k, d, hfail, -⟩
  · have hsame : T = unweighted tr := hu.symm.trans (treeBits_append_inj (hr'.symm.trans hr)).1
    subst hsame
    exact ⟨d, by rw [e, treeBits_unweighted]⟩
  · exact absurd ⟨tr, rest, hok, hr⟩ hno
  · exact absurd hfail (no_draw hf)

/-- Settles O39: BUILD's trees have distinct symbols, and no other tree than the one read starts with its bits. -/
theorem headerReadBackIsTheTree : Obligations.HeaderReadBackIsTheTree :=
  ⟨fun _ _ _ h hn he ht => treeOk_of_huffman (huffman_of_exec_build h hn he ht),
    fun _ tr _ h hn hd hf hok hr => ⟨codeTable_unweighted tr, exec_rdhdr_reads h hn hd hf hok hr⟩⟩

end Sys2Proof.Machine
end

section
/-!
PROOFS. ENCODE where a byte, or the sentinel, has no code (44_encode R161, R162).
-/

namespace Sys2Proof.Machine

/-- Codes one after the other are there only if every symbol has one (30_encoding R70). -/
theorem codesOf_append_cons_ne_some {c : List (Nat × List Bool)} {x : Nat} (hx : codeRead c x = none)
    {l m : List Nat} {p : List Bool} : codesOf c (l ++ x :: m) ≠ some p := by
  intro hp
  obtain ⟨_, _, -, hm, -⟩ := codesOf_append_some.1 hp
  obtain ⟨_, _, hq, -⟩ := codesOf_cons_some.1 hm
  rw [hx] at hq
  cases hq

section
variable {s : State} (hw : wbufOk s) (hf : fetchesNeverFail s) (hp : putsNeverFail s)
include hw hf hp

/-- Where no fetch and no put fails, ENCODE's loop stops at the first byte that has no code (R161). -/
theorem encodeLoop_uncodedByte {l l' : List Nat} {x : Nat} {p : List Bool}
    (hg : byteGroups (inRest s) = l ++ x :: l') (hl : codesOf s.code l = some p)
    (hx : codeRead s.code x = none) :
    ∃ t, encodeLoop (bitsLeft s + 1) s = .raised .unencodableSymbol t ∧ OnlyStreams s t ∧
      outBits t = outBits s ++ p ∧ t.inPos = s.inPos + 8 * (l.length + 1) := by
  rcases encodeLoop_cases hw (Nat.lt_succ_self _) with ⟨t, q, -, hq, -⟩ |
    ⟨t, m, y, m', q, e, hm, hcm, hy, ho, -, hb, hi, -⟩ | ⟨t, q, -, hq, -⟩ | ⟨t, -, -, -, ⟨_, hd⟩ | ⟨_, hd⟩⟩
  · rw [payload, hg, List.append_assoc, List.cons_append] at hq
    exact absurd hq (codesOf_append_cons_ne_some hx)
  · obtain ⟨rfl, -⟩ := codesOf_first (hg.symm.trans hm) hl hx hcm hy
    cases hl.symm.trans hcm
    exact ⟨t, e, ho, hb, hi⟩
  · rw [hg] at hq
    exact absurd hq (codesOf_append_cons_ne_some hx)
  · exact absurd hd (no_draw hf)
  · exact absurd hd (no_draw hp)

/-- Where no fetch and no put fails and every byte has a code, ENCODE's loop stops at the sentinel that has
none (R162). -/
theorem encodeLoop_uncodedSentinel {p : List Bool} (hg : codesOf s.code (byteGroups (inRest s)) = some p)
    (hx : codeRead s.code sentinel.val = none) :
    ∃ t, encodeLoop (bitsLeft s + 1) s = .raised .unencodableSymbol t ∧ OnlyStreams s t ∧
      outBits t = outBits s ++ p ∧ t.inPos = s.inPos + bitsLeft s := by
  rcases encodeLoop_cases hw (Nat.lt_succ_self _) with ⟨t, q, -, hq, -⟩ |
    ⟨t, m, y, m', q, -, hm, -, hy, -⟩ | ⟨t, q, e, hq, -, ho, -, hb, hi⟩ | ⟨t, -, -, -, ⟨_, hd⟩ | ⟨_, hd⟩⟩
  · exact absurd hq (codesOf_append_cons_ne_some hx)
  · rw [hm] at hg
    exact absurd hg (codesOf_append_cons_ne_some hy)
  · cases hg.symm.trans hq
    exact ⟨t, e, ho, hb, hi⟩
  · exact absurd hd (no_draw hf)
  · exact absurd hd (no_draw hp)

end

/-- ENCODE runs its loop where its precondition holds (46_control R190). -/
theorem exec_encode {s : State} (h : idle s) (hc : s.cValid = true) (ho : s.wOpen = true) :
    exec .encode s = finish (encodeLoop (bitsLeft s + 1) s) :=
  command_runs h (by rw [hc, ho]; rfl) _

/-- ENCODE whose loop raises an error sets ERR and keeps what the loop did to the streams (60_exceptions R207). -/
theorem exec_encode_raised {s t : State} {k : ErrKind} (h : idle s) (hc : s.cValid = true)
    (ho : s.wOpen = true) (e : encodeLoop (bitsLeft s + 1) s = .raised k t) :
    exec .encode s = .next { t with err := some k } := by
  have hh : t.hdr = none := by rw [encodeLoop_onlyStreams (.inr ⟨k, e⟩)]; exact h.1
  rw [exec_encode h hc ho, e, finish_raised_of_hdr hh]

/-- Settles O46: ENCODE's loop stops at the first byte, or else at the sentinel, that has no code. -/
theorem missingCodesAreUnencodable : Obligations.MissingCodesAreUnencodable := by
  intro s h hc ho hok hr hf hp
  have hw := wbufOk_of_idle h hok
  refine ⟨fun l l' x p hg hl hx => ?byte, fun p hg hx => ?sentinel⟩
  case byte =>
    obtain ⟨t, e, hst, hb, hi⟩ := encodeLoop_uncodedByte hw hf hp hg hl hx
    exact ⟨_, exec_encode_raised h hc ho e, rfl, hb, hi, by rw [hst]⟩
  case sentinel =>
    obtain ⟨t, e, hst, hb, hi⟩ := encodeLoop_uncodedSentinel hw hf hp hg hx
    have hend : s.inPos + bitsLeft s = 8 * s.input.length := Nat.add_sub_of_le hr
    exact ⟨_, exec_encode_raised h hc ho e, rfl, hb, hi.trans hend, by rw [hst]⟩

end Sys2Proof.Machine
end

section
/-!
PROOFS. DECODE: the bytes of a payload, the end of IN at an internal node, and what two runs with one tree say
about the bits they consumed (45_decode R172 to R174, R177).
-/

namespace Sys2Proof.Machine

/-! ### Bytes as symbols (30_encoding R67, 45_decode R176) -/

/-- The symbols of a byte sequence. -/
def byteSyms (l : List Byte) : List Sym := l.map fun b => byteSym b.toNat

theorem byteSym_toNat_val (b : Byte) : (byteSym b.toNat).val = b.toNat := byteSym_val b.isLt

@[simp] theorem byteSyms_map_val (l : List Byte) : (byteSyms l).map Fin.val = l.map BitVec.toNat := by
  simp [byteSyms, Function.comp_def, byteSym_toNat_val]

theorem ne_sentinel_of_mem_byteSyms {l : List Byte} {x : Sym} (hx : x ∈ byteSyms l) : x ≠ sentinel := by
  obtain ⟨b, -, rfl⟩ := List.mem_map.1 hx
  refine Fin.ne_of_val_ne ?_
  rw [byteSym_toNat_val]
  exact Nat.ne_of_lt b.isLt

/-- The bits DECODE writes for the symbols of bytes are the bits of these bytes. -/
@[simp] theorem symBits_byteSyms (l : List Byte) : symBits (byteSyms l) = bytesBits l := by
  simp only [symBits, byteSyms, List.flatMap_map, byteSym_toNat_val]
  rfl

/-- Symbols that are not the sentinel are those of bytes. -/
theorem exists_byteSyms {l : List Sym} (hl : ∀ x ∈ l, x ≠ sentinel) : ∃ bs, l = byteSyms bs := by
  induction l with
  | nil => exact ⟨[], rfl⟩
  | cons x l ih =>
    obtain ⟨hx, hl⟩ := List.forall_mem_cons.1 hl
    obtain ⟨bs, rfl⟩ := ih hl
    have hlt : x.val < 256 := Nat.lt_of_le_of_ne (Nat.le_of_lt_succ x.isLt) (Fin.val_ne_of_ne hx)
    have hbyte : byteSym (BitVec.ofNat 8 x.val).toNat = x :=
      Fin.ext (by rw [byteSym_toNat_val, BitVec.toNat_ofNat, Nat.mod_eq_of_lt hlt])
    exact ⟨BitVec.ofNat 8 x.val :: bs, congrArg (· :: byteSyms bs) hbyte.symm⟩

/-- Output bits tell the symbols that gave them. -/
theorem symBits_inj {l l' : List Sym} (hl : ∀ x ∈ l, x ≠ sentinel) (hl' : ∀ x ∈ l', x ≠ sentinel)
    (h : symBits l = symBits l') : l = l' := by
  obtain ⟨bs, rfl⟩ := exists_byteSyms hl
  obtain ⟨bs', rfl⟩ := exists_byteSyms hl'
  have hbytes : bytesBits bs = bytesBits bs' ++ [] := by simpa using h
  rw [(bytesBits_append_inj (by decide) hbytes).1]

/-! ### Walks to the sentinel's leaf -/

/-- A walk gives only bytes (R173). -/
theorem Walk.ne_sentinel {root u v : Tree} {q : List Bool} {l : List Sym} (h : Walk root u q l v) :
    ∀ x ∈ l, x ≠ sentinel := by
  induction h with
  | stop => simp
  | bit _ _ _ _ _ _ _ _ ih => exact ih
  | leaf x w q l v hx _ ih => exact List.forall_mem_cons.2 ⟨hx, ih⟩

/-- A walk ends at the sentinel's leaf: one with more bits gives nothing more and is that walk (R173). -/
theorem Walk.of_sentinel_append {root u v : Tree} {q r : List Bool} {l m : List Sym} {w : Nat}
    (h : Walk root u q l (.leaf sentinel w)) (h' : Walk root u (q ++ r) m v) (hv : loneByteLeaf v = false) :
    r = [] ∧ m = l ∧ v = .leaf sentinel w := by
  obtain ⟨m', rfl, hrest⟩ := h.split h' hv
  obtain ⟨rfl, rfl, rfl⟩ := hrest.of_sentinel
  exact ⟨rfl, List.append_nil l, rfl⟩

/-- Bits that lead to the sentinel's leaf do not go on to an internal node (R173). -/
theorem Walk.sentinel_append_ne_node {root u a b : Tree} {q r : List Bool} {l m : List Sym} {w v : Nat}
    (h : Walk root u q l (.leaf sentinel w)) : ¬ Walk root u (q ++ r) m (.node a b v) := by
  intro hnode
  obtain ⟨-, -, hleaf⟩ := h.of_sentinel_append hnode rfl
  cases hleaf

/-- The bits of IN allow one walk to the sentinel's leaf. -/
theorem Walk.sentinel_unique {root u : Tree} {q q' rest rest' : List Bool} {l l' : List Sym} {w w' : Nat}
    (h : Walk root u q l (.leaf sentinel w)) (h' : Walk root u q' l' (.leaf sentinel w'))
    (e : q ++ rest = q' ++ rest') : q = q' ∧ l = l' := by
  rcases List.append_eq_append_iff.1 e with ⟨r, rfl, -⟩ | ⟨r, rfl, -⟩
  · obtain ⟨rfl, rfl, -⟩ := h.of_sentinel_append h' rfl
    exact ⟨(List.append_nil q).symm, rfl⟩
  · obtain ⟨rfl, rfl, -⟩ := h'.of_sentinel_append h rfl
    exact ⟨List.append_nil q', rfl⟩

/-- The symbols given tell the bits of a walk from the root to the sentinel's leaf: they are the codes of these
symbols and then the sentinel's (R177). -/
theorem Walk.sentinel_bits_unique {root : Tree} (hn : (treeSyms root).Nodup) {q q' : List Bool} {l : List Sym}
    {w w' : Nat} (h : Walk root root q l (.leaf sentinel w)) (h' : Walk root root q' l (.leaf sentinel w')) :
    q = q' := by
  obtain ⟨p, r, hp, rfl, hr⟩ := h.codes hn
  obtain ⟨p', r', hp', rfl, hr'⟩ := h'.codes hn
  cases hp.symm.trans hp'
  cases ((pathTo_eq_some_iff hn _ _).2 ⟨w, hr⟩).symm.trans ((pathTo_eq_some_iff hn _ _).2 ⟨w', hr'⟩)
  rfl

/-- The codes of bytes, and then a path, are the walk that gives these bytes. -/
theorem walk_of_codesOf_follow {root v : Tree} {l : List Byte} {p q : List Bool}
    (hp : codesOf (codeTable root) (l.map BitVec.toNat) = some p) (hq : follow root q = some v) :
    Walk root root (p ++ q) (byteSyms l) v := by
  rw [← byteSyms_map_val] at hp
  simpa using Walk.of_codes (fun _ => ne_sentinel_of_mem_byteSyms) hp (Walk.of_follow hq)

/-- A payload is the walk that gives its bytes and ends at the sentinel's leaf (30_encoding R70). -/
theorem walk_of_payload {root : Tree} {l : List Byte} {p : List Bool}
    (hp : payload (codeTable root) (l.map BitVec.toNat) = some p) :
    ∃ w, Walk root root p (byteSyms l) (.leaf sentinel w) := by
  obtain ⟨c, d, hc, hd, rfl⟩ := codesOf_append_some.1 hp
  obtain ⟨e, n, he, hnil, rfl⟩ := codesOf_cons_some.1 hd
  cases hnil
  rw [codeRead_codeTable] at he
  obtain ⟨y, w, hy, hf⟩ := follow_pathTo he
  cases Fin.ext hy
  rw [List.append_nil]
  exact ⟨w, walk_of_codesOf_follow hc hf⟩

/-! ### The command -/

/-- DECODE's precondition holds and CUR is the root of `tr`, as RDHDR leaves it (45_decode R171). -/
structure AtRoot (s : State) (tr : Tree) : Prop where
  idle : idle s
  walking : s.dstate = .walking
  wOpen : s.wOpen = true
  tree : s.tree = some tr
  cur : s.cur = tr
  treeOk : treeOk tr = true
  writerOk : writerOk s

/-- In a run, DECODE whose precondition holds starts from the root (10_state R17). -/
theorem Inv.atRoot {s : State} (hi : Inv s) (h : idle s) (hd : s.dstate = .walking) (ho : s.wOpen = true) :
    AtRoot s s.cur := by
  obtain ⟨-, hw, -, ⟨htree, -, -, -, hroot, -⟩, -⟩ := hi
  have ht := hroot hd h.2
  rw [ht] at htree
  exact ⟨h, hd, ho, ht, rfl, htree, hw⟩

/-- DECODE runs its loop from the root (R171). -/
theorem exec_decode {s : State} {tr : Tree} (h : AtRoot s tr) :
    exec .decode s = finish (decodeLoop tr (2 * bitsLeft s + 3) s) := by
  rw [exec, execDecode, command_runs h.idle (by rw [h.walking, h.wOpen]; rfl), h.tree]

theorem exec_decode_refused {s : State} (h : idle s) (hn : ¬ (s.dstate = .walking ∧ s.wOpen = true)) :
    exec .decode s = .next { s with err := some .illegalCommand } := by
  rw [exec, execDecode, command_refuses h (by simpa using hn)]

/-- `t` is `s` after a walk from the root over the bits `q`, which stand at IN_POS: the symbols `l` written, CUR
the node `v` where it stopped, and nothing changed but the streams, CUR and DSTATE. -/
structure Walked (root : Tree) (s t : State) (q : List Bool) (l : List Sym) (v : Tree) : Prop where
  walk : Walk root root q l v
  bits : q <+: inRest s
  frame : OnlyDecode s t
  out : outBits t = outBits s ++ symBits l
  inPos : t.inPos = s.inPos + q.length
  cur : t.cur = v

theorem Walked.err_eq {root v : Tree} {s t : State} {q : List Bool} {l : List Sym}
    (h : Walked root s t q l v) : t.err = s.err := by
  rw [h.frame]

/-- The bits a walk consumed. -/
theorem Walked.take_eq {root v : Tree} {s t : State} {q : List Bool} {l : List Sym}
    (h : Walked root s t q l v) : (inRest s).take (t.inPos - s.inPos) = q := by
  rw [h.inPos, Nat.add_sub_cancel_left]
  exact (List.prefix_iff_eq_take.1 h.bits).symm

/-- The bits a walk wrote. -/
theorem Walked.drop_eq {root v : Tree} {s t : State} {q : List Bool} {l : List Sym}
    (h : Walked root s t q l v) : (outBits t).drop (outBits s).length = symBits l := by
  rw [h.out, List.drop_left]

/-- An error raised where a walk stopped changes ERR besides, and leaves DSTATE (45_decode R171). -/
theorem Walked.raised_frame {root v : Tree} {s t : State} {q : List Bool} {l : List Sym}
    (h : Walked root s t q l v) (hd : t.dstate = s.dstate) (k : ErrKind) :
    ({ t with err := some k } : State) =
      { s with inPos := t.inPos, fetchFails := t.fetchFails, out := t.out, wbuf := t.wbuf, wcnt := t.wcnt,
               putFails := t.putFails, cur := t.cur, err := some k } := by
  rw [h.frame, hd]

/-- DECODE from the root ends in Done at the sentinel's leaf (R173). -/
def DecodeDone (s : State) (tr : Tree) : Prop :=
  ∃ t q l w, exec .decode s = .next t ∧ Walked tr s t q l (.leaf sentinel w) ∧ t.dstate = .done

/-- DECODE from the root ends with TruncatedPayload at an internal node, every bit consumed (R174). -/
def DecodeTruncated (s : State) (tr : Tree) : Prop :=
  ∃ (t : State) (l : List Sym) (a b : Tree) (w : Nat),
    exec .decode s = .next { t with err := some .truncatedPayload } ∧
      Walked tr s t (inRest s) l (.node a b w) ∧ t.dstate = .walking

/-- Everything DECODE can do from the root: besides these two ends, IoFailure at a fetch or a put that fails. -/
theorem exec_decode_cases {s : State} {tr : Tree} (h : AtRoot s tr) :
    DecodeDone s tr ∨ DecodeTruncated s tr ∨
    (∃ t : State, exec .decode s = .next { t with err := some .ioFailure } ∧
      ((∃ d : Nat, s.fetchFails[d]? = some true) ∨ ∃ d : Nat, s.putFails[d]? = some true)) := by
  have hhdr : ∀ {t : State}, OnlyDecode s t → t.hdr = none := fun ho => by rw [ho]; exact h.idle.1
  have hturns := turns_le s.cur
  have hroot := ((treeOk_iff tr).1 h.treeOk).2
  have hexec := exec_decode h
  rcases decodeLoop_cases hroot (wbufOk_of_idle h.idle h.writerOk)
    (show _ ≤ 2 * bitsLeft s + 3 by omega) with
    ⟨t, q, rest, l, w, e, hr, hwk, ho, -, hb, hp, hcur, hd⟩ |
    ⟨t, l, a, b, w, e, hwk, ho, -, hb, hp, hcur, hd⟩ |
    ⟨t, q, rest, l, v, e, -, -, ho, -, -, -, -, -, hfail⟩ <;> rw [e] at hexec
  · rw [h.cur] at hwk
    exact .inl ⟨t, q, l, w, hexec, ⟨hwk, ⟨rest, hr.symm⟩, ho, hb, hp, hcur⟩, hd⟩
  · rw [h.cur] at hwk
    rw [← inRest_length] at hp
    exact .inr (.inl ⟨t, l, a, b, w, hexec.trans (finish_raised_of_hdr (hhdr ho)),
      ⟨hwk, List.prefix_rfl, ho, hb, hp, hcur⟩, hd.trans h.walking⟩)
  · exact .inr (.inr ⟨t, hexec.trans (finish_raised_of_hdr (hhdr ho)), hfail⟩)

/-- Where no fetch and no put fails, DECODE from the root ends at the sentinel's leaf or with TruncatedPayload. -/
theorem exec_decode_neverFail {s : State} {tr : Tree} (h : AtRoot s tr) (hf : fetchesNeverFail s)
    (hp : putsNeverFail s) : DecodeDone s tr ∨ DecodeTruncated s tr := by
  rcases exec_decode_cases h with hdone | htrunc | ⟨t, -, ⟨d, hd⟩ | ⟨d, hd⟩⟩
  · exact .inl hdone
  · exact .inr htrunc
  · exact absurd hd (no_draw hf)
  · exact absurd hd (no_draw hp)

/-- A run's DECODE that leaves no error walked from the root to the sentinel's leaf. -/
theorem walked_of_exec_decode {s t : State} (hi : Inv s) (h : idle s) (he : exec .decode s = .next t)
    (ht : t.err = none) :
    AtRoot s s.cur ∧ ∃ q l w, Walked s.cur s t q l (.leaf sentinel w) := by
  obtain ⟨hd, ho⟩ : s.dstate = .walking ∧ s.wOpen = true := by
    by_contra hn
    cases he.symm.trans (exec_decode_refused h hn)
    cases ht
  have hroot := Inv.atRoot hi h hd ho
  refine ⟨hroot, ?_⟩
  rcases exec_decode_cases hroot with ⟨u, q, l, w, e, hwk, -⟩ | ⟨u, l, a, b, w, e, -⟩ | ⟨u, e, -⟩ <;>
    cases he.symm.trans e
  · exact ⟨q, l, w, hwk⟩
  · cases ht
  · cases ht

/-! ### The obligations -/

/-- Settles O47: the payload is a walk to the sentinel's leaf, and the bits at IN_POS allow only that one. -/
theorem decodeOfAPayloadGivesTheBytes : Obligations.DecodeOfAPayloadGivesTheBytes := by
  intro s tr l p rest h hd ho ht hc hok hw hf hp hpay hr
  have hroot : AtRoot s tr := ⟨h, hd, ho, ht, hc, hok, hw⟩
  obtain ⟨w, hwalk⟩ := walk_of_payload hpay
  rcases exec_decode_neverFail hroot hf hp with ⟨t, q, m, w', e, hwk, hdone⟩ | ⟨t, m, a, b, w', e, hwk, -⟩
  · obtain ⟨rest', hq⟩ := hwk.bits
    obtain ⟨rfl, rfl⟩ := hwk.walk.sentinel_unique hwalk (hq.trans hr)
    exact ⟨t, e, hwk.err_eq.trans h.2, hdone, by rw [hwk.out, symBits_byteSyms], hwk.inPos, hwk.frame⟩
  · have hnode := hwk.walk
    rw [hr] at hnode
    exact absurd hnode hwalk.sentinel_append_ne_node

/-- Settles O48: DECODE reaches the sentinel's leaf neither in a tree without one nor on bits that walk to an
internal node. -/
theorem truncatedPayloadAtAnInternalNode : Obligations.TruncatedPayloadAtAnInternalNode := by
  refine ⟨fun s tr hi h hd ho ht hno hf hp => ?noSentinel,
    fun s tr a b w l p q h hd ho ht hc hok hw hf hp hl hq hr => ?internal⟩
  case noSentinel =>
    have hroot := Inv.atRoot hi h hd ho
    have htr : tr = s.cur := Option.some.inj (ht.symm.trans hroot.tree)
    subst htr
    rcases exec_decode_neverFail hroot hf hp with ⟨t, q, m, w, -, hwk, -⟩ | ⟨t, m, a, b, w, e, hwk, hwalking⟩
    · obtain ⟨-, r, -, -, hsent⟩ := hwk.walk.codes ((treeOk_iff _).1 hroot.treeOk).1
      exact absurd (mem_treeSyms_of_follow hsent) hno
    · have hend : t.inPos = 8 * s.input.length := by
        rw [hwk.inPos, inRest_length]
        exact Nat.add_sub_of_le hi.1
      exact ⟨_, e, rfl, hwalking, hend⟩
  case internal =>
    have hroot : AtRoot s tr := ⟨h, hd, ho, ht, hc, hok, hw⟩
    have hwalk := walk_of_codesOf_follow hl hq
    rw [← hr] at hwalk
    rcases exec_decode_neverFail hroot hf hp with ⟨t, q', m, w', -, hwk, -⟩ |
      ⟨t, m, a', b', w', e, hwk, hwalking⟩
    · obtain ⟨rest, hrest⟩ := hwk.bits
      rw [← hrest] at hwalk
      exact absurd hwalk hwk.walk.sentinel_append_ne_node
    · obtain ⟨m', rfl, hstop⟩ := hwalk.split (q' := []) (by rw [List.append_nil]; exact hwk.walk) rfl
      obtain ⟨rfl, hv⟩ := hstop.of_nil_node
      have hout : outBits t = outBits s ++ bytesBits l := by
        rw [hwk.out, List.append_nil, symBits_byteSyms]
      have hpos : t.inPos = s.inPos + p.length + q.length := by
        rw [hwk.inPos, hr, List.length_append, Nat.add_assoc]
      exact ⟨_, e, rfl, hwalking, hwk.cur.trans hv, hout, hpos, hwk.raised_frame (hwalking.trans hd.symm) _⟩

/-- Settles O49: a walk to the sentinel's leaf and the symbols it gives determine each other. -/
theorem noFlippedPayloadBitIsSilent : Obligations.NoFlippedPayloadBitIsSilent := by
  refine ⟨fun s s' t t' hi hi' h h' htree he he' ht ht' => ?determined, fun s hi h hd ho hf hp => ?ends⟩
  case determined =>
    obtain ⟨hroot, q, l, w, hwk⟩ := walked_of_exec_decode hi h he ht
    obtain ⟨hroot', q', l', w', hwk'⟩ := walked_of_exec_decode hi' h' he' ht'
    have hcur : s'.cur = s.cur := Option.some.inj (hroot'.tree.symm.trans (htree.symm.trans hroot.tree))
    have hwalk := hwk.walk
    have hwalk' := hcur ▸ hwk'.walk
    rw [hwk.drop_eq, hwk'.drop_eq, hwk.take_eq, hwk'.take_eq]
    constructor
    · intro hout
      have hsyms := symBits_inj hwalk.ne_sentinel hwalk'.ne_sentinel hout
      exact hwalk.sentinel_bits_unique ((treeOk_iff _).1 hroot.treeOk).1 (hsyms ▸ hwalk')
    · intro hbits
      rw [(hwalk.sentinel_unique hwalk' (congrArg (· ++ []) hbits)).2]
  case ends =>
    rcases exec_decode_neverFail (Inv.atRoot hi h hd ho) hf hp with ⟨t, q, l, w, e, hwk, hdone⟩ |
      ⟨t, l, a, b, w, e, -⟩
    · exact ⟨t, e, .inl ⟨hwk.err_eq.trans h.2, hdone⟩⟩
    · exact ⟨_, e, .inr rfl⟩

end Sys2Proof.Machine
end

section
/-!
PROOFS. The error gate (46_control R191) and the table of preconditions (46_control R190).
-/

namespace Sys2Proof.Machine

open Sys2Proof.Claims

/-! ### The error gate -/

/-- The error gate stops an illegal word like any command but CLR. -/
theorem illegalWord_gated {s : State} (hh : s.hdr = none) (he : s.err ≠ none) : illegalWord s = .next s :=
  command_gated hh he false _

/-- Settles O3: a command that meets the closed gate leaves the state, and an illegal word is such a command. -/
theorem errorGateStopsEveryCommand : Obligations.ErrorGateStopsEveryCommand := by
  refine ⟨fun i s hc hi hh he => ?command, fun w e s rest hd hh he ha => ?illegal⟩
  case command =>
    obtain ⟨ready, body, hcmd⟩ := exec_eq_command hc hi s
    rw [hcmd, command_gated hh he]
  case illegal =>
    rw [step_rejected_word hh ha hd]
    exact illegalWord_gated hh he

/-! ### Refused by the table -/

/-- Every command but CLR is passed through the gate and a check, which for a legal command is its row of the
table of 46_control R190. -/
theorem exec_eq_command_checked {i : Instr} (hc : i.isCommand = true) (hwf : i.wf = true) (hi : i ≠ .clr)
    (s : State) : ∃ ready body, exec i s = command ready s body ∧ (ready = true ↔ Precondition i s) := by
  cases i <;> simp only [exec]
  case clr => exact absurd rfl hi
  case hdrLeaf | hdrNode => cases hc
  case rewind | rdbit | freq => exact ⟨true, _, rfl, iff_of_true rfl trivial⟩
  case rdbits n => exact ⟨countLegal n, _, rfl, iff_of_true hwf trivial⟩
  case wrbit | flush => exact ⟨s.wOpen, _, rfl, Iff.rfl⟩
  case wrbits n v =>
    have hn : countLegal n = true := hwf
    exact ⟨countLegal n && s.wOpen, _, rfl, by simp [hn, Precondition]⟩
  case build => exact ⟨!tValid s, _, rfl, by simp [Precondition, tValid]⟩
  case mktab => exact ⟨tValid s, _, rfl, by simp [Precondition, tValid, Option.isSome_iff_ne_none]⟩
  case wrhdr =>
    exact ⟨tValid s && s.wOpen, _, rfl, by simp [Precondition, tValid, Option.isSome_iff_ne_none]⟩
  case encode => exact ⟨s.cValid && s.wOpen, _, rfl, by simp [Precondition]⟩
  case rdhdr => exact ⟨!tValid s && decide (s.dstate = .readingTree), _, rfl, by simp [Precondition, tValid]⟩
  case decode => exact ⟨decide (s.dstate = .walking) && s.wOpen, _, rfl, by simp [Precondition]⟩

/-- A legal command whose row does not hold is refused. -/
theorem exec_refused {i : Instr} {s : State} (hc : i.isCommand = true) (hwf : i.wf = true) (h : idle s)
    (hn : ¬ Precondition i s) : exec i s = .next { s with err := some .illegalCommand } := by
  have hi : i ≠ .clr := by rintro rfl; exact hn trivial
  obtain ⟨ready, body, hcmd, hready⟩ := exec_eq_command_checked hc hwf hi s
  rw [hcmd, command_refuses h (Bool.eq_false_iff.2 (mt hready.1 hn))]

/-! ### Errors other than IllegalCommand -/

/-- A piece of a command ends free of error, or raises an error other than IllegalCommand. -/
def NotIllegal : Run Unit → Prop
  | .ok _ t => t.err = none
  | .raised k _ => k ≠ .illegalCommand
  | .hang => True

/-- A command whose body is such a piece does not end with IllegalCommand. -/
theorem NotIllegal.err_ne {r : Run Unit} {t : State} (h : NotIllegal r) (e : finish r = .next t) :
    t.err ≠ some .illegalCommand := by
  rcases finish_next e with rfl | ⟨k, u, rfl, rfl⟩
  · have ht : t.err = none := h
    simp [ht]
  · have hk : k ≠ .illegalCommand := h
    simpa using hk

theorem notIllegal_readBit {s : State} (he : s.err = none) (f : Option Bool → Res) :
    NotIllegal ((readBit s).andThen fun r t => .ok () { t with res := f r }) := by
  rcases readBit_cases s with ⟨b, rest, d, -, e⟩ | ⟨-, d, e⟩ | ⟨d, -, -, e⟩ <;> rw [e]
  · exact he
  · exact he
  · exact nofun

theorem notIllegal_writeBit {s : State} (he : s.err = none) (hw : wbufOk s) (b : Bool) :
    NotIllegal (writeBit b s) := by
  rcases writeBit_cases b hw with ⟨t, e, ht, -⟩ | ⟨t, e, -⟩ <;> rw [e]
  · exact ht.err_eq.trans he
  · exact nofun

theorem notIllegal_writeAll {s : State} (he : s.err = none) (hw : wbufOk s) (l : List Bool) :
    NotIllegal (writeAll l s) := by
  rcases writeAll_cases l hw with ⟨t, e, ht, -⟩ | ⟨t, k, d, e, -⟩ <;> rw [e]
  · exact ht.err_eq.trans he
  · exact nofun

theorem notIllegal_flushWriter {s : State} (he : s.err = none) (hw : wbufOk s) :
    NotIllegal (flushWriter s) := by
  rcases flushWriter_cases hw with ⟨-, e⟩ | ⟨-, e, -⟩ | ⟨-, -, e⟩ <;> rw [e]
  · exact he
  · exact he
  · exact nofun

theorem notIllegal_encodeLoop {s : State} (he : s.err = none) (hw : wbufOk s) {n : Nat}
    (hn : bitsLeft s < n) : NotIllegal (encodeLoop n s) := by
  rcases encodeLoop_cases hw hn with ⟨t, p, e, -, ht, -⟩ | ⟨t, l, x, l', p, e, -⟩ | ⟨t, p, e, -⟩ | ⟨t, e, -⟩ <;>
    rw [e]
  · have herr : t.err = s.err := by rw [ht]
    exact herr.trans he
  · exact nofun
  · exact nofun
  · exact nofun

theorem freq_err_ne {s t : State} (h : idle s) (he : exec .freq s = .next t) :
    t.err ≠ some .illegalCommand := by
  rcases exec_freq_cases h with ⟨-, d, e⟩ | ⟨l, x, l', d, -, -, -, e⟩ | ⟨l, p, d, -, e⟩ <;>
    cases he.symm.trans e
  · simp [h.2]
  · simp
  · simp

theorem build_err_ne {s t : State} (h : idle s) (hn : s.tree = none) (he : exec .build s = .next t) :
    t.err ≠ some .illegalCommand := by
  cases ho : weightOverflows s.cfg (totalWeight s.hist) with
  | true =>
    cases he.symm.trans (exec_build_overflows h hn ho)
    simp
  | false =>
    obtain ⟨u, hu, -⟩ := huffman_spec s.hist
    cases he.symm.trans (exec_build_fits h hn ho hu)
    simp [h.2]

theorem rdhdr_err_ne {s t : State} (h : idle s) (hn : s.tree = none) (hd : s.dstate = .readingTree)
    (he : exec .rdhdr s = .next t) : t.err ≠ some .illegalCommand := by
  rcases exec_rdhdr_cases h hn hd with ⟨T, rest, d, -, -, -, e⟩ | ⟨k, d, -, e⟩ | ⟨k, d, -, e⟩ <;>
    cases he.symm.trans e
  · simp [h.2]
  · simp
  · simp

theorem decode_err_ne {s t : State} {tr : Tree} (h : AtRoot s tr) (he : exec .decode s = .next t) :
    t.err ≠ some .illegalCommand := by
  rcases exec_decode_cases h with ⟨u, q, l, w, e, hwk, -⟩ | ⟨u, l, a, b, w, e, -⟩ | ⟨u, e, -⟩ <;>
    cases he.symm.trans e
  · simp [hwk.err_eq, h.idle.2]
  · simp
  · simp

/-- In a run, a legal command whose row of the table holds does not end with IllegalCommand. -/
theorem exec_err_ne_illegalCommand {i : Instr} {s t : State} (hc : i.isCommand = true) (hwf : i.wf = true)
    (hinv : Inv s) (h : idle s) (hp : Precondition i s) (he : exec i s = .next t) :
    t.err ≠ some .illegalCommand := by
  have hw := wbufOk_of_idle h hinv.2.1
  cases i with
  | hdrLeaf _ | hdrNode => cases hc
  | clr =>
    cases he.symm.trans (exec_clr h.1)
    simp
  | rewind =>
    cases he.symm.trans (exec_rewind h)
    simp [h.2]
  | rdbit => exact (notIllegal_readBit h.2 _).err_ne ((exec_rdbit h).symm.trans he)
  | rdbits n =>
    obtain ⟨h1, h32⟩ := (countLegal_iff n).1 hwf
    obtain ⟨u, e, -, hu⟩ := rdbits_ends h h1 h32
    cases he.symm.trans e
    rcases hu with hu | ⟨hu, -⟩ <;> simp [hu]
  | wrbit b => exact (notIllegal_writeBit h.2 hw b).err_ne ((exec_wrbit h hp b).symm.trans he)
  | wrbits n v =>
    obtain ⟨h1, h32⟩ := (countLegal_iff n).1 hwf
    exact (notIllegal_writeAll h.2 hw _).err_ne ((exec_wrbits h hp h1 h32 v).symm.trans he)
  | flush => exact (notIllegal_flushWriter h.2 hw).err_ne ((exec_flush h hp).symm.trans he)
  | freq => exact freq_err_ne h he
  | build => exact build_err_ne h hp he
  | mktab =>
    obtain ⟨tr, ht⟩ := Option.ne_none_iff_exists'.1 hp
    cases he.symm.trans (exec_mktab h ht)
    simp [h.2]
  | wrhdr =>
    obtain ⟨htree, ho⟩ := hp
    obtain ⟨tr, ht⟩ := Option.ne_none_iff_exists'.1 htree
    exact (notIllegal_writeAll h.2 hw _).err_ne ((exec_wrhdr h ht ho).symm.trans he)
  | encode =>
    obtain ⟨hv, ho⟩ := hp
    exact (notIllegal_encodeLoop h.2 hw (Nat.lt_succ_self _)).err_ne ((exec_encode h hv ho).symm.trans he)
  | rdhdr => exact rdhdr_err_ne h hp.1 hp.2 he
  | decode => exact decode_err_ne (Inv.atRoot hinv h hp.1 hp.2) he

/-- Settles O6: the check in front of a command is its row of the table, and no command's body raises
IllegalCommand. -/
theorem preconditionsRefuse : Obligations.PreconditionsRefuse :=
  ⟨fun _ _ => exec_refused, fun _ _ _ => exec_err_ne_illegalCommand,
    fun s hh => ⟨clear s, exec_clr hh, clear_err s⟩⟩

end Sys2Proof.Machine
end

section
/-!
PROOFS. COMPRESS and then DECOMPRESS, each with the IN its CLR attaches (46_control R187 to R189, R192).
-/

namespace Sys2Proof.Machine

open Sys2Proof.Claims

/-! ### Straight lines of commands -/

theorem runAll_cons {i : Instr} {l : List Instr} {s t : State} (h : exec i s = .next t) :
    runAll (i :: l) s = runAll l t := by
  rw [runAll, h]

/-! ### WRHDR, ENCODE and FLUSH where nothing fails -/

/-- WRHDR writes the header of TREE (R140). -/
theorem exec_wrhdr_writes {s : State} (h : idle s) {tr : Tree} (ht : s.tree = some tr) (ho : s.wOpen = true)
    (hw : wbufOk s) (hp : putsNeverFail s) :
    ∃ t, exec .wrhdr s = .next t ∧ OnlyWriter s t ∧ wbufOk t ∧ outBits t = outBits s ++ treeBits tr ∧
      putsNeverFail t := by
  obtain ⟨t, e, hframe⟩ := writeAll_neverFail (treeBits tr) hw hp
  exact ⟨t, by rw [exec_wrhdr h ht ho, e, finish_ok], hframe⟩

/-- ENCODE writes the payload of the byte groups left, where they all have codes (R160). -/
theorem exec_encode_writes {s : State} (h : idle s) (hc : s.cValid = true) (ho : s.wOpen = true)
    (hw : wbufOk s) (hf : fetchesNeverFail s) (hp : putsNeverFail s) {p : List Bool}
    (hpay : payload s.code (byteGroups (inRest s)) = some p) :
    ∃ t, exec .encode s = .next t ∧ OnlyStreams s t ∧ wbufOk t ∧ outBits t = outBits s ++ p ∧
      putsNeverFail t := by
  rw [exec_encode h hc ho]
  rcases encodeLoop_cases hw (Nat.lt_succ_self _) with ⟨t, q, e, hq, ht, hwt, hb, -, -, d, hd⟩ |
    ⟨t, l, x, l', q, -, hl, -, hx, -⟩ | ⟨t, q, -, -, hx, -⟩ | ⟨t, -, -, -, ⟨d, hd⟩ | ⟨d, hd⟩⟩
  · cases hpay.symm.trans hq
    exact ⟨t, by rw [e, finish_ok], ht, hwt, hb, by rw [putsNeverFail, hd]; exact neverFail_drop hp d⟩
  · rw [payload, hl, List.append_assoc, List.cons_append] at hpay
    exact absurd hpay (codesOf_append_cons_ne_some hx)
  · exact absurd hpay (codesOf_append_cons_ne_some hx)
  · exact absurd hd (no_draw hf)
  · exact absurd hd (no_draw hp)

/-- FLUSH puts out all bits written, and zeros up to a byte border (R98). -/
theorem exec_flush_writes {s : State} (h : idle s) (ho : s.wOpen = true) (hw : wbufOk s)
    (hp : putsNeverFail s) :
    ∃ t z, exec .flush s = .next t ∧ t.err = none ∧ z < 8 ∧
      bytesBits t.out = outBits s ++ List.replicate z false := by
  rw [exec_flush h ho]
  rcases flushWriter_cases hw with ⟨h0, e⟩ | ⟨h0, e, hb⟩ | ⟨-, hd, -⟩
  · rw [e]
    exact ⟨_, 0, rfl, h.2, by decide, by simp [outBits, pending, h0]⟩
  · rw [e]
    have hpos : 0 < s.wcnt.val := Fin.pos_iff_ne_zero.2 h0
    exact ⟨_, _, rfl, h.2, Nat.sub_lt (by decide) hpos, hb⟩
  · exact absurd hd (no_draw hp)

/-! ### Codes for every byte of IN -/

theorem exists_codesOf {c : List (Nat × List Bool)} {l : List Nat} (h : ∀ x ∈ l, ∃ p, codeRead c x = some p) :
    ∃ p, codesOf c l = some p := by
  induction l with
  | nil => exact ⟨[], rfl⟩
  | cons x l ih =>
    obtain ⟨⟨q, hq⟩, hl⟩ := List.forall_mem_cons.1 h
    obtain ⟨r, hr⟩ := ih hl
    exact ⟨q ++ r, codesOf_cons_some.2 ⟨q, r, hq, hr, rfl⟩⟩

/-- BUILD's tree has a leaf for the sentinel and for every byte counted (R121). -/
theorem mem_treeSyms_of_huffman {hist : List (Nat × Nat)} {tr : Tree} (ht : huffman hist = some tr) {x : Sym}
    (hx : x = sentinel ∨ (x.val < 256 ∧ 1 ≤ histRead hist x.val)) : x ∈ treeSyms tr := by
  obtain ⟨u, hu, -, hleaves, -, -⟩ := huffman_spec hist
  cases hu.symm.trans ht
  rcases hx with rfl | ⟨hlt, hc⟩
  · exact List.mem_map_of_mem (hleaves.mem_iff.2 ((mem_initialQ_leaves hist _ 1).2 (.inl ⟨rfl, rfl⟩)))
  · exact List.mem_map_of_mem (hleaves.mem_iff.2 ((mem_initialQ_leaves hist x _).2 (.inr ⟨hlt, hc, rfl⟩)))

/-- The tree of the counts of a byte sequence has a payload for it (R124, R70). -/
theorem exists_payload_of_huffman {S : List Byte} {tr : Tree}
    (ht : huffman (countAll (S.map BitVec.toNat) []) = some tr) :
    ∃ p, payload (codeTable tr) (S.map BitVec.toNat) = some p := by
  have hcode : ∀ {x : Sym}, x ∈ treeSyms tr → ∃ p, codeRead (codeTable tr) x.val = some p := fun hx => by
    rw [codeRead_codeTable]
    exact Option.isSome_iff_exists.1 (pathTo_isSome hx)
  refine exists_codesOf fun n hn => ?_
  rcases List.mem_append.1 hn with hn | hn
  · obtain ⟨b, hb, rfl⟩ := List.mem_map.1 hn
    rw [← byteSym_toNat_val]
    refine hcode (mem_treeSyms_of_huffman ht (.inr ⟨?_, ?_⟩)) <;> rw [byteSym_toNat_val]
    · exact b.isLt
    · rw [histRead_countAll, histRead_nil, Nat.zero_add]
      exact List.count_pos_iff.2 hn
  · rw [List.mem_singleton.1 hn]
    exact hcode (mem_treeSyms_of_huffman ht (.inl rfl))

/-! ### Room for the counts -/

theorem weightOverflows_of_le {cfg : Config} {m n : Nat} (h : weightOverflows cfg n = false) (hle : m ≤ n) :
    weightOverflows cfg m = false := by
  cases hw : cfg.weightW with
  | none => simp [weightOverflows, hw]
  | some w =>
    rw [Bool.eq_false_iff, Ne, weightOverflows_iff hw] at h ⊢
    omega

/-- The counts of a whole IN and the sentinel weigh one more than IN is long (P-R120). -/
theorem totalWeight_countAll {l : List Nat} (hl : ∀ b ∈ l, b < 256) :
    totalWeight (countAll l []) = l.length + 1 := by
  have hread (b : Nat) : histRead (countAll l []) b = l.count b := by
    rw [histRead_countAll, histRead_nil, Nat.zero_add]
  rw [totalWeight, List.map_congr_left fun b _ => hread b, sum_count_range hl, Nat.add_comm]

/-! ### COMPRESS (46_control R188) -/

/-- BUILD and MKTAB leave the tree of the counters and its codes, where the total fits. -/
theorem runAll_build_mktab {s : State} (h : idle s) (hn : s.tree = none)
    (ho : weightOverflows s.cfg (totalWeight s.hist) = false) {tr : Tree} (ht : huffman s.hist = some tr)
    {l : List Instr} : runAll (.build :: .mktab :: l) s =
      runAll l { s with tree := some tr, code := codeTable tr, cValid := true } := by
  refine (runAll_cons (exec_build_fits h hn ho ht)).trans (runAll_cons (exec_mktab ?_ ?_))
  · exact h
  · rfl

/-- FREQ, REWIND, BUILD and MKTAB leave the counts of IN, their tree and its codes, and the reader at the start. -/
theorem runAll_tables {s : State} (h : idle s) (hn : s.tree = none) (hh : s.hist = []) (h0 : s.inPos = 0)
    (hf : fetchesNeverFail s) (hfit : weightOverflows s.cfg (s.input.length + 1) = false) :
    ∃ tr t, huffman (countAll (s.input.map BitVec.toNat) []) = some tr ∧
      (∀ l, runAll (.freq :: .rewind :: .build :: .mktab :: l) s = runAll l t) ∧ fetchesNeverFail t ∧
      t = { s with hist := t.hist, inPos := 0, fetchFails := t.fetchFails, tree := some tr,
                   code := codeTable tr, cValid := true } := by
  have hg : byteGroups (inRest s) = s.input.map BitVec.toNat := byteGroups_inRest_start h0
  have hroom : roomFor s.cfg (byteGroups (inRest s)) s.hist := roomFor_of_fits fun b _ => by
    rw [hg, hh, histRead_nil, Nat.zero_add]
    refine weightOverflows_of_le hfit (Nat.le_succ_of_le ?_)
    simpa using List.count_le_length (a := b) (l := s.input.map BitVec.toNat)
  obtain ⟨d, efreq⟩ := exec_freq_countsAll h hf hroom
  rw [hg, hh] at efreq
  obtain ⟨tr, htr, -⟩ := huffman_spec (countAll (s.input.map BitVec.toNat) [])
  have hfits : weightOverflows s.cfg (totalWeight (countAll (s.input.map BitVec.toNat) [])) = false := by
    rw [totalWeight_countAll (hg ▸ byteGroups_lt _), List.length_map, hfit]
  refine ⟨tr, { s with
    hist := countAll (s.input.map BitVec.toNat) [], inPos := 0, fetchFails := s.fetchFails.drop d,
    tree := some tr, code := codeTable tr, cValid := true }, htr, fun l => ?_, neverFail_drop hf d, rfl⟩
  refine (runAll_cons efreq).trans ((runAll_cons (exec_rewind ?_)).trans (runAll_build_mktab ?_ ?_ ?_ ?_))
  exacts [h, h, hn, hfits, htr]

/-- WRHDR, ENCODE and FLUSH write the header and the payload, and zeros up to a byte border (20_memory R46). -/
theorem runAll_writes {s : State} (h : idle s) (hc : s.cValid = true) (ho : s.wOpen = true) (hw : wbufOk s)
    (hf : fetchesNeverFail s) (hp : putsNeverFail s) {tr : Tree} (ht : s.tree = some tr) {p : List Bool}
    (hpay : payload s.code (byteGroups (inRest s)) = some p) :
    ∃ t z, runAll [.wrhdr, .encode, .flush] s = .next t ∧ t.err = none ∧ z < 8 ∧
      bytesBits t.out = outBits s ++ treeBits tr ++ p ++ List.replicate z false := by
  obtain ⟨u, eu, hu, hwu, hbu, hpu⟩ := exec_wrhdr_writes h ht ho hw hp
  have hru : inRest u = inRest s := by rw [hu]; rfl
  obtain ⟨v, ev, hv, hwv, hbv, hpv⟩ := exec_encode_writes (s := u) (p := p) (by rw [hu]; exact h)
    (by rw [hu]; exact hc) (by rw [hu]; exact ho) hwu (by rw [fetchesNeverFail, hu]; exact hf) hpu
    (by rw [hru, hu]; exact hpay)
  have huv : OnlyStreams s v := hu.streams.trans hv
  obtain ⟨t, z, et, herr, hz, hbt⟩ := exec_flush_writes (s := v) (by rw [huv]; exact h)
    (by rw [huv]; exact ho) hwv hpv
  refine ⟨t, z, ?_, herr, hz, by rw [hbt, hbv, hbu]⟩
  rw [runAll_cons eu, runAll_cons ev, runAll_cons et, runAll]

/-! ### The state CLR leaves -/

theorem idle_clear (s : State) : idle (clear s) := ⟨clear_hdr s, clear_err s⟩

theorem writerOk_clear (s : State) : writerOk (clear s) := by simp [writerOk]

theorem fetchesNeverFail_clear {s : State} (hf : fetchesNeverFail s) : fetchesNeverFail (clear s) := by
  rw [fetchesNeverFail, clear_fetchFails]
  exact hf

theorem putsNeverFail_clear {s : State} (hp : putsNeverFail s) : putsNeverFail (clear s) := by
  rw [putsNeverFail, clear_putFails]
  exact hp

theorem outBits_clear (s : State) : outBits (clear s) = [] := by simp [outBits, pending]

theorem inRest_clear (s : State) : inRest (clear s) = bytesBits (clear s).input := by
  simp [inRest, inBits]

/-- `C` is what COMPRESS makes of `S` (20_memory R46): a tree's header, the payload of `S` in the tree's codes, and
fill bits. -/
def Compressed (S C : List Byte) : Prop :=
  ∃ tr p z, treeOk tr = true ∧ payload (codeTable tr) (S.map BitVec.toNat) = some p ∧ z < 8 ∧
    bytesBits C = treeBits tr ++ p ++ List.replicate z false

/-- COMPRESS of the IN its CLR attaches, where nothing fails and WEIGHT_W is large enough. -/
theorem runAll_compress {s : State} {S : List Byte} (hh : s.hdr = none) (hS : (clear s).input = S)
    (hf : fetchesNeverFail s) (hp : putsNeverFail s) (hfit : weightOverflows s.cfg (S.length + 1) = false) :
    ∃ t, runAll compress s = .next t ∧ t.err = none ∧ Compressed S t.out := by
  subst hS
  have hp' : putsNeverFail (clear s) := putsNeverFail_clear hp
  obtain ⟨tr, u, htr, etables, hfu, hu⟩ := runAll_tables (idle_clear s) (clear_tree s) (clear_hist s)
    (clear_inPos s) (fetchesNeverFail_clear hf) (by rw [clear_cfg]; exact hfit)
  obtain ⟨p, hpay⟩ := exists_payload_of_huffman htr
  have hin : byteGroups (inRest u) = (clear s).input.map BitVec.toNat := by
    rw [byteGroups_inRest_start (by rw [hu]), hu]
  obtain ⟨t, z, ewrites, herr, hz, hb⟩ := runAll_writes (s := u) (tr := tr) (p := p)
    (by rw [hu]; exact idle_clear s) (by rw [hu]) (by rw [hu]; exact clear_wOpen s)
    (by rw [hu]; exact wbufOk_of_idle (idle_clear s) (writerOk_clear s)) hfu
    (by rw [hu]; exact hp') (by rw [hu]) (by rw [hin, hu]; exact hpay)
  have hout : outBits u = [] := by rw [hu]; exact outBits_clear s
  rw [hout, List.nil_append] at hb
  exact ⟨t, (runAll_cons (exec_clr hh)).trans ((etables _).trans ewrites), herr, tr, p, z,
    treeOk_of_huffman htr, hpay, hz, hb⟩

/-! ### DECOMPRESS (46_control R189) -/

/-- RDHDR of a tree's header leaves DECODE at the root, with the bits after the header to come. -/
theorem exec_rdhdr_atRoot {s : State} (h : idle s) (hn : s.tree = none) (hd : s.dstate = .readingTree)
    (ho : s.wOpen = true) (hw : writerOk s) (hf : fetchesNeverFail s) {tr : Tree} {rest : List Bool}
    (hok : treeOk tr = true) (hr : inRest s = treeBits tr ++ rest) :
    ∃ t, exec .rdhdr s = .next t ∧ AtRoot t (unweighted tr) ∧ inRest t = rest ∧ outBits t = outBits s ∧
      fetchesNeverFail t ∧ t.putFails = s.putFails := by
  obtain ⟨d, e⟩ := exec_rdhdr_reads h hn hd hf hok hr
  refine ⟨_, e, ⟨h, rfl, ho, rfl, rfl, (treeOk_unweighted tr).trans hok, hw⟩, ?rest, rfl, neverFail_drop hf d, rfl⟩
  case rest =>
    apply List.append_cancel_left (as := treeBits tr)
    rw [← hr]
    exact (inRest_eq_append_consumed hr (by rfl) (by rfl)).symm

/-- FLUSH where the bits written are whole bytes: OUT holds them, and the writer closes. -/
theorem exec_flush_whole {s : State} (h : idle s) (ho : s.wOpen = true) {S : List Byte}
    (hb : outBits s = bytesBits S) : s.out = S ∧ exec .flush s = .next { s with wOpen := false } := by
  have hcnt : s.wcnt.val = 0 := by
    have hlen := outBits_length s
    have hlt := s.wcnt.isLt
    rw [hb, bytesBits_length] at hlen
    omega
  have hout : bytesBits s.out = bytesBits S ++ [] := by
    rw [List.append_nil, ← hb, outBits, pending, hcnt, List.take_zero, List.append_nil]
  refine ⟨(bytesBits_append_inj (by decide) hout).1, ?_⟩
  rw [exec_flush h ho, flushWriter_eq, if_pos (Fin.ext hcnt), finish_ok]

/-- DECOMPRESS of a compressed IN that its CLR attaches, where nothing fails. -/
theorem runAll_decompress {s : State} {S : List Byte} (hh : s.hdr = none) (hC : Compressed S (clear s).input)
    (hf : fetchesNeverFail s) (hp : putsNeverFail s) :
    ∃ t, runAll decompress s = .next t ∧ t.err = none ∧ t.out = S := by
  obtain ⟨tr, p, z, hok, hpay, -, hbits⟩ := hC
  rw [← inRest_clear, List.append_assoc] at hbits
  obtain ⟨u, erdhdr, hroot, hru, hbu, hfu, hpu⟩ := exec_rdhdr_atRoot (idle_clear s) (clear_tree s) (clear_dstate s)
    (clear_wOpen s) (writerOk_clear s) (fetchesNeverFail_clear hf) hok hbits
  rw [clear_putFails] at hpu
  rw [← codeTable_unweighted] at hpay
  obtain ⟨v, edecode, herr, -, hbv, -, hv⟩ := decodeOfAPayloadGivesTheBytes u (unweighted tr) S p _ hroot.idle
    hroot.walking hroot.wOpen hroot.tree hroot.cur hroot.treeOk hroot.writerOk hfu
    (by rw [putsNeverFail, hpu]; exact hp) hpay hru
  rw [hbu, outBits_clear, List.nil_append] at hbv
  have hidle : idle v := ⟨by rw [hv]; exact hroot.idle.1, herr⟩
  obtain ⟨hout, eflush⟩ := exec_flush_whole hidle (by rw [hv]; exact hroot.wOpen) hbv
  refine ⟨{ v with wOpen := false }, ?_, herr, hout⟩
  calc runAll decompress s
    _ = _ := runAll_cons (exec_clr hh)
    _ = _ := runAll_cons erdhdr
    _ = _ := runAll_cons edecode
    _ = _ := runAll_cons eflush

/-- Settles O57: COMPRESS makes the compressed form of its IN, and DECOMPRESS of that form gives the IN back. -/
theorem roundTripOfAttachedInputs : Obligations.RoundTripOfAttachedInputs := by
  intro s S rest hh hS hf hp hfit
  obtain ⟨t, ecompress, herr, hC⟩ := runAll_compress hh (clear_input_cons hS) hf hp hfit
  refine ⟨t, ecompress, herr, fun s' rest' hh' hS' hf' hp' => ?_⟩
  rw [← clear_input_cons hS'] at hC
  exact runAll_decompress hh' hC hf' hp'

end Sys2Proof.Machine
end

section
/-!
PROOFS. `raise` (60_exceptions R207) and the first error, which only a reset event and CLR change
(60_exceptions R211).
-/

namespace Sys2Proof.Machine

/-! ### The code of an error -/

/-- The codes of ERR fit in its four bits of STATUS (10_state R20, 60_exceptions R200). -/
theorem errCode_lt_sixteen (e : Option ErrKind) : errCode e < 2 ^ 4 := by
  rcases e with _ | _ | _ <;> decide

theorem status_err_toNat (s : State) : ((status s).extractLsb' 0 4).toNat = errCode s.err := by
  rw [status_err, BitVec.toNat_ofNat, Nat.mod_eq_of_lt (errCode_lt_sixteen s.err)]

/-- Settles O7: a command that raises ends in `raise`, and STATUS shows the ERR that `raise` sets. -/
theorem raiseSetsErrAndEnds : Obligations.RaiseSetsErrAndEnds :=
  fun k s => ⟨finish_raised k s, status_err_toNat (raise k s)⟩

/-! ### The first error -/

/-- Between commands, with nothing left to issue, the step is refused. -/
theorem step_no_action {s : State} (hh : s.hdr = none) (ha : s.host = []) :
    step s = .refused .noCommand := by
  simp only [step, hh, takeAction, ha]

/-- Between commands, a word the decoder accepts is executed once the host has moved on. -/
theorem step_decoded_word {s : State} {w : CmdWord} {rest : List HostAction} {i : Instr}
    (hh : s.hdr = none) (ha : s.host = .issue w :: rest) (hd : decode w = .ok i) :
    step s = exec i { s with host := rest, cp := s.cp + 1 } := by
  simp only [step, hh, takeAction, ha, stepAction, hd]

/-- Between commands and with an error set, no instruction but CLR leads to another state: the gate stops a
command, and a header token is refused. -/
theorem exec_next_gated {i : Instr} {s t : State} (h : exec i s = .next t) (hi : i ≠ .clr)
    (hh : s.hdr = none) (he : s.err ≠ none) : t = s := by
  cases hc : i.isCommand with
  | true =>
    rw [errorGateStopsEveryCommand.1 i s hc hi hh he] at h
    exact (Host.Outcome.next.inj h).symm
  | false =>
    rw [exec_token_outside hc hh] at h
    cases h

/-- Settles O4: a step that is neither a reset event nor CLR moves the host on and meets the closed gate, whether
its word is legal or not. -/
theorem firstErrorIsKept : Obligations.FirstErrorIsKept := by
  intro s t k hh hk hstep
  have he : s.err ≠ none := by simp [hk]
  rcases ha : s.host with _ | ⟨w | _, rest⟩
  case nil => rw [step_no_action hh ha] at hstep; cases hstep
  case cons.reset => exact .inr (.inl rfl)
  case cons.issue =>
    cases hd : decode w with
    | error e =>
      rw [errorGateStopsEveryCommand.2 w e s rest hd hh he ha] at hstep
      cases hstep
      exact .inl hk
    | ok i =>
      by_cases hi : i = .clr
      · exact .inr (.inr ⟨w, rfl, hi ▸ hd⟩)
      · rw [step_decoded_word hh ha hd] at hstep
        obtain rfl := exec_next_gated hstep hi hh he
        exact .inl hk

end Sys2Proof.Machine
end

section
/-!
PROOFS. Encoding and decoding are inverse to each other (30_encoding R61 to R67, R72, R75).
-/

namespace Sys2Proof

/-! ### A packed word is read back -/

section
variable {op n v : Nat} (hop : op < 256) (hn : n < 64) (hv : v < 2 ^ 32)
include hop hn hv

/-- The decoder reads a packed word by its OP. -/
theorem decode_packWord : decode (packWord op n v) = decodeOp (packWord op n v) := by
  obtain ⟨-, hz, -, -⟩ := packWord_fields hop hn hv
  rw [decode, if_pos hz]

theorem opField_packWord : (opField (packWord op n v)).toNat = op := by
  rw [(packWord_fields hop hn hv).1, BitVec.toNat_ofNat, Nat.mod_eq_of_lt hop]

end

/-- A format C0 word has no operands to lose. -/
theorem decode_formatC0 {op : Nat} {i : Instr} (hop : op < 256)
    (hd : decodeOp (packWord op 0 0) = formatC0 (packWord op 0 0) i) : decode (packWord op 0 0) = .ok i := by
  obtain ⟨-, -, hn, hv⟩ := packWord_fields (n := 0) (v := 0) hop (by decide) (by decide)
  rw [decode_packWord hop (by decide) (by decide), hd, formatC0, if_pos ⟨hn, hv⟩]

theorem decode_rdbits {n : BitVec 6} (h : countLegal n = true) :
    decode (packWord 0x11 n.toNat 0) = .ok (.rdbits n) := by
  have hop := opField_packWord (op := 0x11) (v := 0) (by decide) n.isLt (by decide)
  obtain ⟨-, -, hn, hv⟩ := packWord_fields (op := 0x11) (v := 0) (by decide) n.isLt (by decide)
  rw [decode_packWord (by decide) n.isLt (by decide)]
  simp only [decodeOp, hop, formatCN, hn, hv, BitVec.ofNat_toNat, BitVec.setWidth_eq, h, if_true]
  rfl

theorem decode_wrbit (b : Bool) : decode (packWord 0x12 0 b.toNat) = .ok (.wrbit b) := by
  cases b <;> rfl

theorem decode_wrbits {n : BitVec 6} (h : countLegal n = true) (v : BitVec 32) :
    decode (packWord 0x13 n.toNat v.toNat) = .ok (.wrbits n v) := by
  have hop := opField_packWord (op := 0x13) (by decide) n.isLt v.isLt
  obtain ⟨-, -, hn, hv⟩ := packWord_fields (op := 0x13) (by decide) n.isLt v.isLt
  rw [decode_packWord (by decide) n.isLt v.isLt]
  simp only [decodeOp, hop, formatCNV, hn, hv, BitVec.ofNat_toNat, BitVec.setWidth_eq, h, if_true]

/-- The command word of a well-formed command decodes to it. -/
theorem decode_encode_word {i : Instr} (hwf : i.wf = true) {w : CmdWord} (hw : encode i = .word w) :
    decode w = .ok i := by
  cases i <;> cases hw
  case rdbits n => exact decode_rdbits hwf
  case wrbit b => exact decode_wrbit b
  case wrbits n v => exact decode_wrbits hwf v
  all_goals exact decode_formatC0 (by decide) rfl

/-- The bits of a well-formed token are read back in front of any bits. -/
theorem decodeBits_encode_token {i : Instr} (hwf : i.wf = true) {bits : List Bool}
    (hb : encode i = .token bits) (rest : List Bool) : decodeBits (bits ++ rest) = .ok (i, rest) := by
  cases i <;> cases hb
  case hdrLeaf f => exact decodeBits_leaf (of_decide_eq_true hwf) rest
  case hdrNode => rfl

/-- Settles O13: a command is read back from its word, a token from its bits, in front of none too. -/
theorem decodeOfEncodeIsTheInstruction : Obligations.DecodeOfEncodeIsTheInstruction := by
  refine fun i hwf => ⟨?whole, fun bits rest hb => decodeBits_encode_token hwf hb rest⟩
  case whole =>
    cases he : encode i with
    | word w => exact decode_encode_word hwf he
    | token bits =>
      have hbits := decodeBits_encode_token hwf he []
      rw [List.append_nil] at hbits
      simp only [decodeWire, hbits]

/-! ### A word that decodes is the word of what it decodes to -/

/-- What stands behind a check is accepted exactly when the check passes and the rest accepts. -/
theorem check_accepts_iff {c : Prop} [Decidable c] {x : Except DecodeError Instr} {d : DecodeError} {i : Instr} :
    (if c then x else .error d) = .ok i ↔ c ∧ x = .ok i := by
  by_cases hc : c <;> simp [hc]

/-- V with V[31:1] = 0 is its bit 0. -/
theorem toNat_eq_getLsbD_zero {v : BitVec 32} (h : v.extractLsb' 1 31 = 0) : v.toNat = (v.getLsbD 0).toNat := by
  have hlt : v.toNat / 2 = 0 := (extractLsb'_one_eq_zero v).1 h
  have hbit : v.getLsbD 0 = decide (v.toNat % 2 = 1) := by
    rw [BitVec.getLsbD, Nat.testBit_zero]
  rw [hbit]
  rcases Nat.mod_two_eq_zero_or_one v.toNat with h0 | h1
  · simp [h0]; omega
  · simp [h1]; omega

/-- What a word's OP and its format accept has the word's fields for operands. -/
theorem decodeOp_ok {w : CmdWord} {i : Instr} (h : decodeOp w = .ok i) :
    i.isCommand = true ∧ i.wf = true ∧
      encode i = .word (packWord (opField w).toNat (nField w).toNat (vField w).toNat) := by
  rcases decodeOp_cases w with ⟨-, hd⟩ | ⟨p, hp, hop, hd⟩ | ⟨hop, hd⟩ | ⟨hop, hd⟩ | ⟨hop, hd⟩ <;> rw [hd] at h
  · cases h
  · obtain ⟨⟨hn, hv⟩, hi⟩ := check_accepts_iff.1 h
    cases hi
    rw [hop, hn, hv]
    simp only [List.mem_cons, List.not_mem_nil, or_false] at hp
    rcases hp with rfl | rfl | rfl | rfl | rfl | rfl | rfl | rfl | rfl | rfl | rfl <;> exact ⟨rfl, rfl, rfl⟩
  · obtain ⟨hv, hrest⟩ := check_accepts_iff.1 h
    obtain ⟨hn, hi⟩ := check_accepts_iff.1 hrest
    cases hi
    rw [hop, hv]
    exact ⟨rfl, hn, rfl⟩
  · obtain ⟨⟨hn, hv⟩, hi⟩ := check_accepts_iff.1 h
    cases hi
    rw [hop, hn, toNat_eq_getLsbD_zero hv]
    exact ⟨rfl, rfl, rfl⟩
  · obtain ⟨hn, hi⟩ := check_accepts_iff.1 h
    cases hi
    rw [hop]
    exact ⟨rfl, hn, rfl⟩

/-- Settles O14: with Z = 00 a word is its OP, N and V, and the decoder keeps N and V. -/
theorem encodeOfDecodeIsTheWord : Obligations.EncodeOfDecodeIsTheWord := by
  intro w i h
  obtain ⟨hz, hop⟩ := check_accepts_iff.1 h
  obtain ⟨hc, hwf, he⟩ := decodeOp_ok hop
  exact ⟨hc, hwf, by rw [he, ← word_eq_packWord w hz]⟩

/-! ### The example tokens -/

/-- Settles O12: the four tokens are computed, and what follows the last two is left over. -/
theorem headerTokenExamples : Obligations.HeaderTokenExamples :=
  fun rest => ⟨by decide, decodeBits_leaf (f := 256) (by decide) rest, rfl, rfl⟩

end Sys2Proof
end

section
/-!
PROOFS. CLR and the next IN (46_control R187), what one step runs (46_control R185, R186), and the header tokens:
their effects, and RDHDR as the run of its tokens (43_header P-R142).
-/

namespace Sys2Proof.Machine

/-! ### CLR -/

/-- Settles O2: the fields that `clear` carries over, one by one. -/
theorem clrAttachesTheNextInput : Obligations.ClrAttachesTheNextInput := by
  refine fun s hh => ⟨clear s, exec_clr hh, fun hn => ⟨clear_input_nil hn, by simp [hn]⟩,
    fun i rest hn => ⟨clear_input_cons hn, by simp [hn]⟩, clear_hdr s, clear_cfg s, clear_fetchFails s,
    clear_putFails s, clear_host s, clear_cp s⟩

/-! ### The effect of a token -/

/-- A header token in the middle of a header is `applyToken` (log 7). -/
theorem exec_token {s : State} {h : HdrRead} (hs : s.hdr = some h) (t : Token) :
    exec t.instr s = finish ((applyToken t h s).andThen fun r s => .ok () { s with hdr := r }) := by
  cases t <;> simp only [Token.instr, exec, execHdrLeaf, execHdrNode, tokenStep, hs]

/-- Every header token is a token's row. -/
theorem exists_token {i : Instr} (hc : i.isCommand = false) : ∃ t : Token, i = t.instr := by
  cases i <;> cases hc
  case hdrLeaf f => exact ⟨.leaf f, rfl⟩
  case hdrNode => exact ⟨.node, rfl⟩

/-- Settles O43: the node token has one effect. -/
theorem nodeTokenOpensANode : Obligations.NodeTokenOpensANode :=
  fun _ _ hs => exec_token hs .node

section
variable {f : BitVec 9} {s : State} {h : HdrRead} (hs : s.hdr = some h)
include hs

/-- A leaf token that `leafToken` rejects ends the header read with MalformedHeader. -/
theorem exec_hdrLeaf_malformed (e : leafToken f h s = .raised .malformedHeader s) :
    exec (.hdrLeaf f) s = .next { s with err := some .malformedHeader, hdr := none } := by
  rw [← Token.instr, exec_token hs, applyToken, e, andThen_raised]
  rfl

variable (h256 : f.toNat ≤ 256) (hseen : symOperand f ∉ h.seen)
include h256 hseen

/-- A leaf of a new symbol that leaves the stack incomplete (P-R142). -/
theorem exec_hdrLeaf_plugged {st : List Frame} (hp : plug (.leaf (symOperand f) 0) h.stack = .inl st) :
    exec (.hdrLeaf f) s = .next { s with hdr := some ⟨st, symOperand f :: h.seen⟩ } := by
  rw [← Token.instr, exec_token hs, applyToken, leafToken, if_neg (Nat.not_lt.2 h256),
    if_neg (by simpa using hseen), hp]
  rfl

/-- A leaf of a new symbol that completes the tree `t` (P-R142). -/
theorem exec_hdrLeaf_complete {t : Tree} (hp : plug (.leaf (symOperand f) 0) h.stack = .inr t)
    (hl : loneByteLeaf t = false) :
    exec (.hdrLeaf f) s = .next { s with tree := some t, cur := t, dstate := .walking, hdr := none } := by
  rw [← Token.instr, exec_token hs, applyToken, leafToken, if_neg (Nat.not_lt.2 h256),
    if_neg (by simpa using hseen), hp]
  simp only [finishHeader, hl, Bool.false_eq_true, if_false]
  rfl

end

/-- A tree completed by the second child of an open node is no lone leaf. -/
theorem loneByteLeaf_of_plug_node {a b T : Tree} {w : Nat} {st : List Frame} (h : plug (.node a b w) st = .inr T) :
    loneByteLeaf T = false := by
  obtain ⟨-, -, -, hlone⟩ := plug_inr h
  by_contra hl
  obtain ⟨-, rfl⟩ := hlone (by simpa using hl)
  exact hl rfl

/-- Settles O42: the checks of R144, then the place of the leaf on the stack. -/
theorem leafTokenExtendsTheHeader : Obligations.LeafTokenExtendsTheHeader := by
  intro f s h hs
  refine ⟨fun hgt => exec_hdrLeaf_malformed hs (by rw [leafToken, if_pos hgt]), fun x hx => ?_⟩
  have h256 : f.toNat ≤ 256 := by omega
  obtain rfl : symOperand f = x := Fin.ext ((symOperand_toNat h256).trans hx.symm)
  have hle := Nat.not_lt.2 h256
  refine ⟨fun hmem => ?seen, fun hseen => ⟨fun hst hne => ?loneByte, fun hst heq => ?loneSentinel,
    fun st hst => ?first, fun a st st' hst hp => ?second, fun a st t hst hp => ?whole⟩⟩
  case seen =>
    exact exec_hdrLeaf_malformed hs (by rw [leafToken, if_neg hle, if_pos (by simpa using hmem)])
  case loneByte =>
    refine exec_hdrLeaf_malformed hs ?_
    rw [leafToken, if_neg hle, if_neg (by simpa using hseen), hst]
    simp [plug, finishHeader, loneByteLeaf, hne]
  case loneSentinel =>
    exact exec_hdrLeaf_complete hs h256 hseen (by rw [hst]; rfl) (by simp [loneByteLeaf, heq])
  case first => exact exec_hdrLeaf_plugged hs h256 hseen (by rw [hst]; rfl)
  case second => exact exec_hdrLeaf_plugged hs h256 hseen (by rw [hst]; exact hp)
  case whole =>
    exact exec_hdrLeaf_complete hs h256 hseen (by rw [hst]; exact hp) (loneByteLeaf_of_plug_node hp)

/-! ### What a step runs -/

/-- A token's bits are read back in front of any bits. -/
theorem decodeBits_tokenBits {t : Token} (ht : ∀ f, t = .leaf f → f.toNat ≤ 256) (rest : List Bool) :
    decodeBits (tokenBits t ++ rest) = .ok (t.instr, rest) := by
  cases t with
  | leaf f => exact decodeBits_leaf (ht f rfl) rest
  | node => rfl

/-- In the middle of a header, where no fetch fails and the bits at IN_POS start with a token, the step runs it on
the state whose reader has moved past it. -/
theorem step_token {s : State} {h : HdrRead} (hs : s.hdr = some h) (hf : fetchesNeverFail s) {i : Instr}
    {rest : List Bool} (hd : decodeBits (inRest s) = .ok (i, rest)) :
    ∃ d, step s = exec i { s with
      inPos := s.inPos + ((inRest s).length - rest.length), fetchFails := s.fetchFails.drop d } := by
  rcases fetchToken_cases s with ⟨t, rest', d, ht, hr, e⟩ | ⟨er, k, d, herr, -, -⟩ | ⟨k, d, -, hfail, -⟩
  · rw [hr, decodeBits_tokenBits ht] at hd
    cases hd
    refine ⟨d, ?_⟩
    rw [hr, List.length_append, Nat.add_sub_cancel]
    simp only [step, hs, e]
  · cases hd.symm.trans herr
  · exact absurd hfail (no_draw hf)

/-- Settles O9: a step between commands takes the host's next action; in the middle of a header it reads a token. -/
theorem stepRunsTheDecodedInstruction : Obligations.StepRunsTheDecodedInstruction := by
  refine ⟨fun _ _ _ _ => step_decoded_word, fun _ _ _ _ => step_rejected_word, fun _ _ => step_reset_event,
    fun _ => step_no_action, fun s h bits i rest hs hf hr hd => ?token⟩
  case token =>
    subst hr
    exact step_token hs hf hd

/-- Settles O10: a command waits at the gate, a token for a header. -/
theorem commandsWaitForTheHeaderRead : Obligations.CommandsWaitForTheHeaderRead := by
  refine ⟨fun i s h hc hs => ?command, fun i s hc hs => exec_token_outside hc hs⟩
  case command =>
    by_cases hi : i = .clr
    · subst hi
      simp only [exec, execClr, whenIdle, hs, Option.isSome_some, if_true]
    · obtain ⟨ready, body, e⟩ := exec_eq_command hc hi s
      rw [e, command_busy hs]

/-! ### The hidden state of RDHDR is not read by the reader -/

/-- `s` with the header read `x` in progress. -/
def setHdr (x : Option HdrRead) (s : State) : State := { s with hdr := x }

/-- A piece of a command with every state it ends in changed by `f`. -/
def Run.mapState {α : Type} (f : State → State) : Run α → Run α
  | .ok a s => .ok a (f s)
  | .raised k s => .raised k (f s)
  | .hang => .hang

theorem andThen_mapState {α β : Type} {f : State → State} {g : α → State → Run β}
    (hg : ∀ a s, g a (f s) = (g a s).mapState f) (r : Run α) :
    (r.mapState f).andThen g = (r.andThen g).mapState f := by
  cases r with
  | ok a s => exact hg a s
  | raised | hang => rfl

theorem readBit_setHdr (x : Option HdrRead) (s : State) :
    readBit (setHdr x s) = (readBit s).mapState (setHdr x) := by
  rw [readBit_eq, readBit_eq]
  change (if s.inPos % 8 = 0 ∧ s.fetchFails.head? = some true then _ else _) = _
  split
  · rfl
  · change (match (inBits s)[s.inPos]? with | none => _ | some b => _) = _
    cases (inBits s)[s.inPos]? <;> rfl

theorem readBitsFrom_setHdr (x : Option HdrRead) (n v : Nat) (s : State) :
    readBitsFrom n v (setHdr x s) = (readBitsFrom n v s).mapState (setHdr x) := by
  induction n generalizing v s with
  | zero => rfl
  | succ n ih =>
    rw [readBitsFrom, readBitsFrom, readBit_setHdr]
    refine andThen_mapState (fun r s => ?_) _
    cases r with
    | none => rfl
    | some b => exact ih (2 * v + b.toNat) s

theorem fetchToken_setHdr (x : Option HdrRead) (s : State) :
    fetchToken (setHdr x s) = (fetchToken s).mapState (setHdr x) := by
  rw [fetchToken, fetchToken, readBit_setHdr]
  refine andThen_mapState (fun tag s => ?_) _
  rcases tag with _ | _ | _
  · rfl
  · simp only
    rw [readBits, readBits, readBitsFrom_setHdr]
    refine andThen_mapState (fun r s => ?_) _
    cases r with
    | none => rfl
    | some v => simp only; cases decodeToken false (BitVec.ofNat 9 v) <;> rfl
  · rfl

/-! ### RDHDR is its tokens -/

/-- A token's effect on a header read is the same in every state. -/
theorem applyToken_uniform (t : Token) (h : HdrRead) :
    (∀ s, applyToken t h s = .raised .malformedHeader s) ∨
    (∃ h', ∀ s, applyToken t h s = .ok (some h') s) ∨
    (∃ T, ∀ s, applyToken t h s = .ok none { s with tree := some T, cur := T, dstate := .walking }) := by
  cases t with
  | node => exact .inr (.inl ⟨_, fun _ => rfl⟩)
  | leaf f =>
    simp only [applyToken, leafToken]
    by_cases hgt : 256 < f.toNat
    · exact .inl fun s => by rw [if_pos hgt]
    by_cases hseen : h.seen.contains (symOperand f) = true
    · exact .inl fun s => by rw [if_neg hgt, if_pos hseen]
    simp only [if_neg hgt, if_neg hseen]
    cases plug (.leaf (symOperand f) 0) h.stack with
    | inl st => exact .inr (.inl ⟨_, fun _ => rfl⟩)
    | inr T =>
      by_cases hl : loneByteLeaf T = true
      · exact .inl fun s => by simp only [finishHeader, if_pos hl]
      · exact .inr (.inr ⟨T, fun s => by simp only [finishHeader, if_neg hl]⟩)

/-- A step of the machine that leads on. -/
theorem run_succ {n : Nat} {s t : State} (e : step s = .next t) :
    Host.Core.run Sys2Proof.core (n + 1) s = Host.Core.run Sys2Proof.core n t := by
  have e' : Sys2Proof.core.step s = .next t := e
  simp only [Host.Core.run, e']

/-- One token step of the machine, told by the token that stands at IN_POS. -/
theorem step_setHdr (h : HdrRead) (s : State) : step (setHdr (some h) s) =
    match fetchToken s with
    | .ok t s' => exec t.instr (setHdr (some h) s')
    | .raised k s' => .next (raise k s')
    | .hang => .fault .hang := by
  change (match fetchToken (setHdr (some h) s) with
    | .ok t s' => exec t.instr s'
    | .raised k s' => .next (raise k s')
    | .hang => .fault .hang) = _
  rw [fetchToken_setHdr]
  cases fetchToken s <;> rfl

/-- From the middle of a header, some number of token steps ends as the rest of RDHDR does. -/
theorem run_tokens {n : Nat} {h : HdrRead} {s : State} (hs : s.hdr = none) (hn : bitsLeft s < n) :
    ∃ k, Host.Core.run Sys2Proof.core k (setHdr (some h) s) = finish (readHeader n h s) := by
  induction n generalizing h s with
  | zero => exact absurd hn (Nat.not_lt_zero _)
  | succ n ih =>
    have hstep := step_setHdr h s
    rw [readHeader_succ]
    rcases fetchToken_cases s with ⟨t, rest, d, -, hr, e⟩ | ⟨_, k, d, -, -, e⟩ | ⟨k, d, -, -, e⟩ <;>
      rw [e] at hstep ⊢
    · generalize hu : ({ s with
        inPos := s.inPos + (tokenBits t).length, fetchFails := s.fetchFails.drop d } : State) = u at hstep ⊢
      have hsu : u.hdr = none := by rw [← hu]; exact hs
      have hleft : bitsLeft u < n := by
        have hpos := tokenBits_pos t
        have hlen := congrArg List.length hr
        rw [inRest_length, List.length_append] at hlen
        rw [← hu]
        simp only [bitsLeft] at hn hlen ⊢
        omega
      simp only [exec_token (s := setHdr (some h) u) rfl] at hstep
      rw [andThen_ok]
      rcases applyToken_uniform t h with a | ⟨h', a⟩ | ⟨T, a⟩ <;> rw [a] at hstep ⊢
      · exact ⟨1, run_succ hstep⟩
      · obtain ⟨k, hk⟩ := ih (h := h') hsu hleft
        exact ⟨k + 1, (run_succ hstep).trans hk⟩
      · refine ⟨1, (run_succ hstep).trans ?_⟩
        rw [andThen_ok, finish_ok, ← hsu]
        rfl
    · exact ⟨1, run_succ hstep⟩
    · exact ⟨1, run_succ hstep⟩

/-- RDHDR reads its header from an empty stack where its precondition holds (46_control R190). -/
theorem exec_rdhdr {s : State} (h : idle s) (hn : s.tree = none) (hd : s.dstate = .readingTree) :
    exec .rdhdr s = finish (readHeader (bitsLeft s + 1) ⟨[], []⟩ s) :=
  command_runs h (by rw [tValid, hn, hd]; rfl) _

/-- Settles O44: turn by turn, RDHDR's loop and the token steps read the same tokens and apply them. -/
theorem rdhdrIsItsTokens : Obligations.RdhdrIsItsTokens := by
  intro s h hn hd
  rw [exec_rdhdr h hn hd]
  exact run_tokens h.1 (Nat.lt_succ_self _)

end Sys2Proof.Machine
end

section
/-!
PROOFS. What every command leaves: no header read in progress (10_state R24), and TREE once it is written
(10_state R13).
-/

namespace Sys2Proof.Machine

/-! ### The ends of a piece of a command -/

/-- `r` ends in the state `t`, with an error raised or without. -/
abbrev EndsIn (r : Run Unit) (t : State) : Prop := r = .ok () t ∨ ∃ k, r = .raised k t

/-- A composed piece ends where its second part does, or where its first part raised an error. -/
theorem endsIn_andThen {α : Type} {r : Run α} {f : α → State → Run Unit} {t : State}
    (h : EndsIn (r.andThen f) t) : (∃ a u, r = .ok a u ∧ EndsIn (f a u) t) ∨ ∃ k, r = .raised k t := by
  cases r with
  | ok a u => exact .inl ⟨a, u, rfl, h⟩
  | raised k u =>
    rcases h with h | ⟨k', h⟩ <;> cases h
    exact .inr ⟨k, rfl⟩
  | hang => rcases h with h | ⟨k, h⟩ <;> cases h

theorem endsIn_raised {k : ErrKind} {s t : State} (h : EndsIn (.raised k s) t) : t = s := by
  rcases h with h | ⟨k', h⟩ <;> cases h
  rfl

theorem endsIn_ok {s t : State} (h : EndsIn (.ok () s) t) : t = s := by
  rcases h with h | ⟨k, h⟩ <;> cases h
  rfl

/-! ### TREE and the header read -/

/-- From `s` to `t` the header read in progress stays, and so does TREE if `s` has one. -/
def TreeKept (s t : State) : Prop := t.hdr = s.hdr ∧ (s.tree = none ∨ t.tree = s.tree)

theorem TreeKept.refl (s : State) : TreeKept s s := ⟨rfl, .inr rfl⟩

theorem OnlyStreams.treeKept {s t : State} (h : OnlyStreams s t) : TreeKept s t := by
  rw [h]
  exact ⟨rfl, .inr rfl⟩

theorem OnlyDecode.treeKept {s t : State} (h : OnlyDecode s t) : TreeKept s t := by
  rw [h]
  exact ⟨rfl, .inr rfl⟩

/-- A read whose result goes to RES touches the reader and RES only. -/
theorem readThenRes_treeKept {α : Type} {r : Run (Option α)} {f : Option α → Res} {s t : State}
    (hr : ∀ u, ((∃ a, r = .ok a u) ∨ ∃ k, r = .raised k u) → OnlyReader s u)
    (h : EndsIn (r.andThen fun a u => .ok () { u with res := f a }) t) : TreeKept s t := by
  rcases endsIn_andThen h with ⟨a, u, e, ht⟩ | ⟨k, e⟩
  · rw [endsIn_ok ht]
    exact (hr u (.inl ⟨a, e⟩)).streams.treeKept
  · exact (hr t (.inr ⟨k, e⟩)).streams.treeKept

theorem flushWriter_treeKept {s t : State} (h : EndsIn (flushWriter s) t) : TreeKept s t := by
  rw [flushWriter_onlyWriter h]
  exact ⟨rfl, .inr rfl⟩

theorem freqLoop_treeKept {n : Nat} {s t : State} (hn : bitsLeft s < n) (h : EndsIn (freqLoop n s) t) :
    TreeKept s t := by
  rcases freqLoop_cases hn with ⟨-, d, e⟩ | ⟨l, x, l', d, -, -, -, e⟩ | ⟨l, l', k, d, -, -, -, -, -, e⟩ <;>
    rw [e] at h
  · rw [endsIn_ok h]
    exact ⟨rfl, .inr rfl⟩
  · rw [endsIn_raised h]
    exact ⟨rfl, .inr rfl⟩
  · rw [endsIn_raised h]
    exact ⟨rfl, .inr rfl⟩

/-- Reading a header from the start does not touch the hidden state that token steps use (log 7). -/
theorem readHeader_hdr {n : Nat} {s t : State} (hn : bitsLeft s < n) (h : EndsIn (readHeader n ⟨[], []⟩ s) t) :
    t.hdr = s.hdr := by
  rcases readHeader_cases (h := ⟨[], []⟩) ⟨List.nodup_nil, List.Perm.refl _⟩ hn with
    ⟨T, used, rest, d, -, -, -, -, e⟩ | ⟨k, d, -, -, e⟩ | ⟨k, d, -, -, e⟩ <;> rw [e] at h
  · rw [endsIn_ok h]
  · rw [endsIn_raised h]
  · rw [endsIn_raised h]

/-- A command whose body keeps TREE, if there is one, keeps it, and ends with no header read in progress. -/
theorem command_treeKept {ready : Bool} {s t : State} {body : State → Run Unit} (h : command ready s body = .next t)
    (hb : ready = true → ∀ u, EndsIn (body s) u → TreeKept s u) :
    t.hdr = none ∧ (s.tree = none ∨ t.tree = s.tree) := by
  obtain ⟨hh, ⟨-, rfl⟩ | ⟨-, -, rfl⟩ | ⟨-, hr, e⟩⟩ := command_next h
  · exact ⟨hh, .inr rfl⟩
  · exact ⟨hh, .inr rfl⟩
  · rcases finish_next e with e | ⟨k, u, e', rfl⟩
    · obtain ⟨hhdr, htree⟩ := hb hr t (.inl e)
      exact ⟨hhdr.trans hh, htree⟩
    · exact ⟨rfl, (hb hr u (.inr ⟨k, e'⟩)).2⟩

/-- Every command but CLR ends with no header read in progress, and with TREE as it was if there was one. -/
theorem exec_treeKept {i : Instr} {s t : State} (hc : i.isCommand = true) (hi : i ≠ .clr)
    (he : exec i s = .next t) : t.hdr = none ∧ (s.tree = none ∨ t.tree = s.tree) := by
  have hnone : (!tValid s) = true → s.tree = none := by simp [tValid]
  cases i with
  | clr => exact absurd rfl hi
  | hdrLeaf | hdrNode => cases hc
  | rewind =>
    rw [exec, execRewind] at he
    refine command_treeKept he fun _ u hu => ?_
    rw [endsIn_ok hu]
    exact ⟨rfl, .inr rfl⟩
  | rdbit =>
    rw [exec, execRdbit] at he
    exact command_treeKept he fun _ u hu =>
      readThenRes_treeKept (f := fun r => readResult (r.map Bool.toNat)) (fun _ => readBit_onlyReader) hu
  | rdbits n =>
    rw [exec, execRdbits] at he
    exact command_treeKept he fun _ u hu => readThenRes_treeKept (fun _ => readBits_onlyReader) hu
  | wrbit b =>
    rw [exec, execWrbit] at he
    exact command_treeKept he fun _ u hu => (writeBit_onlyWriter hu).streams.treeKept
  | wrbits n v =>
    rw [exec, execWrbits] at he
    exact command_treeKept he fun _ u hu => (writeAll_onlyWriter hu).streams.treeKept
  | flush =>
    rw [exec, execFlush] at he
    exact command_treeKept he fun _ u => flushWriter_treeKept
  | freq =>
    rw [exec, execFreq] at he
    exact command_treeKept he fun _ u => freqLoop_treeKept (Nat.lt_succ_self _)
  | build =>
    rw [exec, execBuild] at he
    refine command_treeKept he fun hr u hu => ⟨?_, .inl (hnone hr)⟩
    obtain ⟨T, hT, -⟩ := huffman_spec s.hist
    rw [hT] at hu
    split at hu
    · rw [endsIn_raised hu]
    · rw [endsIn_ok hu]
  | mktab =>
    rw [exec, execMktab] at he
    refine command_treeKept he fun _ u hu => ?_
    cases ht : s.tree with
    | none => simp only [ht] at hu; rw [endsIn_raised hu]; exact .refl s
    | some T => simp only [ht] at hu; rw [endsIn_ok hu]; exact ⟨rfl, .inr ht.symm⟩
  | wrhdr =>
    rw [exec, execWrhdr] at he
    refine command_treeKept he fun _ u hu => ?_
    cases ht : s.tree with
    | none => simp only [ht] at hu; rw [endsIn_raised hu]; exact .refl s
    | some T =>
      simp only [ht, writeTree_eq] at hu
      exact (writeAll_onlyWriter hu).streams.treeKept
  | encode =>
    rw [exec, execEncode] at he
    exact command_treeKept he fun _ u hu => (encodeLoop_onlyStreams hu).treeKept
  | rdhdr =>
    rw [exec, execRdhdr] at he
    refine command_treeKept he fun hr u hu => ⟨readHeader_hdr (Nat.lt_succ_self _) hu, .inl (hnone ?_)⟩
    exact (Bool.and_eq_true_iff.1 hr).1
  | decode =>
    rw [exec, execDecode] at he
    refine command_treeKept he fun _ u hu => ?_
    cases ht : s.tree with
    | none => simp only [ht] at hu; rw [endsIn_raised hu]; exact .refl s
    | some T => simp only [ht] at hu; exact (decodeLoop_onlyDecode hu).treeKept

/-- CLR that leads to a next state found the engine between commands. -/
theorem exec_clr_next {s t : State} (h : exec .clr s = .next t) : t = clear s := by
  cases hh : s.hdr with
  | none => exact (Host.Outcome.next.inj ((exec_clr hh).symm.trans h)).symm
  | some x => rw [commandsWaitForTheHeaderRead.1 .clr s x rfl hh] at h; cases h

/-- Settles O53: CLR resets the header read, and every other command ends without one. -/
theorem noHiddenStateSurvivesACommand : Obligations.NoHiddenStateSurvivesACommand := by
  intro i s t hc he
  by_cases hi : i = .clr
  · subst hi
    rw [exec_clr_next he, clear_hdr]
  · exact (exec_treeKept hc hi he).1

/-- Settles O54: the commands that write TREE find it empty. -/
theorem treeIsWrittenOnce : Obligations.TreeIsWrittenOnce := by
  intro i s t tr hc hi ht he
  obtain ⟨-, hnone | hkept⟩ := exec_treeKept hc hi he
  · cases hnone.symm.trans ht
  · exact hkept.trans ht

end Sys2Proof.Machine
end

section
/-!
PROOFS. The invariant of a run: it holds at reset, every step keeps it, and from a state with it every command and
every header token ends (10_state sections 2 to 8, 70_reset_and_hazards R245).
-/

namespace Sys2Proof.Machine

open Sys2Proof.Claims

/-- Settles O51: every field is at its reset value. -/
theorem invariantHoldsAtReset : Obligations.InvariantHoldsAtReset :=
  ⟨by decide, by decide, by decide, by decide, trivial, by decide⟩

/-! ### What keeps the invariant -/

/-- The invariant where only the two streams have changed. -/
theorem Inv.streams {s t : State} (hi : Inv s) (ho : OnlyStreams s t) (hr : readerOk t) (hw : writerOk t) : Inv t := by
  obtain ⟨-, -, htab, htree, hhdr, hres⟩ := hi
  rw [ho] at hr hw ⊢
  exact ⟨hr, hw, htab, htree, hhdr, hres⟩

/-- What the invariant says of TREE, CODE, DSTATE and CUR is less once an error is set. -/
theorem treeStateOk_raise {s : State} (h : treeStateOk s) (k : ErrKind) : treeStateOk (raise k s) := by
  obtain ⟨htree, hcode, hnocode, hread, -, hcur⟩ := h
  exact ⟨htree, hcode, hnocode, hread, nofun, hcur⟩

/-- An error raised where only the two streams have changed. -/
theorem Inv.raised {s t : State} {k : ErrKind} (hi : Inv s) (ho : OnlyStreams s t) (hr : readerOk t)
    (hw : writerOk (raise k t)) : Inv (raise k t) := by
  obtain ⟨-, -, htab, htree, -, hres⟩ := hi
  rw [ho] at hr hw ⊢
  exact ⟨hr, hw, htab, treeStateOk_raise htree k, trivial, hres⟩

/-- Free of error, the writer's part of the invariant is that of the bits pending and of a closed writer. -/
theorem writerOk_raise {t : State} {k : ErrKind} (hw : k = .ioFailure ∨ wbufOk t)
    (hc : t.wOpen = false → t.wcnt = 0) : writerOk (raise k t) :=
  ⟨fun hk => hw.resolve_left fun e => hk (by rw [e]; rfl), hc⟩

/-- The writer's part of the invariant where the writer was not touched and an error is raised. -/
theorem writerOk_raise_of_idle {s : State} (h : idle s) (hw : writerOk s) (k : ErrKind) : writerOk (raise k s) :=
  writerOk_raise (.inr (wbufOk_of_idle h hw)) hw.2

/-- `r` ends in a next state, with the invariant. -/
abbrev KeepsInv (r : Host.Outcome State Fault Refusal) : Prop := ∃ t, r = .next t ∧ Inv t

/-- CLR and a reset event give every field of the invariant its reset value, whatever was there. -/
theorem inv_clear (s : State) : Inv (clear s) := by
  rw [clear_eq]
  exact ⟨Nat.zero_le _, ⟨fun _ => rfl, nofun⟩, ⟨rfl, rfl⟩,
    ⟨rfl, nofun, fun _ => rfl, fun h => absurd rfl h, nofun, fun h => absurd rfl h⟩, trivial, nofun⟩

/-! ### Illegal counts -/

/-- A command with an illegal count is IllegalCommand (30_encoding R64). -/
theorem exec_illFormed {s : State} {i : Instr} (hc : i.isCommand = true) (hwf : i.wf = false) (h : idle s) :
    exec i s = .next { s with err := some .illegalCommand } := by
  cases i <;> cases hc
  case rdbits n =>
    have hn := (not_countLegal_iff n).1 (Bool.eq_false_iff.1 hwf)
    exact exec_rdbits_illegal h hn
  case wrbits n v =>
    have hn := (not_countLegal_iff n).1 (Bool.eq_false_iff.1 hwf)
    exact exec_wrbits_illegal h (or_assoc.1 (.inl hn)) v
  all_goals cases hwf

/-! ### Reading and writing -/

/-- RES after a read: an EOF has the value 0 (10_state R19). -/
theorem readResult_eof {r : Option Nat} (h : (readResult r).eof = true) : (readResult r).val = 0 := by
  cases r with
  | none => rfl
  | some v => cases h

/-- One bit is a bit sequence. -/
theorem writeBit_eq_writeAll (b : Bool) (s : State) : writeBit b s = writeAll [b] s := by
  rw [writeAll]
  cases writeBit b s <;> rfl

/-- A writer that is open holds what bits it may. -/
theorem closed_of_open {t : State} (h : t.wOpen = true) : t.wOpen = false → t.wcnt = 0 := fun hc => by
  rw [h] at hc
  cases hc

section
variable {s : State} (hi : Inv s)
include hi

/-- The reader of a state with the invariant stands within IN. -/
theorem Inv.reader_ok : readerOk s := hi.1

/-- The writer of a state with the invariant is in order. -/
theorem Inv.writer_ok : writerOk s := hi.2.1

/-- The invariant where the reader has moved within IN. -/
theorem Inv.reader {p : Nat} {ff : List Bool} (hp : p ≤ 8 * s.input.length) :
    Inv { s with inPos := p, fetchFails := ff } :=
  hi.streams rfl hp hi.writer_ok

/-- The same with a result in RES. -/
theorem Inv.read {p : Nat} {ff : List Bool} {r : Res} (hp : p ≤ 8 * s.input.length)
    (hr : r.eof = true → r.val = 0) : Inv { s with inPos := p, fetchFails := ff, res := r } := by
  obtain ⟨-, hw, htab, htree, hhdr, -⟩ := hi
  exact ⟨hp, hw, htab, htree, hhdr, hr⟩

/-- An error raised where the reader has moved within IN. -/
theorem Inv.readerRaised {p : Nat} {ff : List Bool} (hp : p ≤ 8 * s.input.length) (h : idle s) (k : ErrKind) :
    Inv (raise k { s with inPos := p, fetchFails := ff }) :=
  hi.raised rfl hp (writerOk_raise_of_idle (s := { s with inPos := p, fetchFails := ff }) h hi.writer_ok k)

/-- An error raised between commands, nothing else changed. -/
theorem Inv.raise_of_idle (h : idle s) (k : ErrKind) : Inv (raise k s) :=
  hi.raised rfl hi.reader_ok (writerOk_raise_of_idle h hi.writer_ok k)

/-- Bits consumed from the bits left do not lead beyond IN. -/
theorem Inv.add_le {k : Nat} (hk : k ≤ bitsLeft s) : s.inPos + k ≤ 8 * s.input.length := by
  have hr : s.inPos ≤ 8 * s.input.length := hi.reader_ok
  rw [bitsLeft] at hk
  omega

/-- RDBIT's body (40_bitstream R94). -/
theorem keepsInv_readBit (h : idle s) : KeepsInv (finish ((readBit s).andThen fun r u =>
    .ok () { u with res := readResult (r.map Bool.toNat) })) := by
  rcases readBit_cases s with ⟨b, rest, d, hr, e⟩ | ⟨-, d, e⟩ | ⟨d, -, -, e⟩ <;> rw [e]
  · have hone : 1 ≤ bitsLeft s := by
      rw [← inRest_length, hr]
      exact Nat.succ_pos _
    exact ⟨_, rfl, hi.read (hi.add_le hone) readResult_eof⟩
  · exact ⟨_, rfl, hi.read hi.reader_ok readResult_eof⟩
  · exact ⟨_, rfl, hi.readerRaised hi.reader_ok h _⟩

/-- RDBITS' body (40_bitstream R95). -/
theorem keepsInv_readBits (h : idle s) (n : Nat) : KeepsInv (finish ((readBits n s).andThen fun r u =>
    .ok () { u with res := readResult r })) := by
  rcases readBits_cases n s with ⟨hn, d, e⟩ | ⟨-, d, e⟩ | ⟨k, d, -, hk, -, -, e⟩ <;> rw [e]
  · exact ⟨_, rfl, hi.read (hi.add_le hn) readResult_eof⟩
  · exact ⟨_, rfl, hi.read (hi.add_le (Nat.le_refl _)) readResult_eof⟩
  · exact ⟨_, rfl, hi.readerRaised (hi.add_le hk) h _⟩

theorem keepsInv_writeAll (h : idle s) (ho : s.wOpen = true) (l : List Bool) : KeepsInv (finish (writeAll l s)) := by
  rcases writeAll_cases l (wbufOk_of_idle h hi.writer_ok) with ⟨t, e, ht, hw, -⟩ | ⟨t, k, d, e, ht, -⟩ <;> rw [e]
  all_goals
    have hclosed := closed_of_open (t := t) (by rw [ht]; exact ho)
    have hr : readerOk t := by rw [ht]; exact hi.reader_ok
  · exact ⟨t, rfl, hi.streams ht.streams hr ⟨fun _ => hw, hclosed⟩⟩
  · exact ⟨_, rfl, hi.raised ht.streams hr (writerOk_raise (.inl rfl) hclosed)⟩

end

/-! ### The counters -/

/-- Every counter of the table fits in WEIGHT_W bits. -/
abbrev countersFit (cfg : Config) (h : List (Nat × Nat)) : Prop := h.all (fun e => !weightOverflows cfg e.2) = true

theorem countersFit_iff {cfg : Config} {h : List (Nat × Nat)} :
    countersFit cfg h ↔ ∀ e ∈ h, weightOverflows cfg e.2 = false := by
  simp [countersFit]

theorem weightOverflows_zero (cfg : Config) : weightOverflows cfg 0 = false := by
  cases hw : cfg.weightW with
  | none => simp [weightOverflows, hw]
  | some w => simp [weightOverflows, hw]

/-- A counter below its maximum has room for one more. -/
theorem weightOverflows_succ {cfg : Config} {c : Nat} (hf : counterFull cfg c = false)
    (hc : weightOverflows cfg c = false) : weightOverflows cfg (c + 1) = false := by
  cases hw : cfg.weightW with
  | none => simp [weightOverflows, hw]
  | some w =>
    rw [Bool.eq_false_iff, Ne, weightOverflows_iff hw] at hc ⊢
    rw [Bool.eq_false_iff, Ne, counterFull_iff hw] at hf
    omega

/-- An entry after a write is the one written or one listed before. -/
theorem histWrite_mem {h : List (Nat × Nat)} {b c : Nat} {e : Nat × Nat} (he : e ∈ histWrite h b c) :
    e = (b, c) ∨ e ∈ h := by
  rw [histWrite] at he
  split at he
  · exact .inr (tableErase_mem he)
  · exact tablePut_mem he

/-- The counters read from a table that fits, fit. -/
theorem countersFit_read {cfg : Config} {h : List (Nat × Nat)} (hfit : countersFit cfg h) (b : Nat) :
    weightOverflows cfg (histRead h b) = false := by
  rw [histRead]
  cases hg : tableGet h b with
  | none => exact weightOverflows_zero cfg
  | some c => exact countersFit_iff.1 hfit _ (tableGet_mem hg)

/-- Counting bytes that find room keeps every counter within WEIGHT_W bits (41_frequency R114). -/
theorem countersFit_countAll {cfg : Config} {l : List Nat} {h : List (Nat × Nat)} (hfit : countersFit cfg h)
    (hroom : roomFor cfg l h) : countersFit cfg (countAll l h) := by
  induction l generalizing h with
  | nil => exact hfit
  | cons x l ih =>
    obtain ⟨hx, hl⟩ := hroom
    refine ih (countersFit_iff.2 fun e he => ?_) hl
    rcases histWrite_mem he with rfl | he
    · exact weightOverflows_succ hx (countersFit_read hfit x)
    · exact countersFit_iff.1 hfit e he

/-- The tables' part of the invariant after bytes have been counted. -/
theorem tablesOk_countAll {s : State} (h : tablesOk s) {l : List Nat} (hl : ∀ b ∈ l, b < 256)
    (hroom : roomFor s.cfg l s.hist) : tablesOk { s with hist := countAll l s.hist } := by
  obtain ⟨hwf, hfit⟩ := h
  obtain ⟨hhist, hcode⟩ := Bool.and_eq_true_iff.1 hwf
  exact ⟨Bool.and_eq_true_iff.2 ⟨countAll_wf l hhist hl, hcode⟩, countersFit_countAll hfit hroom⟩

theorem byteGroups_length_le (l : List Bool) : 8 * (byteGroups l).length ≤ l.length := by
  induction h : l.length using Nat.strong_induction_on generalizing l with
  | _ n ih =>
    by_cases h8 : l.length < 8
    · simp [byteGroups_short h8]
    · have hdrop : (l.drop 8).length = n - 8 := by rw [List.length_drop, h]
      have hrest := ih (n - 8) (by omega) (l.drop 8) hdrop
      rw [byteGroups_step (by omega), List.length_cons]
      omega

section
variable {s : State} (hi : Inv s)
include hi

/-- The invariant where bytes have been counted. -/
theorem Inv.counted {l l' : List Nat} (hl : byteGroups (inRest s) = l ++ l') (hroom : roomFor s.cfg l s.hist) :
    Inv { s with hist := countAll l s.hist } := by
  obtain ⟨hr, hw, htab, hrest⟩ := hi
  have hlt : ∀ b ∈ l, b < 256 := fun b hb => byteGroups_lt (inRest s) b (hl ▸ List.mem_append_left _ hb)
  exact ⟨hr, hw, tablesOk_countAll htab hlt hroom, hrest⟩

theorem keepsInv_freqLoop (h : idle s) : KeepsInv (finish (freqLoop (bitsLeft s + 1) s)) := by
  rcases freqLoop_cases (Nat.lt_succ_self (bitsLeft s)) with ⟨hroom, d, e⟩ |
    ⟨l, x, l', d, hl, hroom, -, e⟩ | ⟨l, l', k, d, hl, hroom, -, hk, -, e⟩ <;> rw [e]
  · exact ⟨_, rfl, (hi.counted (List.append_nil _).symm hroom).reader (hi.add_le (Nat.le_refl _))⟩
  · have hlen : 8 * (l.length + 1) ≤ bitsLeft s := by
      have hgroups := byteGroups_length_le (inRest s)
      rw [hl, inRest_length, List.length_append, List.length_cons] at hgroups
      omega
    exact ⟨_, rfl, (hi.counted hl hroom).readerRaised (hi.add_le hlen) h _⟩
  · exact ⟨_, rfl, (hi.counted hl hroom).readerRaised (hi.add_le hk) h _⟩

/-! ### TREE, CODE, DSTATE and CUR -/

/-- Without a tree there is no code table, and the decoder waits for a header. -/
theorem Inv.of_no_tree (hn : s.tree = none) : s.cValid = false ∧ s.code = [] ∧ s.dstate = .readingTree := by
  obtain ⟨-, -, -, ⟨-, hcode, hnocode, hread, -⟩, -⟩ := hi
  have hc : s.cValid = false := by
    by_contra hc
    have hmap := hcode (by simpa using hc)
    rw [hn] at hmap
    cases hmap
  refine ⟨hc, hnocode hc, ?_⟩
  by_contra hd
  have hsome := hread hd
  rw [hn] at hsome
  cases hsome

/-- The invariant where BUILD has made a tree (42_tree_build R120). -/
theorem Inv.built (hn : s.tree = none) {T : Tree} (hT : treeOk T = true) (hh : s.hdr = none) :
    Inv { s with tree := some T } := by
  obtain ⟨hc, hcode, hd⟩ := hi.of_no_tree hn
  obtain ⟨hr, hw, htab, -, -, hres⟩ := hi
  refine ⟨hr, hw, htab, ⟨hT, fun h => ?_, fun _ => hcode, fun h => absurd hd h, fun h => ?_, fun h => absurd hd h⟩,
    ?_, hres⟩
  · cases hc.symm.trans h
  · cases hd.symm.trans h
  · simp only [headerOk, hh]

/-- The invariant where a header has been read (43_header P-R142). -/
theorem Inv.headerRead (hn : s.tree = none) {T : Tree} (hT : treeOk T = true) :
    Inv { s with tree := some T, cur := T, dstate := .walking, hdr := none } := by
  obtain ⟨hc, hcode, -⟩ := hi.of_no_tree hn
  obtain ⟨hr, hw, htab, -, -, hres⟩ := hi
  refine ⟨hr, hw, htab, ⟨hT, fun h => ?_, fun _ => hcode, fun _ => rfl, fun _ _ => rfl, fun _ => ?_⟩, trivial, hres⟩
  · cases hc.symm.trans h
  · exact List.contains_iff_mem.2 (mem_subtrees_self T)

/-- The invariant where MKTAB has made the code table (42_tree_build R131). -/
theorem Inv.tabled {T : Tree} (ht : s.tree = some T) : Inv { s with code := codeTable T, cValid := true } := by
  obtain ⟨hr, hw, ⟨hwf, hfit⟩, ⟨htree, -, -, hrest⟩, hhdr, hres⟩ := hi
  refine ⟨hr, hw, ⟨Bool.and_eq_true_iff.2 ⟨(Bool.and_eq_true_iff.1 hwf).1, codeTable_wf T⟩, hfit⟩,
    ⟨htree, fun _ => ?_, nofun, hrest⟩, hhdr, hres⟩
  change s.tree.map codeTable = some (codeTable T)
  rw [ht]
  rfl

/-- The invariant where DECODE has moved CUR to a node of TREE, and is not Walking or has raised an error
(45_decode R171). -/
theorem Inv.decoded {tr : Tree} {t : State} (ht : s.tree = some tr)
    (ho : t = { s with inPos := t.inPos, fetchFails := t.fetchFails, out := t.out, wbuf := t.wbuf, wcnt := t.wcnt,
                       putFails := t.putFails, cur := t.cur, dstate := t.dstate, err := t.err, hdr := none })
    (hr : readerOk t) (hw : writerOk t) (hcur : t.cur ∈ subtrees tr) (hd : t.dstate = .walking → t.err ≠ none) :
    Inv t := by
  obtain ⟨-, -, htab, ⟨htree, hcode, hnocode, -⟩, -, hres⟩ := hi
  rw [ho] at hr hw hcur hd ⊢
  refine ⟨hr, hw, htab, ⟨htree, hcode, hnocode, fun _ => ?_, fun hwalk he => absurd he (hd hwalk), fun _ => ?_⟩,
    trivial, hres⟩
  · simp only [ht, Option.isSome_some]
  · simp only [ht, Option.all_some]
    exact List.contains_iff_mem.2 hcur

/-- The invariant where DECODE has raised an error at a node of TREE. -/
theorem Inv.decodeRaised {tr : Tree} {t : State} {k : ErrKind} (ht : s.tree = some tr) (ho : OnlyDecode s t)
    (hr : readerOk t) (hw : writerOk (raise k t)) (hcur : t.cur ∈ subtrees tr) : Inv (raise k t) :=
  hi.decoded ht (by rw [ho]; rfl) hr hw hcur fun _ => nofun

/-! ### The commands -/

/-- A command that consumes at most the bits left leaves the reader within IN. -/
theorem Inv.readerOk_of_le {t : State} (hin : t.input = s.input) (hp : t.inPos ≤ s.inPos + bitsLeft s) :
    readerOk t := by
  rw [readerOk, hin]
  exact hp.trans (hi.add_le (Nat.le_refl _))

theorem keepsInv_flushWriter (h : idle s) (ho : s.wOpen = true) : KeepsInv (finish (flushWriter s)) := by
  have hw := wbufOk_of_idle h hi.writer_ok
  obtain ⟨hr, -, hrest⟩ := id hi
  rcases flushWriter_cases hw with ⟨h0, e⟩ | ⟨-, e, -⟩ | ⟨-, -, e⟩ <;> rw [e]
  · exact ⟨_, rfl, hr, ⟨fun _ => hw, fun _ => h0⟩, hrest⟩
  · exact ⟨_, rfl, hr, ⟨fun _ => rfl, fun _ => rfl⟩, hrest⟩
  · exact ⟨_, rfl, hi.raised rfl hr (writerOk_raise (.inl rfl) (closed_of_open ho))⟩

theorem keepsInv_build (h : idle s) (hn : s.tree = none) : KeepsInv (exec .build s) := by
  cases ho : weightOverflows s.cfg (totalWeight s.hist) with
  | true =>
    rw [exec_build_overflows h hn ho, ← raise_of_hdr h.1]
    exact ⟨_, rfl, hi.raise_of_idle h _⟩
  | false =>
    obtain ⟨T, hT, -⟩ := huffman_spec s.hist
    exact ⟨_, exec_build_fits h hn ho hT, hi.built hn (treeOk_of_huffman hT) h.1⟩

theorem keepsInv_encodeLoop (h : idle s) (ho : s.wOpen = true) :
    KeepsInv (finish (encodeLoop (bitsLeft s + 1) s)) := by
  have hreader : ∀ {t : State}, OnlyStreams s t → t.inPos ≤ s.inPos + bitsLeft s → readerOk t :=
    fun ht => hi.readerOk_of_le (by rw [ht])
  have hclosed : ∀ {t : State}, OnlyStreams s t → t.wOpen = false → t.wcnt = 0 :=
    fun ht => closed_of_open (by rw [ht]; exact ho)
  rcases encodeLoop_cases (wbufOk_of_idle h hi.writer_ok) (Nat.lt_succ_self (bitsLeft s)) with
    ⟨t, p, e, -, ht, hw, -, hp, -⟩ | ⟨t, l, x, l', p, e, -, -, -, ht, hw, -, -, hp⟩ |
    ⟨t, p, e, -, -, ht, hw, -, hp⟩ | ⟨t, e, ht, hp, -⟩ <;> rw [e]
  · exact ⟨_, rfl, hi.streams ht (hreader ht hp.le) ⟨fun _ => hw, hclosed ht⟩⟩
  · exact ⟨_, rfl, hi.raised ht (hreader ht hp) (writerOk_raise (.inr hw) (hclosed ht))⟩
  · exact ⟨_, rfl, hi.raised ht (hreader ht hp.le) (writerOk_raise (.inr hw) (hclosed ht))⟩
  · exact ⟨_, rfl, hi.raised ht (hreader ht hp) (writerOk_raise (.inl rfl) (hclosed ht))⟩

theorem keepsInv_rdhdr (h : idle s) (hn : s.tree = none) (hd : s.dstate = .readingTree) :
    KeepsInv (exec .rdhdr s) := by
  rw [exec_rdhdr h hn hd]
  rcases readHeader_cases (h := ⟨[], []⟩) ⟨List.nodup_nil, List.Perm.refl _⟩ (Nat.lt_succ_self (bitsLeft s)) with
    ⟨T, used, rest, d, hr, -, hok, -, e⟩ | ⟨k, d, hk, -, e⟩ | ⟨k, d, hk, -, e⟩ <;> rw [e]
  · have hlen : used.length ≤ bitsLeft s := by
      rw [← inRest_length, hr, List.length_append]
      exact Nat.le_add_right _ _
    have hread := (hi.reader (ff := s.fetchFails.drop d) (hi.add_le hlen)).headerRead hn hok
    rw [finish_ok]
    exact ⟨_, rfl, by simpa only [h.1] using hread⟩
  · exact ⟨_, rfl, hi.readerRaised (hi.add_le hk) h _⟩
  · exact ⟨_, rfl, hi.readerRaised (hi.add_le hk) h _⟩

theorem keepsInv_decode (h : idle s) (hd : s.dstate = .walking) (ho : s.wOpen = true) : KeepsInv (exec .decode s) := by
  have hroot := Inv.atRoot hi h hd ho
  have hreader : ∀ {t : State}, OnlyDecode s t → t.inPos ≤ s.inPos + bitsLeft s → readerOk t :=
    fun ht => hi.readerOk_of_le (by rw [ht])
  have hclosed : ∀ {t : State}, OnlyDecode s t → t.wOpen = false → t.wcnt = 0 :=
    fun ht => closed_of_open (by rw [ht]; exact ho)
  have hmem : ∀ {q l v}, Walk s.cur s.cur q l v → v ∈ subtrees s.cur := fun hw => hw.mem (mem_subtrees_self _)
  have hused : ∀ {q rest}, inRest s = q ++ rest → q.length ≤ bitsLeft s := fun hr => by
    rw [← inRest_length, hr, List.length_append]
    exact Nat.le_add_right _ _
  have hturns := turns_le s.cur
  rw [exec_decode hroot]
  rcases decodeLoop_cases ((treeOk_iff _).1 hroot.treeOk).2 (wbufOk_of_idle h hi.writer_ok)
    (show _ ≤ 2 * bitsLeft s + 3 by omega) with
    ⟨t, q, rest, l, w, e, hr, hwalk, ht, hw, -, hp, hcur, hdone⟩ | ⟨t, l, a, b, w, e, hwalk, ht, hw, -, hp, hcur, -⟩ |
    ⟨t, q, rest, l, v, e, hr, hwalk, ht, hp, hcur, -⟩ <;> rw [e]
  · refine ⟨t, rfl, hi.decoded hroot.tree (by rw [ht, h.1]) (hreader ht ?_) ⟨fun _ => hw, hclosed ht⟩
      (hcur ▸ hmem hwalk) fun hwalking => ?_⟩
    · exact hp.trans_le (Nat.add_le_add_left (hused hr) _)
    · cases hdone.symm.trans hwalking
  · exact ⟨_, rfl, hi.decodeRaised hroot.tree ht (hreader ht hp.le) (writerOk_raise (.inr hw) (hclosed ht))
      (hcur ▸ hmem hwalk)⟩
  · exact ⟨_, rfl, hi.decodeRaised hroot.tree ht (hreader ht (hp.trans_le (Nat.add_le_add_left (hused hr) _)))
      (writerOk_raise (.inl rfl) (hclosed ht)) (hcur ▸ hmem hwalk)⟩

/-- A legal command whose row of the table of 46_control R190 holds ends, and keeps the invariant. -/
theorem keepsInv_runs {i : Instr} (hc : i.isCommand = true) (hwf : i.wf = true) (h : idle s)
    (hp : Precondition i s) : KeepsInv (exec i s) := by
  cases i with
  | hdrLeaf | hdrNode => cases hc
  | clr => exact ⟨_, exec_clr h.1, inv_clear s⟩
  | rewind => exact ⟨_, exec_rewind h, hi.reader (ff := s.fetchFails) (Nat.zero_le _)⟩
  | rdbit => exact exec_rdbit h ▸ keepsInv_readBit hi h
  | rdbits n =>
    obtain ⟨h1, h32⟩ := (countLegal_iff n).1 hwf
    exact exec_rdbits h h1 h32 ▸ keepsInv_readBits hi h _
  | wrbit b => exact exec_wrbit h hp b ▸ writeBit_eq_writeAll b s ▸ keepsInv_writeAll hi h hp [b]
  | wrbits n v =>
    obtain ⟨h1, h32⟩ := (countLegal_iff n).1 hwf
    exact exec_wrbits h hp h1 h32 v ▸ keepsInv_writeAll hi h hp _
  | flush => exact exec_flush h hp ▸ keepsInv_flushWriter hi h hp
  | freq => exact exec_freq h ▸ keepsInv_freqLoop hi h
  | build => exact keepsInv_build hi h hp
  | mktab =>
    obtain ⟨tr, ht⟩ := Option.ne_none_iff_exists'.1 hp
    exact ⟨_, exec_mktab h ht, hi.tabled ht⟩
  | wrhdr =>
    obtain ⟨htree, ho⟩ := hp
    obtain ⟨tr, ht⟩ := Option.ne_none_iff_exists'.1 htree
    exact exec_wrhdr h ht ho ▸ keepsInv_writeAll hi h ho _
  | encode => exact exec_encode h hp.1 hp.2 ▸ keepsInv_encodeLoop hi h hp.2
  | rdhdr => exact keepsInv_rdhdr hi h hp.1 hp.2
  | decode => exact keepsInv_decode hi h hp.1 hp.2

/-- Every command between commands ends, and keeps the invariant. -/
theorem keepsInv_command {i : Instr} (hc : i.isCommand = true) (hh : s.hdr = none) : KeepsInv (exec i s) := by
  by_cases hclr : i = .clr
  · subst hclr
    exact ⟨_, exec_clr hh, inv_clear s⟩
  by_cases he : s.err = none
  · have h : idle s := ⟨hh, he⟩
    by_cases hready : i.wf = true ∧ Precondition i s
    · exact keepsInv_runs hi hc hready.1 h hready.2
    · refine ⟨raise .illegalCommand s, ?_, hi.raise_of_idle h _⟩
      rw [raise_of_hdr hh]
      cases hwf : i.wf with
      | true => exact exec_refused hc hwf h fun hp => hready ⟨hwf, hp⟩
      | false => exact exec_illFormed hc hwf h
  · exact ⟨s, errorGateStopsEveryCommand.1 i s hc hclr hh he, hi⟩

/-! ### The header tokens -/

/-- A header token in the middle of a header ends, and keeps the invariant. -/
theorem keepsInv_token {h : HdrRead} (hs : s.hdr = some h) (t : Token) : KeepsInv (exec t.instr s) := by
  obtain ⟨hr, hw, htab, htree, hhdr, hres⟩ := id hi
  rw [headerOk, hs] at hhdr
  obtain ⟨herr, hn, hd, hseen⟩ := hhdr
  rw [exec_token hs]
  have hmalformed : Inv (raise .malformedHeader s) :=
    hi.raised rfl hr (writerOk_raise (.inr (hw.1 (by simp [herr]))) hw.2)
  by_cases ht : ∀ f, t = .leaf f → f.toNat ≤ 256
  · rcases applyToken_cases ht hseen s with ⟨h', e, hh', -, -⟩ | ⟨T, e, -, hok, -⟩ | ⟨e, -⟩ <;> rw [e]
    · exact ⟨_, rfl, hr, hw, htab, htree, ⟨herr, hn, hd, hh'⟩, hres⟩
    · exact ⟨_, rfl, hi.headerRead hn hok⟩
    · exact ⟨_, rfl, hmalformed⟩
  · obtain ⟨f, hf⟩ := not_forall.1 ht
    obtain ⟨rfl, hgt⟩ := Classical.not_imp.1 hf
    rw [applyToken, leafToken, if_pos (Nat.lt_of_not_le hgt)]
    exact ⟨_, rfl, hmalformed⟩

/-! ### The step -/

/-- An illegal word keeps the invariant. -/
theorem keepsInv_illegalWord (hh : s.hdr = none) : KeepsInv (illegalWord s) := by
  by_cases he : s.err = none
  · have h : idle s := ⟨hh, he⟩
    exact ⟨raise .illegalCommand s, by rw [illegalWord_idle h, raise_of_hdr hh],
      hi.raise_of_idle h _⟩
  · exact ⟨s, illegalWord_gated hh he, hi⟩

/-- A step in the middle of a header keeps the invariant. -/
theorem keepsInv_token_step {h : HdrRead} (hs : s.hdr = some h) : KeepsInv (step s) := by
  obtain ⟨-, hw, -, -, hhdr, -⟩ := id hi
  rw [headerOk, hs] at hhdr
  obtain ⟨herr, -⟩ := hhdr
  have hbuf : wbufOk s := hw.1 (by simp [herr])
  simp only [step, hs]
  rcases fetchToken_cases s with ⟨t, rest, d, -, hr, e⟩ | ⟨_, k, d, -, hk, e⟩ | ⟨k, d, hk, -, e⟩ <;> rw [e]
  · have hlen : (tokenBits t).length ≤ bitsLeft s := by
      rw [← inRest_length, hr, List.length_append]
      exact Nat.le_add_right _ _
    exact keepsInv_token (hi.reader (ff := s.fetchFails.drop d) (hi.add_le hlen)) hs t
  · exact ⟨_, rfl, hi.raised rfl (hi.add_le hk) (writerOk_raise (.inr hbuf) hw.2)⟩
  · exact ⟨_, rfl, hi.raised rfl (hi.add_le hk) (writerOk_raise (.inr hbuf) hw.2)⟩

/-- A step that is not refused for want of a command keeps the invariant. -/
theorem keepsInv_step (ha : s.hdr ≠ none ∨ s.host ≠ []) : KeepsInv (step s) := by
  cases hh : s.hdr with
  | some h => exact keepsInv_token_step hi hh
  | none =>
    rcases hhost : s.host with _ | ⟨w | _, rest⟩
    · exact absurd hhost (ha.resolve_left (not_not.2 hh))
    · have hi' : Inv { s with host := rest, cp := s.cp + 1 } := hi
      cases hd : decode w with
      | error e => exact step_rejected_word hh hhost hd ▸ keepsInv_illegalWord hi' hh
      | ok i =>
        obtain ⟨hc, -⟩ := encodeOfDecodeIsTheWord w i hd
        exact step_decoded_word hh hhost hd ▸ keepsInv_command hi' hc hh
    · exact step_reset_event hh hhost ▸ ⟨_, rfl, inv_clear _⟩

end

/-- Settles O50: with the invariant a command between commands, and a token in the middle of a header, ends. -/
theorem everyCommandEnds : Obligations.EveryCommandEnds := by
  refine ⟨fun i s hc hi hh => ?command, fun i s h hc hi hs => ?token⟩
  case command =>
    obtain ⟨t, e, -⟩ := keepsInv_command hi hc hh
    exact ⟨t, e⟩
  case token =>
    obtain ⟨tok, rfl⟩ := exists_token hc
    obtain ⟨t, e, -⟩ := keepsInv_token hi hs tok
    exact ⟨t, e⟩

/-- Settles O52: a step runs a command, an illegal word, a reset event or a token, and each keeps the invariant. -/
theorem stepKeepsTheInvariant : Obligations.StepKeepsTheInvariant := by
  intro s t hi he
  have ha : s.hdr ≠ none ∨ s.host ≠ [] := by
    by_contra hn
    obtain ⟨hh, hhost⟩ := not_or.1 hn
    rw [step_no_action (not_not.1 hh) (not_not.1 hhost)] at he
    cases he
  obtain ⟨u, e, hu⟩ := keepsInv_step hi ha
  cases he.symm.trans e
  exact hu

end Sys2Proof.Machine
end

section
/-!
PROOFS. Bytes on the byte grid (20_memory R43, 45_decode R176), and the bits of V that WRBITS does not read
(30_encoding R63).
-/

namespace Sys2Proof.Machine

/-! ### Aligned bytes -/

/-- The eight bits of the stream at a byte boundary are the byte there (20_memory R42). -/
theorem bytesBits_drop_take (l : List Byte) {i : Nat} {b : Byte} (hb : l[i]? = some b) :
    ((bytesBits l).drop (8 * i)).take 8 = byteBits b := by
  induction l generalizing i with
  | nil => cases hb
  | cons c l ih =>
    cases i with
    | zero =>
      cases hb
      rw [Nat.mul_zero, List.drop_zero, bytesBits_cons, List.take_left' (byteBits_length _)]
    | succ i =>
      rw [bytesBits_cons, Nat.mul_succ, Nat.add_comm, ← List.drop_drop, List.drop_left' (byteBits_length _)]
      exact ih hb

/-- RDBITS 8 at a byte boundary is the byte there. -/
theorem exec_rdbits_aligned {s : State} {i : Nat} {b : Byte} (h : idle s) (hf : fetchesNeverFail s)
    (hp : s.inPos = 8 * i) (hb : s.input[i]? = some b) :
    ∃ d, exec (.rdbits 8) s = .next { s with
      inPos := 8 * (i + 1), res := ⟨false, b.setWidth 32⟩, fetchFails := s.fetchFails.drop d } := by
  have hlt : i < s.input.length := (List.getElem?_eq_some_iff.1 hb).1
  have hbits : (inRest s).take 8 = byteBits b := by
    rw [inRest, inBits, hp]
    exact bytesBits_drop_take s.input hb
  obtain ⟨d, e⟩ := readBits_neverFail 8 hf
  rw [if_pos (by rw [bitsLeft]; omega), hbits, bitsToNat_byteBits, hp, ← Nat.mul_succ] at e
  refine ⟨d, ?_⟩
  rw [exec_rdbits h (n := 8) (by decide) (by decide), show (8 : BitVec 6).toNat = 8 from rfl, e, andThen_ok,
    readResult, BitVec.ofNat_toNat, finish_ok]

/-- The low eight bits of V are those of one byte. -/
theorem lowBits_eight (v : BitVec 32) : lowBits 8 v = byteBits (v.setWidth 8) := by
  rw [byteBits, BitVec.toNat_setWidth, natToBits_mod, natToBits_eq_map]
  rfl

/-- Where the bits written are whole bytes, OUT holds them and none is pending. -/
theorem out_eq_of_outBits {s : State} {S : List Byte} (hb : outBits s = bytesBits S) : s.wcnt = 0 ∧ s.out = S := by
  have hcnt : s.wcnt.val = 0 := by
    have hlen := outBits_length s
    have hlt := s.wcnt.isLt
    rw [hb, bytesBits_length] at hlen
    omega
  have hout : bytesBits s.out = bytesBits S ++ [] := by
    rw [List.append_nil, ← hb, outBits, pending, hcnt, List.take_zero, List.append_nil]
  exact ⟨Fin.ext hcnt, (bytesBits_append_inj (by decide) hout).1⟩

/-- With the writer empty and open, WRBITS 8 puts one byte. -/
theorem exec_wrbits_aligned {s : State} (v : BitVec 32) (h : idle s) (hp : putsNeverFail s) (ho : s.wOpen = true)
    (hc : s.wcnt = 0) (hb : s.wbuf = 0) :
    ∃ d, exec (.wrbits 8 v) s = .next { s with
      out := s.out ++ [v.setWidth 8], putFails := s.putFails.drop d } := by
  have hw : wbufOk s := by simp [wbufOk, hb]
  have hempty : outBits s = bytesBits s.out := by simp [outBits, pending, hc]
  rw [exec_wrbits h ho (n := 8) (by decide) (by decide), show (8 : BitVec 6).toNat = 8 from rfl, lowBits_eight]
  rcases writeAll_cases (byteBits (v.setWidth 8)) hw with ⟨t, e, ht, hwt, hbt, d, hd⟩ | ⟨_, _, d, -, -, -, -, -, hd⟩
  · have hbytes : outBits t = bytesBits (s.out ++ [v.setWidth 8]) := by simp [hbt, hempty]
    obtain ⟨hcnt, hout⟩ := out_eq_of_outBits hbytes
    have hbuf : t.wbuf = 0 := by simpa [wbufOk, hcnt] using hwt
    refine ⟨d, ?_⟩
    rw [e, finish_ok, ht, hcnt, hout, hbuf, hd, ← hc, ← hb]
  · exact absurd hd (no_draw hp)

/-- Settles O19: the bits read are the byte's, and the bits written make up one byte. -/
theorem alignedBytesPassUnchanged : Obligations.AlignedBytesPassUnchanged :=
  ⟨fun _ _ _ => exec_rdbits_aligned, fun _ => exec_wrbits_aligned⟩

/-! ### The high bits of V -/

/-- Settles O23: the field written is made of the low bits alone. -/
theorem wrbitsIgnoresTheHighBits : Obligations.WrbitsIgnoresTheHighBits := by
  intro n v v' s hv
  have hbits : natToBits n.toNat v.toNat = natToBits n.toNat v'.toNat := natToBits_congr hv
  simp only [exec, execWrbits, writeBits, countOperand, valueOperand, hbits]

end Sys2Proof.Machine
end

section
/-!
PROOFS. The bounds of a tree: leaves, nodes, depths, and the Kraft sum of its codes (42_tree_build R134).
-/

namespace Sys2Proof.Machine

/-! ### Leaves, nodes and depths -/

/-- Distinct symbols are at most NSYM. -/
theorem leaves_length_le {t : Tree} (hn : (treeSyms t).Nodup) : (leaves t).length ≤ 257 := by
  simpa [treeSyms] using hn.length_le_card

theorem subtrees_length_add_one (t : Tree) : (subtrees t).length + 1 = 2 * (leaves t).length := by
  induction t with
  | leaf x w => rfl
  | node a b w iha ihb =>
    simp only [subtrees, leaves, List.length_cons, List.length_append]
    omega

/-- Each step of a path leaves at least one leaf aside. -/
theorem follow_length_lt {t u : Tree} {p : List Bool} (h : follow t p = some u) : p.length < (leaves t).length := by
  induction t generalizing p with
  | leaf x w =>
    obtain ⟨rfl, -⟩ := follow_leaf_eq_some h
    exact Nat.one_pos
  | node a b w iha ihb =>
    have ha := List.length_pos_iff.2 (leaves_ne_nil a)
    have hb := List.length_pos_iff.2 (leaves_ne_nil b)
    rw [leaves, List.length_append]
    cases p with
    | nil => exact Nat.add_pos_left ha _
    | cons c p =>
      rw [List.length_cons]
      cases c
      · have := iha h
        omega
      · have := ihb h
        omega

/-! ### The Kraft sum -/

/-- The term 2^(256 - depth) of a symbol whose leaf has the given path below a node of depth `d`. -/
def kraftTerm (d : Nat) : Option (List Bool) → Nat
  | none => 0
  | some p => 2 ^ (256 - (d + p.length))

theorem kraftTerm_map_cons (d : Nat) (c : Bool) (o : Option (List Bool)) :
    kraftTerm d (o.map (c :: ·)) = kraftTerm (d + 1) o := by
  cases o with
  | none => rfl
  | some p => rw [Option.map_some, kraftTerm, kraftTerm, List.length_cons, Nat.add_right_comm, Nat.add_assoc]

/-- A symbol with a path is a symbol of the tree. -/
theorem mem_of_pathTo {t : Tree} {x : Nat} {p : List Bool} (h : pathTo t x = some p) :
    ∃ y ∈ treeSyms t, y.val = x := by
  obtain ⟨y, w, hy, hf⟩ := follow_pathTo h
  exact ⟨y, mem_treeSyms_of_follow hf, hy⟩

/-- A symbol's leaf stands below one of the two children. -/
theorem kraftTerm_node (d : Nat) {a b : Tree} {w : Nat} (hn : (treeSyms (.node a b w)).Nodup) (x : Nat) :
    kraftTerm d (pathTo (.node a b w) x) = kraftTerm (d + 1) (pathTo a x) + kraftTerm (d + 1) (pathTo b x) := by
  rw [pathTo]
  cases hb : pathTo b x with
  | none => exact kraftTerm_map_cons d false _
  | some p =>
    have ha : pathTo a x = none := by
      by_contra hne
      obtain ⟨q, ha⟩ := Option.ne_none_iff_exists'.1 hne
      obtain ⟨y, hy, rfl⟩ := mem_of_pathTo ha
      obtain ⟨z, hz, hyz⟩ := mem_of_pathTo hb
      rw [treeSyms_node, List.nodup_append] at hn
      exact hn.2.2 y hy z hz (Fin.ext hyz.symm)
    rw [ha]
    exact (kraftTerm_map_cons d true (some p)).trans (Nat.zero_add _).symm

/-- A sum over the numbers below `n` with one term. -/
theorem sum_map_range_ite {n y : Nat} (hy : y < n) (c : Nat) :
    ((List.range n).map fun x => if x = y then c else 0).sum = c := by
  have hsum := Finset.sum_ite_eq' (Finset.range n) y fun _ => c
  rw [if_pos (Finset.mem_range.2 hy)] at hsum
  exact hsum

theorem sum_kraftTerm_leaf (d : Nat) (y : Sym) (w : Nat) :
    ((List.range 257).map fun x => kraftTerm d (pathTo (.leaf y w) x)).sum = 2 ^ (256 - d) := by
  have hterm : ∀ x, kraftTerm d (pathTo (.leaf y w) x) = if x = y.val then 2 ^ (256 - d) else 0 := fun x => by
    rw [pathTo]
    split <;> rfl
  rw [List.map_congr_left fun x _ => hterm x]
  exact sum_map_range_ite y.isLt _

/-- The terms of the leaves below a node of depth `d` add up to the term of that depth. -/
theorem sum_kraftTerm {t : Tree} (hn : (treeSyms t).Nodup) {d : Nat} (hd : d + (leaves t).length ≤ 257) :
    ((List.range 257).map fun x => kraftTerm d (pathTo t x)).sum = 2 ^ (256 - d) := by
  induction t generalizing d with
  | leaf y w => exact sum_kraftTerm_leaf d y w
  | node a b w iha ihb =>
    have ha := List.length_pos_iff.2 (leaves_ne_nil a)
    have hb := List.length_pos_iff.2 (leaves_ne_nil b)
    rw [leaves, List.length_append] at hd
    simp only [kraftTerm_node d hn, List.sum_map_add]
    rw [treeSyms_node, List.nodup_append] at hn
    obtain ⟨hna, hnb, -⟩ := hn
    rw [iha hna (by omega), ihb hnb (by omega), show 256 - d = 256 - (d + 1) + 1 by omega, Nat.pow_succ,
      Nat.mul_two]

/-- Settles O36: distinct symbols bound the leaves, and these the depths; the Kraft sum is that of the paths. -/
theorem treeBounds : Obligations.TreeBounds := by
  intro t hn
  have hle := leaves_length_le hn
  refine ⟨hle, Nat.eq_sub_of_add_eq (subtrees_length_add_one t), fun p u h => Nat.le_sub_one_of_lt (follow_length_lt h),
    fun x p hx => ?code, ?kraft⟩
  case code =>
    rw [codeRead_codeTable] at hx
    obtain ⟨y, w, -, hf⟩ := follow_pathTo hx
    have := follow_length_lt hf
    omega
  case kraft =>
    refine (congrArg List.sum (List.map_congr_left fun x _ => ?_)).trans (sum_kraftTerm hn (d := 0) (by omega))
    rw [codeRead_codeTable]
    cases pathTo t x with
    | none => rfl
    | some p => rw [kraftTerm, Nat.zero_add]

end Sys2Proof.Machine
end

section
/-!
PROOFS. ENCODE where nothing fails and where a fetch or a put fails (44_encode R160, 60_exceptions R208), and
COMPRESS on any environment (46_control R188, 20_memory R46).
-/

namespace Sys2Proof.Machine

/-! ### ENCODE that leaves no error -/

/-- ENCODE's loop ends, or raises UnencodableSymbol or IoFailure (44_encode, its errors). -/
theorem encodeLoop_ends {s : State} (hw : wbufOk s) :
    (∃ t, encodeLoop (bitsLeft s + 1) s = .ok () t) ∨
    ∃ k t, encodeLoop (bitsLeft s + 1) s = .raised k t ∧ (k = .unencodableSymbol ∨ k = .ioFailure) := by
  rcases encodeLoop_cases hw (Nat.lt_succ_self _) with ⟨t, p, e, -⟩ | ⟨t, l, x, l', p, e, -⟩ | ⟨t, p, e, -⟩ |
    ⟨t, e, -⟩
  · exact .inl ⟨t, e⟩
  · exact .inr ⟨_, t, e, .inl rfl⟩
  · exact .inr ⟨_, t, e, .inl rfl⟩
  · exact .inr ⟨_, t, e, .inr rfl⟩

/-- ENCODE that leaves no error has written the payload of the byte groups left, and consumed every bit. -/
theorem exec_encode_ok {s t : State} (h : idle s) (hc : s.cValid = true) (ho : s.wOpen = true) (hw : wbufOk s)
    (he : exec .encode s = .next t) (ht : t.err = none) :
    ∃ p, payload s.code (byteGroups (inRest s)) = some p ∧ OnlyStreams s t ∧ wbufOk t ∧
      outBits t = outBits s ++ p ∧ t.inPos = s.inPos + bitsLeft s := by
  have hraised : ∀ {k u}, encodeLoop (bitsLeft s + 1) s ≠ .raised k u := fun e => by
    cases he.symm.trans (exec_encode_raised h hc ho e)
    cases ht
  rcases encodeLoop_cases hw (Nat.lt_succ_self _) with ⟨u, p, e, hp, hu, hwu, hb, hi, -⟩ |
    ⟨u, l, x, l', p, e, -⟩ | ⟨u, p, e, -⟩ | ⟨u, e, -⟩
  · rw [exec_encode h hc ho, e, finish_ok] at he
    cases he
    exact ⟨p, hp, hu, hwu, hb, hi⟩
  · exact absurd e hraised
  · exact absurd e hraised
  · exact absurd e hraised

/-- Settles O45: where nothing fails the loop ends free of error, and then it has written the payload. -/
theorem encodeAppendsThePayload : Obligations.EncodeAppendsThePayload := by
  intro s p h hc ho hok hr hf hp hpay
  have hw := wbufOk_of_idle h hok
  obtain ⟨t, e, ht, -, hb, -⟩ := exec_encode_writes h hc ho hw hf hp hpay
  have herr : t.err = none := by rw [ht]; exact h.2
  obtain ⟨-, -, -, -, -, hi⟩ := exec_encode_ok h hc ho hw e herr
  exact ⟨t, e, herr, hb, hi.trans (Nat.add_sub_of_le hr), ht⟩

/-! ### ENCODE where a fetch or a put fails -/

/-- ENCODE on any environment: its frame, its errors, and what OUT then holds. -/
theorem exec_encode_frame {s : State} (h : idle s) (hc : s.cValid = true) (ho : s.wOpen = true) (hw : wbufOk s) :
    ∃ t, exec .encode s = .next t ∧
      t = { s with inPos := t.inPos, fetchFails := t.fetchFails, out := t.out, wbuf := t.wbuf, wcnt := t.wcnt,
                   putFails := t.putFails, err := t.err } ∧
      (t.err = none ∨ t.err = some .unencodableSymbol ∨ t.err = some .ioFailure) ∧
      s.out <+: t.out ∧ bytesBits t.out <+: outBits s ++ encodeBits s.code (byteGroups (inRest s)) := by
  rcases encodeLoop_ends hw with ⟨t, e⟩ | ⟨k, t, e, hk⟩
  · have ht := encodeLoop_onlyStreams (.inl e)
    obtain ⟨hkept, hbegin⟩ := encodeLoop_out hw (.inl e)
    refine ⟨t, by rw [exec_encode h hc ho, e, finish_ok], ?_, .inl ?_, hkept, hbegin⟩ <;> rw [ht]
    exact h.2
  · have ht := encodeLoop_onlyStreams (.inr ⟨k, e⟩)
    obtain ⟨hkept, hbegin⟩ := encodeLoop_out hw (.inr ⟨k, e⟩)
    refine ⟨_, exec_encode_raised h hc ho e, by rw [ht], .inr ?_, hkept, hbegin⟩
    exact hk.imp (congrArg some) (congrArg some)

/-- Settles O58: each clause is what ENCODE's loop does on that environment. -/
theorem encodeStopsAtAFailure : Obligations.EncodeStopsAtAFailure := by
  intro s h hc ho hok
  have hw := wbufOk_of_idle h hok
  refine ⟨exec_encode_frame h hc ho hw, fun p ds q hp hput hq => ?fetch, fun m ds w hm hf hbits hlen => ?put⟩
  case fetch =>
    obtain ⟨t, e, ht, -, hb, hi, hff⟩ := encodeLoop_fetchFailsAt hw (Nat.lt_succ_self _) hp hput hq
    exact ⟨_, exec_encode_raised h hc ho e, hb, by rw [ht, hi, hff]⟩
  case put =>
    subst hbits
    obtain ⟨t, e, ht, h7, hpf, -, hout, hbuf⟩ := encodeLoop_putFailsAt hw (Nat.lt_succ_self _) hm hf hlen
    exact ⟨_, exec_encode_raised h hc ho e, hout, hbuf, by rw [ht, h7, hpf]⟩

/-! ### COMPRESS that leaves no error -/

/-- With an error set, a line of commands without CLR does nothing (46_control R191). -/
theorem runAll_gated {l : List Instr} {s : State} (hl : ∀ i ∈ l, i.isCommand = true ∧ i ≠ .clr)
    (hh : s.hdr = none) (he : s.err ≠ none) : runAll l s = .next s := by
  induction l with
  | nil => rfl
  | cons i l ih =>
    obtain ⟨⟨hc, hi⟩, hl⟩ := List.forall_mem_cons.1 hl
    rw [runAll_cons (errorGateStopsEveryCommand.1 i s hc hi hh he), ih hl]

/-- A line of commands that leaves no error, CLR being no other than its first, left none after its first. -/
theorem runAll_cons_ok {i : Instr} {l : List Instr} {s t : State} (hc : i.isCommand = true)
    (hl : ∀ i ∈ l, i.isCommand = true ∧ i ≠ .clr) (he : runAll (i :: l) s = .next t) (ht : t.err = none) :
    ∃ u, exec i s = .next u ∧ idle u ∧ runAll l u = .next t := by
  cases hu : exec i s with
  | fault | refused => rw [runAll, hu] at he; cases he
  | next u =>
    rw [runAll_cons hu] at he
    have hh := noHiddenStateSurvivesACommand i s u hc hu
    refine ⟨u, rfl, ⟨hh, ?_⟩, he⟩
    by_contra herr
    rw [runAll_gated hl hh herr] at he
    cases he
    exact herr ht

/-- FREQ that leaves no error has changed HIST and the reader alone (41_frequency R110). -/
theorem exec_freq_ok {s t : State} (h : idle s) (he : exec .freq s = .next t) (ht : t.err = none) :
    t = { s with hist := t.hist, inPos := t.inPos, fetchFails := t.fetchFails } := by
  rcases exec_freq_cases h with ⟨-, d, e⟩ | ⟨l, x, l', d, -, -, -, e⟩ | ⟨l, p, d, -, e⟩ <;>
    cases he.symm.trans e
  · rfl
  · cases ht
  · cases ht

/-- BUILD that leaves no error has stored the tree of HIST (42_tree_build R120). -/
theorem exec_build_ok {s t : State} (h : idle s) (hn : s.tree = none) (he : exec .build s = .next t)
    (ht : t.err = none) : ∃ tr, huffman s.hist = some tr ∧ t = { s with tree := some tr } := by
  obtain ⟨tr, htr, -⟩ := huffman_spec s.hist
  cases ho : weightOverflows s.cfg (totalWeight s.hist) with
  | true =>
    cases he.symm.trans (exec_build_overflows h hn ho)
    cases ht
  | false =>
    cases he.symm.trans (exec_build_fits h hn ho htr)
    exact ⟨tr, htr, rfl⟩

/-- WRHDR that leaves no error has written the header of TREE (43_header R140). -/
theorem exec_wrhdr_ok {s t : State} (h : idle s) {tr : Tree} (htr : s.tree = some tr) (ho : s.wOpen = true)
    (hw : wbufOk s) (he : exec .wrhdr s = .next t) (ht : t.err = none) :
    OnlyWriter s t ∧ wbufOk t ∧ outBits t = outBits s ++ treeBits tr := by
  rw [exec_wrhdr h htr ho] at he
  rcases writeAll_cases (treeBits tr) hw with ⟨u, e, hu, hwu, hb, -⟩ | ⟨u, k, d, e, -⟩ <;> rw [e] at he <;> cases he
  · exact ⟨hu, hwu, hb⟩
  · cases ht

/-- FLUSH that leaves no error has put out all bits written, and zeros up to a byte border (40_bitstream R98). -/
theorem exec_flush_ok {s t : State} (h : idle s) (ho : s.wOpen = true) (hw : wbufOk s)
    (he : exec .flush s = .next t) (ht : t.err = none) :
    t.tree = s.tree ∧ ∃ z, z < 8 ∧ bytesBits t.out = outBits s ++ List.replicate z false := by
  rw [exec_flush h ho] at he
  rcases flushWriter_cases hw with ⟨h0, e⟩ | ⟨h0, e, hb⟩ | ⟨-, -, e⟩ <;> rw [e] at he <;> cases he
  · exact ⟨rfl, 0, by decide, by simp [outBits, pending, h0]⟩
  · exact ⟨rfl, _, Nat.sub_lt (by decide) (Fin.pos_iff_ne_zero.2 h0), hb⟩
  · cases ht

/-- The tables of COMPRESS, where they leave no error: a tree, its codes, and the reader at the start. -/
theorem runAll_tables_ok {s t : State} {l : List Instr} (h : idle s) (hn : s.tree = none)
    (hl : ∀ i ∈ l, i.isCommand = true ∧ i ≠ .clr)
    (he : runAll (.freq :: .rewind :: .build :: .mktab :: l) s = .next t) (ht : t.err = none) :
    ∃ tr u, runAll l u = .next t ∧ u = { s with
      hist := u.hist, inPos := 0, fetchFails := u.fetchFails, tree := some tr, code := codeTable tr,
      cValid := true } := by
  obtain ⟨u₁, e₁, h₁, he⟩ := runAll_cons_ok rfl (by simpa [Instr.isCommand] using hl) he ht
  have hu₁ := exec_freq_ok h e₁ h₁.2
  obtain ⟨u₂, e₂, h₂, he⟩ := runAll_cons_ok rfl (by simpa [Instr.isCommand] using hl) he ht
  cases e₂.symm.trans (exec_rewind h₁)
  obtain ⟨u₃, e₃, h₃, he⟩ := runAll_cons_ok rfl (by simpa [Instr.isCommand] using hl) he ht
  obtain ⟨tr, -, rfl⟩ := exec_build_ok h₂ (by rw [hu₁]; exact hn) e₃ h₃.2
  obtain ⟨u₄, e₄, h₄, he⟩ := runAll_cons_ok rfl hl he ht
  cases e₄.symm.trans (exec_mktab h₃ rfl)
  exact ⟨tr, _, he, by rw [hu₁]⟩

/-- The writes of COMPRESS, where they leave no error: header, payload, and zeros up to a byte border. -/
theorem runAll_writes_ok {s t : State} (h : idle s) (hc : s.cValid = true) (ho : s.wOpen = true) (hw : wbufOk s)
    {tr : Tree} (htr : s.tree = some tr) (he : runAll [.wrhdr, .encode, .flush] s = .next t) (ht : t.err = none) :
    t.tree = some tr ∧ ∃ p z, payload s.code (byteGroups (inRest s)) = some p ∧ z < 8 ∧
      bytesBits t.out = outBits s ++ treeBits tr ++ p ++ List.replicate z false := by
  obtain ⟨u₁, e₁, h₁, he⟩ := runAll_cons_ok rfl (by decide) he ht
  obtain ⟨hu₁, hw₁, hb₁⟩ := exec_wrhdr_ok h htr ho hw e₁ h₁.2
  obtain ⟨u₂, e₂, h₂, he⟩ := runAll_cons_ok rfl (by decide) he ht
  obtain ⟨p, hp, hu₂, hw₂, hb₂, -⟩ := exec_encode_ok h₁ (by rw [hu₁]; exact hc) (by rw [hu₁]; exact ho) hw₁ e₂ h₂.2
  have hu := hu₁.streams.trans hu₂
  obtain ⟨u₃, e₃, h₃, he⟩ := runAll_cons_ok rfl (by decide) he ht
  cases he
  obtain ⟨htree, z, hz, hb₃⟩ := exec_flush_ok h₂ (by rw [hu]; exact ho) hw₂ e₃ h₃.2
  refine ⟨htree.trans (by rw [hu]; exact htr), p, z, ?_, hz, by rw [hb₃, hb₂, hb₁]⟩
  rw [hu₁] at hp
  exact hp

/-- Settles O55: after CLR the tables and then the writes of COMPRESS leave no error, so none of them met one. -/
theorem compressedStreamLayout : Obligations.CompressedStreamLayout := by
  intro s t S hh hS he ht
  have hin : (clear s).input = S := by
    rcases hS with ⟨rest, hn⟩ | ⟨hn, rfl⟩
    · exact clear_input_cons hn
    · exact clear_input_nil hn
  obtain ⟨c, ec, hc, he⟩ := runAll_cons_ok rfl (by decide) he ht
  cases ec.symm.trans (exec_clr hh)
  obtain ⟨tr, u, he, hu⟩ := runAll_tables_ok hc (clear_tree s) (by decide) he ht
  have hgroups : byteGroups (inRest u) = S.map BitVec.toNat := by
    rw [byteGroups_inRest_start (by rw [hu]), ← hin, hu]
  obtain ⟨htree, p, z, hp, hz, hb⟩ := runAll_writes_ok (s := u) (tr := tr) (by rw [hu]; exact hc) (by rw [hu])
    (by rw [hu]; exact clear_wOpen s) (by rw [hu]; exact wbufOk_of_idle hc (writerOk_clear s)) (by rw [hu]) he ht
  have hout : outBits u = [] := by rw [hu]; exact outBits_clear s
  rw [hgroups, hu] at hp
  rw [hout, List.nil_append] at hb
  exact ⟨tr, p, z, htree, hp, hz, hb⟩

/-- Settles O56: with no IN to come CLR leaves the one attached, and the round trip is that of its bytes. -/
theorem decompressOfCompressIsTheInput : Obligations.DecompressOfCompressIsTheInput := by
  intro s hh hn hf hp hfit
  obtain ⟨t, e, herr, hC⟩ := runAll_compress hh (clear_input_nil hn) hf hp hfit
  refine ⟨t, e, herr, fun s' hh' hn' hf' hp' hin => ?_⟩
  rw [← hin, ← clear_input_nil hn'] at hC
  exact runAll_decompress hh' hC hf' hp'

end Sys2Proof.Machine
end

section
/-!
PROOFS. DECODE where a fetch or a put fails (45_decode R171, its errors, 60_exceptions R208).
-/

namespace Sys2Proof.Machine

/-! ### What a walk says of the streams -/

/-- Bits written that go on from those before by whole bytes: OUT has grown by as many, and begins them. -/
theorem out_of_outBits {s t : State} {l : List Byte} (hb : outBits t = outBits s ++ bytesBits l) :
    t.out.length = s.out.length + l.length ∧ bytesBits t.out <+: outBits s ++ bytesBits l := by
  have hs := outBits_length s
  have ht := outBits_length t
  have hlts := s.wcnt.isLt
  have hltt := t.wcnt.isLt
  rw [hb, List.length_append, bytesBits_length] at ht
  refine ⟨by omega, ?_⟩
  rw [← hb]
  exact List.prefix_append _ _

/-- DECODE that ends, in whatever way, has given the bytes whose codes it consumed and stands at the end of the
path after them. -/
theorem Walk.bytes {root v : Tree} (hn : (treeSyms root).Nodup) {q : List Bool} {m : List Sym}
    (h : Walk root root q m v) :
    ∃ l p r, m = byteSyms l ∧ codesOf (codeTable root) (l.map BitVec.toNat) = some p ∧ q = p ++ r ∧
      follow root r = some v := by
  obtain ⟨l, rfl⟩ := exists_byteSyms h.ne_sentinel
  obtain ⟨p, r, hp, hq, hr⟩ := h.codes hn
  exact ⟨l, p, r, rfl, by rwa [byteSyms_map_val] at hp, hq, hr⟩

/-! ### DECODE on a failing environment -/

/-- The turns DECODE's loop has are enough (70_reset_and_hazards R245). -/
theorem decode_turns (s : State) :
    2 * bitsLeft s + (if loneByteLeaf s.cur = true then 2 else 1) ≤ 2 * bitsLeft s + 3 := by
  have := turns_le s.cur
  omega

section
variable {s : State} {tr : Tree} (h : AtRoot s tr)
include h

theorem AtRoot.wbufOk : wbufOk s := wbufOk_of_idle h.idle h.writerOk

/-- DECODE whose loop raises an error sets ERR and keeps what the loop did (60_exceptions R207). -/
theorem exec_decode_raised {t : State} {k : ErrKind} (e : decodeLoop tr (2 * bitsLeft s + 3) s = .raised k t) :
    exec .decode s = .next { t with err := some k } := by
  have hh : t.hdr = none := by rw [decodeLoop_onlyDecode (.inr ⟨k, e⟩)]; exact h.idle.1
  rw [exec_decode h, e, finish_raised_of_hdr hh]

/-- DECODE on any environment: a walk over the bits consumed, to the sentinel's leaf or to where an error stopped
it. -/
theorem exec_decode_walk : ∃ (t : State) (m : List Sym) (q rest : List Bool), exec .decode s = .next t ∧
    t = { s with inPos := t.inPos, fetchFails := t.fetchFails, out := t.out, wbuf := t.wbuf, wcnt := t.wcnt,
                 putFails := t.putFails, cur := t.cur, dstate := t.dstate, err := t.err } ∧
    ((t.err = none ∧ t.dstate = .done ∧ ∃ w, t.cur = .leaf 256 w) ∨
      ((t.err = some .truncatedPayload ∨ t.err = some .ioFailure) ∧ t.dstate = .walking)) ∧
    Walk tr tr q m t.cur ∧ inRest s = q ++ rest ∧ t.inPos = s.inPos + q.length ∧
    (outBits t = outBits s ++ symBits m ∨
      (t.out.length = s.out.length + m.length ∧ bytesBits t.out <+: outBits s ++ symBits m)) := by
  rcases decodeLoop_cases ((treeOk_iff tr).1 h.treeOk).2 h.wbufOk (decode_turns s) with
    ⟨t, q, rest, m, w, e, hr, hwalk, ht, -, hb, hi, hcur, hd⟩ | ⟨t, m, a, b, w, e, hwalk, ht, -, hb, hi, hcur, hd⟩ |
    ⟨t, q, rest, m, v, e, hr, hwalk, ht, hi, hcur, hd, hlen, hout, -⟩ <;> rw [h.cur, ← hcur] at hwalk
  · refine ⟨t, m, q, rest, by rw [exec_decode h, e, finish_ok], ?_, .inl ⟨?_, hd, w, hcur⟩, hwalk, hr, hi, .inl hb⟩ <;>
      rw [ht]
    exact h.idle.2
  · refine ⟨_, m, inRest s, [], exec_decode_raised h e, by rw [ht], .inr ⟨.inl rfl, hd.trans h.walking⟩, hwalk,
      (List.append_nil _).symm, by rw [inRest_length]; exact hi, .inl hb⟩
  · exact ⟨_, m, q, rest, exec_decode_raised h e, by rw [ht], .inr ⟨.inr rfl, hd.trans h.walking⟩, hwalk, hr, hi,
      .inr ⟨hlen, hout⟩⟩

/-- Where the fetch at `p` fails on an internal node, DECODE stops on it with the bytes before written. -/
theorem exec_decode_fetchFailsAt {p : Nat} {ds c q : List Bool} {l : List Byte} {a b : Tree} {w : Nat}
    (hp : fetchFailsAt s p ds) (hput : putsNeverFail s)
    (hc : codesOf (codeTable tr) (l.map BitVec.toNat) = some c) (hq : follow tr q = some (.node a b w))
    (hr : (inRest s).take (p - s.inPos) = c ++ q) :
    ∃ t, exec .decode s = .next t ∧ outBits t = outBits s ++ bytesBits l ∧
      t = { s with inPos := p, fetchFails := ds, out := t.out, wbuf := t.wbuf, wcnt := t.wcnt,
                   putFails := t.putFails, cur := .node a b w, err := some .ioFailure } := by
  have hwalk := walk_of_codesOf_follow hc hq
  rw [← hr] at hwalk
  obtain ⟨t, e, ht, -, hb, hi, hff, hcur, hd⟩ := decodeLoop_fetchFailsAt ((treeOk_iff tr).1 h.treeOk).2 h.wbufOk
    (decode_turns s) hp hput (by rw [h.cur]; exact hwalk)
  rw [symBits_byteSyms] at hb
  exact ⟨_, exec_decode_raised h e, hb, by rw [ht, hi, hff, hcur, hd]⟩

/-- Where the put of the byte `x` fails, DECODE stops on its leaf with the bytes before put. -/
theorem exec_decode_putFailsAt {ds c rest : List Bool} {l : List Byte} {x : Byte}
    (hp : putFailsAt s (s.out.length + l.length) ds) (hf : fetchesNeverFail s)
    (hc : codesOf (codeTable tr) ((l ++ [x]).map BitVec.toNat) = some c) (hr : inRest s = c ++ rest) :
    ∃ (t : State) (y : Sym) (w : Nat), exec .decode s = .next t ∧ y.val = x.toNat ∧
      t.out.length = s.out.length + l.length ∧ bytesBits t.out <+: outBits s ++ bytesBits l ∧
      t = { s with inPos := s.inPos + c.length, fetchFails := t.fetchFails, out := t.out, wbuf := t.wbuf,
                   wcnt := 7, putFails := ds, cur := .leaf y w, err := some .ioFailure } := by
  rw [List.map_append] at hc
  obtain ⟨c₁, c₂, hc₁, hc₂, rfl⟩ := codesOf_append_some.1 hc
  obtain ⟨px, pn, hx, hnil, rfl⟩ := codesOf_cons_some.1 hc₂
  cases hnil
  rw [List.append_nil] at hr ⊢
  rw [codeRead_codeTable] at hx
  obtain ⟨y, w, hy, hfollow⟩ := follow_pathTo hx
  have hne : y ≠ sentinel := Fin.ne_of_val_ne (by rw [hy]; exact Nat.ne_of_lt x.isLt)
  have hlen : (byteSyms l).length = l.length := List.length_map _
  obtain ⟨t, e, ht, h7, hpf, hout, hbegin, hi, hcur, hd⟩ := decodeLoop_putFailsAt ((treeOk_iff tr).1 h.treeOk).2
    h.wbufOk (decode_turns s) hne (by rw [hlen]; exact hp) hf
    (by rw [h.cur]; exact walk_of_codesOf_follow hc₁ hfollow) hr
  rw [hlen] at hout
  rw [symBits_byteSyms] at hbegin
  exact ⟨_, y, w, exec_decode_raised h e, hy, hout, hbegin, by rw [ht, hi, h7, hpf, hcur, hd]⟩

end

/-- Settles O59: DECODE's loop is a walk, also to the node where a fetch or a put stops it. -/
theorem decodeStopsAtAFailure : Obligations.DecodeStopsAtAFailure := by
  intro s tr h hd ho ht hc hok hw
  have hroot : AtRoot s tr := ⟨h, hd, ho, ht, hc, hok, hw⟩
  refine ⟨?anyEnv, fun p ds c q l a b w => exec_decode_fetchFailsAt hroot,
    fun ds c rest l x => exec_decode_putFailsAt hroot⟩
  obtain ⟨t, m, q, rest, e, hframe, hend, hwalk, hr, hi, hout⟩ := exec_decode_walk hroot
  obtain ⟨l, p, r, rfl, hp, rfl, hfollow⟩ := hwalk.bytes ((treeOk_iff tr).1 hok).1
  have hlen : (byteSyms l).length = l.length := List.length_map _
  rw [symBits_byteSyms, hlen] at hout
  rw [List.length_append, ← Nat.add_assoc] at hi
  obtain ⟨hgrown, hbegin⟩ := hout.elim out_of_outBits id
  exact ⟨t, l, p, r, rest, e, hframe, hend, hp, hfollow, hr, hi, hgrown, hbegin⟩

end Sys2Proof.Machine
end

section
/-!
PROOFS. RDHDR where no acceptable header stands at IN_POS, and where a fetch inside the header fails (43_header
R142, R144, 60_exceptions R209).
-/

namespace Sys2Proof.Machine

section
variable {s : State} (h : idle s) (hn : s.tree = none) (hd : s.dstate = .readingTree)
include h hn hd

/-- Where no fetch fails RDHDR raises MalformedHeader exactly where no acceptable header stands (R144). -/
theorem exec_rdhdr_malformed_iff (hf : fetchesNeverFail s) : ∃ t, exec .rdhdr s = .next t ∧
    (t.err = some .malformedHeader ↔ ¬ ∃ tr rest, treeOk tr = true ∧ inRest s = treeBits tr ++ rest) := by
  rcases exec_rdhdr_cases h hn hd with ⟨T, rest, d, hr, hok, -, e⟩ | ⟨k, d, hno, e⟩ | ⟨k, d, hfail, -⟩
  · refine ⟨_, e, iff_of_false ?_ (not_not.2 ⟨T, rest, hok, hr⟩)⟩
    change ¬ s.err = some .malformedHeader
    simp [h.2]
  · exact ⟨_, e, iff_of_true rfl hno⟩
  · exact absurd hfail (no_draw hf)

/-- An error of RDHDR changes the reader's position and ERR alone (60_exceptions R209). -/
theorem exec_rdhdr_error {t : State} (he : exec .rdhdr s = .next t) (ht : t.err ≠ none) :
    (t.err = some .malformedHeader ∨ t.err = some .ioFailure) ∧
      t = { s with inPos := t.inPos, fetchFails := t.fetchFails, err := t.err } := by
  rcases exec_rdhdr_cases h hn hd with ⟨T, rest, d, -, -, -, e⟩ | ⟨k, d, -, e⟩ | ⟨k, d, -, e⟩ <;>
    cases he.symm.trans e
  · exact absurd h.2 ht
  · exact ⟨.inl rfl, rfl⟩
  · exact ⟨.inr rfl, rfl⟩

variable {p : Nat} {ds : List Bool} (hp : fetchFailsAt s p ds)
include hp

/-- A fetch that fails inside an acceptable header is IoFailure there. -/
theorem exec_rdhdr_failsInside {tr : Tree} {x : List Bool} (hok : treeOk tr = true) (hx : x ≠ [])
    (hbits : (inRest s).take (p - s.inPos) ++ x = treeBits tr) :
    exec .rdhdr s = .next { s with inPos := p, fetchFails := ds, err := some .ioFailure } := by
  rw [exec_rdhdr h hn hd, readHeader_failsInside (h := ⟨[], []⟩) ⟨List.nodup_nil, List.Perm.refl _⟩
    (Nat.lt_succ_self _) hp hok hx hbits]
  exact finish_raised_of_hdr h.1

/-- RDHDR on both sides of the fetch that fails, against RDHDR on an IN `i` with the same bits before it and no
fetch that fails: it ends there at or before `p` and then ends the same here; or it is IoFailure at `p` here, and
there it goes on beyond `p`, or raises an error at `p` or beyond where `i` ends. -/
theorem exec_rdhdr_failsAt {i : List Byte} (hi : SameBefore i p s) :
    (∃ t ff, exec .rdhdr (elsewhere i s) = .next t ∧ t.inPos ≤ p ∧ t.input = i ∧
      exec .rdhdr s = .next { t with input := s.input, fetchFails := ff }) ∨
    (exec .rdhdr s = .next { s with inPos := p, fetchFails := ds, err := some .ioFailure } ∧
      ∀ t, exec .rdhdr (elsewhere i s) = .next t →
        p < t.inPos ∨ (min (p + 1) (8 * i.length) ≤ t.inPos ∧ t.err ≠ none)) := by
  have hthere := exec_rdhdr (s := elsewhere i s) h hn hd
  rw [exec_rdhdr h hn hd, hthere]
  rcases readHeader_failsAt (h := ⟨[], []⟩) (Nat.lt_succ_self (bitsLeft s))
    (Nat.lt_succ_self (bitsLeft (elsewhere i s))) hp hi with
    ⟨t, ff, hle, hin, ⟨e₀, e⟩ | ⟨k, e₀, e⟩⟩ | ⟨e, hok, hraised⟩
  · exact .inl ⟨t, ff, by rw [e₀, finish_ok], hle, hin, by rw [e, finish_ok]⟩
  · exact .inl ⟨raise k t, ff, by rw [e₀, finish_raised], hle, hin, by rw [e]; rfl⟩
  · refine .inr ⟨by rw [e]; exact finish_raised_of_hdr h.1, fun t ht => ?_⟩
    rcases finish_next ht with e₀ | ⟨k, u, e₀, rfl⟩
    · exact .inl (hok t e₀)
    · exact .inr ⟨hraised k u e₀, nofun⟩

/-- RDHDR where a fetch fails, told by RDHDR on the same IN where none does. -/
theorem exec_rdhdr_failsAt_same {t : State} (ht : exec .rdhdr { s with fetchFails := [] } = .next t) :
    (p < t.inPos → exec .rdhdr s = .next { s with inPos := p, fetchFails := ds, err := some .ioFailure }) ∧
      (t.inPos < p ∨ (t.inPos = p ∧ t.err = none) → ∃ ff, exec .rdhdr s = .next { t with fetchFails := ff }) := by
  have hle : p ≤ 8 * s.input.length := by
    obtain ⟨_, -, -, hl⟩ := hp
    exact hl
  rcases exec_rdhdr_failsAt h hn hd hp (i := s.input) ⟨hle, rfl⟩ with ⟨u, ff, e₀, hu, hin, e⟩ | ⟨e, hend⟩
  · cases ht.symm.trans e₀
    refine ⟨fun hlt => by omega, fun _ => ⟨ff, ?_⟩⟩
    rw [e, ← hin]
  · refine ⟨fun _ => e, fun hends => ?_⟩
    rcases hend t ht with hlt | ⟨hmin, herr⟩
    · omega
    · rcases hends with hlt | ⟨-, hnone⟩
      · omega
      · exact absurd hnone herr

/-- RDHDR where a fetch fails, told by RDHDR on an IN with the bytes before it and one more. -/
theorem exec_rdhdr_failsAt_other {i : List Byte} {t : State} (hbytes : i.take (p / 8) = s.input.take (p / 8))
    (hmore : p / 8 < i.length) (ht : exec .rdhdr { s with input := i, fetchFails := [] } = .next t) :
    (p < t.inPos → exec .rdhdr s = .next { s with inPos := p, fetchFails := ds, err := some .ioFailure }) ∧
      (t.inPos ≤ p → ∃ ff, exec .rdhdr s = .next { t with input := s.input, fetchFails := ff }) := by
  have hp8 : p = 8 * (p / 8) := by
    obtain ⟨k, -, hk, -⟩ := hp
    omega
  have hi : SameBefore i p s := by
    rw [hp8]
    exact sameBefore_bytes hbytes hmore.le
  rcases exec_rdhdr_failsAt h hn hd hp hi with ⟨u, ff, e₀, hu, -, e⟩ | ⟨e, hend⟩
  · cases ht.symm.trans e₀
    exact ⟨fun hlt => by omega, fun _ => ⟨ff, e⟩⟩
  · refine ⟨fun _ => e, fun hle => ?_⟩
    rcases hend t ht with hlt | ⟨hmin, -⟩ <;> omega

end

/-- Settles O41: the ends of RDHDR, and its comparison with RDHDR where no fetch fails. -/
theorem malformedHeaderWhenNoTreeStands : Obligations.MalformedHeaderWhenNoTreeStands :=
  fun _ h hn hd => ⟨exec_rdhdr_malformed_iff h hn hd, fun _ => exec_rdhdr_error h hn hd,
    fun _ _ hp => ⟨fun _ _ => exec_rdhdr_failsInside h hn hd hp, fun _ => exec_rdhdr_failsAt_same h hn hd hp,
      fun _ _ => exec_rdhdr_failsAt_other h hn hd hp⟩⟩

end Sys2Proof.Machine
end
